-- ==== Sys2Proof/Syntax.lean ====
section
/-! DEFINITION. The command set (spec/00_scope.md R3, 30_encoding.md R91): one constructor per row of spec/opcode_table.json.
Commands carry no operand fields (R93): the tree is the block's own store, the input is the source, the output is the sink. -/

namespace Sys2Proof

/-- The six commands of the block (30_encoding.md R91). -/
inductive Instr where
  /-- `build(inputBytes)`, 41_tree_builder.md R130 -/
  | build
  /-- `persist(Tree, outputSink)`, 45_tree_codec.md R210 -/
  | persist
  /-- `load(inputSource)`, 45_tree_codec.md R220 -/
  | load
  /-- `encode(Tree, inputBytes, outputSink)`, 43_bitstream_encoder.md R170 -/
  | encode
  /-- `decode(Tree, inputSource, outputSink)`, 44_bitstream_decoder.md R190 -/
  | decode
  /-- release of the tree as a whole, 46_control.md R232 -/
  | release
  deriving DecidableEq, Repr

/-- The mnemonic of a command as a script line writes it (30_encoding.md R91, R115). -/
def Instr.mnemonic : Instr → String
  | .build => "BUILD"
  | .persist => "PERSIST"
  | .load => "LOAD"
  | .encode => "ENCODE"
  | .decode => "DECODE"
  | .release => "RELEASE"

end Sys2Proof
end

