-- ==== Sys2Proof/Word.lean ====
section
/-! DEFINITION. The words of the HTC block and their plainest types (spec/00_scope.md R9, R10). All values are unsigned. -/

namespace Sys2Proof

/-- One byte: a symbol value, a stream byte, a command word (R9 VALUE_W). -/
abbrev Byte := BitVec 8

/-- A 32-bit word: `code`, `frequency`, `byteCount`, `maxFrequency`, the record count (R9). -/
abbrev Word := BitVec 32

/-- A node id, 0 to 510 (10_state.md R20, R22). An absent child or root is `none`, the 9-bit value NIL = 0x1FF (R9). -/
abbrev NodeId := Fin 511

end Sys2Proof
end

