-- ==== Sys2Proof/WellFormed.lean ====
section
/-! DEFINITION. Which command words select a command (spec/30_encoding.md R90 to R92). Commands have no operand fields (R93), so
an `Instr` has nothing to check; the three checks are on the word. -/

namespace Sys2Proof

/-- The reserved field RSV, bits [7:3] (R90). -/
def rsvField (w : Byte) : BitVec 5 := w.extractLsb' 3 5

/-- The opcode field OP, bits [2:0] (R90). -/
def opField (w : Byte) : BitVec 3 := w.extractLsb' 0 3

/-- A word selects a command when RSV is 0 and OP is neither 0 nor 7 (R91, R92). -/
def wordWellFormed (w : Byte) : Bool :=
  rsvField w == 0 && opField w != 0 && opField w != 7

end Sys2Proof
end

