-- ==== Sys2Proof/Decode.lean ====
section
/-! DEFINITION. The decoder of command words, total on every byte and rejecting by name (spec/30_encoding.md R90 to R92,
46_control.md R230), and after it the encoder, written from the same table (R91). -/

namespace Sys2Proof

/-- Why a command word selects no command (R92). -/
inductive DecodeError where
  /-- bits [7:3] are not all zero -/
  | reservedField
  /-- OP is 0 or 7 -/
  | reservedOpcode
  deriving DecidableEq, Repr

/-- The command a word selects: RSV first, then OP (R230). -/
def decode (w : Byte) : Except DecodeError Instr :=
  if rsvField w ≠ 0 then .error .reservedField
  else
    match (opField w).toNat with
    | 1 => .ok .build
    | 2 => .ok .persist
    | 3 => .ok .load
    | 4 => .ok .encode
    | 5 => .ok .decode
    | 6 => .ok .release
    | _ => .error .reservedOpcode

/-- The opcode OP of a command (R91). -/
def Instr.opcode : Instr → BitVec 3
  | .build => 1
  | .persist => 2
  | .load => 3
  | .encode => 4
  | .decode => 5
  | .release => 6

/-- The command word of a command: RSV = 0 above OP (R90). -/
def encode (i : Instr) : Byte := (0 : BitVec 5) ++ i.opcode

/-- The first command word of an instruction whose bits are `w`, numbered as spec/opcode_table.json numbers them: one byte, bit 0
the least significant. Bits at and above `nbits` are 0. -/
def tableByte (nbits w : Nat) : Byte := BitVec.ofNat 8 (w % 2 ^ nbits)

/-- The command the decoder reads from a row of the opcode table; `none` where the decoder refuses. -/
def decodeTableWord (nbits w : Nat) : Option Instr :=
  match decode (tableByte nbits w) with
  | .ok i => some i
  | .error _ => none

/-- 00000 001 -/
theorem decode_word_build : decode 0b00000001#8 = .ok .build := rfl
/-- 00000 010 -/
theorem decode_word_persist : decode 0b00000010#8 = .ok .persist := rfl
/-- 00000 011 -/
theorem decode_word_load : decode 0b00000011#8 = .ok .load := rfl
/-- 00000 100 -/
theorem decode_word_encode : decode 0b00000100#8 = .ok .encode := rfl
/-- 00000 101 -/
theorem decode_word_decode : decode 0b00000101#8 = .ok .decode := rfl
/-- 00000 110 -/
theorem decode_word_release : decode 0b00000110#8 = .ok .release := rfl

end Sys2Proof
end

