-- ==== Sys2Proof/Machine/State.lean ====
section
/-! DEFINITION. The state of the block as plain data (spec/10_state.md R20 to R46, 20_memory.md R60 to R68), the reasons a step can
stop, and the state after reset (R50). A RAM is a list of index and entry pairs in one canonical form: indices strictly rising, and
no entry at an index that nothing has written; what such an index holds is unspecified (R20, R23, R50), so nothing is listed there. -/

namespace Sys2Proof.Machine

/-- A RAM of the block, its written entries by rising index (R60). -/
abbrev Ram (α : Type) := List (Nat × α)

/-- One slot of NODE, 98 bits (R20). An absent child is `none` (NIL, R9). -/
structure Node where
  value : Byte
  frequency : Word
  code : Word
  codeLength : BitVec 8
  left : Option NodeId
  right : Option NodeId
  deriving DecidableEq, Repr, Inhabited

/-- One entry of the frequency table, 33 bits (R32). -/
structure Symbol where
  seen : Bool
  frequency : Word
  deriving DecidableEq, Repr, Inhabited

/-- The tree store (R20 to R31). `epoch` is the model's own: it names which unspecified contents NODE and POOL hold at the indices
that nothing has written since the store was last released (log entries 5, 6, 15). -/
structure Store where
  node : Ram Node
  pool : Ram NodeId
  /-- COUNT, 10 bits, range 0 to 511 (R24) -/
  count : Fin 512
  /-- BYTECOUNT (R25) -/
  byteCount : Word
  /-- MAXFREQ (R26) -/
  maxFreq : Word
  /-- ROOT, 9 bits, `none` is NIL (R27) -/
  root : Option NodeId
  epoch : Nat
  deriving DecidableEq, Repr

/-- The scratch state of one command (R32 to R37). -/
structure Scratch where
  /-- FT (R32) -/
  ft : Ram Symbol
  /-- LCOUNT (R33) -/
  lcount : BitVec 9
  /-- TOTAL (R33) -/
  total : BitVec 33
  /-- M (R34) -/
  m : BitVec 10
  /-- ACC (R35) -/
  acc : Byte
  /-- NBITS (R35) -/
  nbits : BitVec 4
  /-- DCODE (R36) -/
  dcode : Word
  /-- DLEN (R36) -/
  dlen : BitVec 6
  /-- TRAILER (R36) -/
  trailer : Byte
  /-- VBITS (R36, R194), of no fixed width (90_conflicts.md C10) -/
  vbits : Nat
  /-- NREC (R37) -/
  nrec : Word
  deriving DecidableEq, Repr

/-- STATUS.KIND (R42, 60_exceptions.md R244). The reserved value 7 is never produced and has no constructor. -/
inductive Kind where
  | ok
  | invalidInput
  | emptyInput
  | treeIntegrityError
  | unknownSymbol
  | truncatedStream
  | illegalCommand
  deriving DecidableEq, Repr

/-- STATUS.DETAIL (R42, 60_exceptions.md R246). -/
inductive Detail where
  | noDetail
  | unreadable
  | tooLong
  | noSink
  | shortTable
  | tableTooBig
  | badTrailer
  | codeOverflow
  | rootMismatch
  | countMismatch
  | badLength
  | valueAbsent
  | codeAbsent
  | noTrailer
  | partialCode
  | badCommand
  deriving DecidableEq, Repr

/-- PHASE (R44). The value 7 is never taken and has no constructor. -/
inductive Phase where
  | idle
  | count
  | merge
  | persist
  | load
  | encode
  | decode
  deriving DecidableEq, Repr

/-- The causes a command can be aborted for, one per row of 60_exceptions.md R246 but its OK. -/
inductive Cause where
  | emptyInput
  | unreadable
  | tooLong
  | noSink
  | shortTable
  | tableTooBig
  | badTrailer
  | codeOverflow
  | rootMismatch
  | countMismatch
  | badLength
  | valueAbsent
  | codeAbsent
  | noTrailer
  | partialCode
  | badCommand
  deriving DecidableEq, Repr

/-- The source the host has supplied (20_memory.md R66). -/
structure Source where
  readable : Bool
  bytes : List Byte
  pos : Nat
  deriving DecidableEq, Repr

/-- The sink the host has supplied (20_memory.md R68), with the bytes it has received, oldest first. -/
structure Sink where
  available : Bool
  bytes : List Byte
  deriving DecidableEq, Repr

/-- What the host can do to the block (70_reset_and_hazards.md R296). -/
inductive HostMove where
  /-- write the byte `w` to register `reg` (R40); a write to register 0, CMD, starts a command (46_control.md R230) -/
  | write (reg : Nat) (w : Byte)
  /-- read register `reg` (R40) -/
  | read (reg : Nat)
  /-- supply a source holding `past ++ rest`, its read position at `rest` (20_memory.md R66, R71) -/
  | openSource (readable : Bool) (past rest : List Byte)
  /-- supply a fresh sink (20_memory.md R68) -/
  | openSink (available : Bool)
  /-- reset the block as it stands (70_reset_and_hazards.md R280, R281) -/
  | reset
  /-- write the byte `w` to CMD and reset the block while the command runs (70_reset_and_hazards.md R281) -/
  | resetDuring (w : Byte)
  deriving DecidableEq, Repr

/-- The machine. The spec's own pieces are `store`, `scratch`, `kind`, `detail`, `phase`; `source`, `sink`, `host` and `readData` are
the host's side of the interface; `draws`, the number of free values drawn so far, is the model's own (log entries 3, 14, 15). -/
structure State where
  store : Store
  scratch : Scratch
  kind : Kind
  detail : Detail
  phase : Phase
  source : Source
  sink : Sink
  host : List HostMove
  readData : BitVec 32
  draws : Nat
  deriving DecidableEq, Repr

/-- The reasons the machine stops with a fault: none. Every command is total on every state and ends (70_reset_and_hazards.md R285,
R301); the block's errors are reported in STATUS by a next state (60_exceptions.md R250). -/
inductive Fault where
  deriving DecidableEq, Repr

/-- The moves and instructions the model refuses. -/
inductive Refusal where
  /-- raised by `exec` for an instruction without a meaning yet; safe: nothing is claimed of it -/
  | notModelled (mnemonic : String)
  /-- raised by `step` when the host changes the source or the sink of a running command, a move the transaction-level model does
  not have (70_reset_and_hazards.md R290, 93_implementation_defined.md W9); safe: no state that a run reaches is BUSY -/
  | streamChangeWhileBusy
  deriving DecidableEq, Repr

/-- The store after reset: empty, nothing listed in NODE and POOL (R30, R50). -/
def Store.reset : Store where
  node := []
  pool := []
  count := 0
  byteCount := 0
  maxFreq := 0
  root := none
  epoch := 0

/-- The scratch state after reset. The spec leaves it unspecified (R50); zero is the model's value (log entry 4). -/
def Scratch.reset : Scratch where
  ft := []
  lcount := 0
  total := 0
  m := 0
  acc := 0
  nbits := 0
  dcode := 0
  dlen := 0
  trailer := 0
  vbits := 0
  nrec := 0

/-- The machine right after reset (R50, 70_reset_and_hazards.md R280). The host's side holds a readable source without bytes, an
available sink without bytes and no move to come (log entries 2, 3). -/
def State.reset : State where
  store := Store.reset
  scratch := Scratch.reset
  kind := .ok
  detail := .noDetail
  phase := .idle
  source := { readable := true, bytes := [], pos := 0 }
  sink := { available := true, bytes := [] }
  host := []
  readData := 0
  draws := 0

end Sys2Proof.Machine
end

