-- ==== Sys2Proof/Config.lean ====
section
/-! DEFINITION. The parameters of the block (spec/00_scope.md R9) and the free values: what the spec leaves unspecified is a constant
without a body, so nothing can be proved of its value. -/

namespace Sys2Proof.Config

open Sys2Proof.Machine

/-- SYMBOLS: the number of byte values (R9). -/
abbrev symbols : Nat := 256

/-- NODE_CAP: the slots of the tree store, `2 * SYMBOLS - 1` (R9). -/
abbrev nodeCap : Nat := 511

/-- MAX_INPUT: the longest input BUILD accepts, in bytes (R9). -/
abbrev maxInput : Nat := 2 ^ 32 - 1

/-- MAXLEN: the longest code (R9). -/
abbrev maxLen : Nat := 32

/-- REC_BYTES: the bytes of one persisted record (R9). -/
abbrev recBytes : Nat := 6

/-- What slot `i` of NODE holds while nothing has written it since the store's last release, number `epoch`
(10_state.md R20, R50, 46_control.md R232; log entry 5). -/
opaque freeNode (epoch i : Nat) : Node

/-- What position `p` of POOL holds while nothing has written it (10_state.md R23, R50; log entry 5). -/
opaque freePool (epoch p : Nat) : NodeId

/-- What entry `v` of FT holds while nothing has written it (10_state.md R32, R50; log entry 5). -/
opaque freeSymbol (v : Nat) : Symbol

/-- The bytes a command that faulted or was reset has appended to the sink, the `draw`-th free choice (20_memory.md R70; log entry 7). -/
opaque freeOut (draw : Nat) : List Byte

/-- How far such a command has advanced the source, before the bound of 20_memory.md R70 is applied (log entry 8). -/
opaque freeAdvance (draw : Nat) : Nat

/-- What a read of register `reg` returns while BUSY, for the registers 2 to 5 (93_implementation_defined.md W9; log entry 9). -/
opaque freeRegister (draw reg : Nat) : BitVec 32

end Sys2Proof.Config
end

