-- ==== Sys2Proof/Machine/Flags.lean ====
section
/-! DEFINITION. Every flag and status computation of the block (spec/10_state.md R21, R40, R42, R44; 60_exceptions.md R244, R246). -/

namespace Sys2Proof.Machine

/-- STATUS.KIND's number (60_exceptions.md R244). -/
def Kind.bits : Kind → BitVec 3
  | .ok => 0
  | .invalidInput => 1
  | .emptyInput => 2
  | .treeIntegrityError => 3
  | .unknownSymbol => 4
  | .truncatedStream => 5
  | .illegalCommand => 6

/-- STATUS.DETAIL's number (60_exceptions.md R246). -/
def Detail.bits : Detail → BitVec 4
  | .noDetail => 0
  | .unreadable => 1
  | .tooLong => 2
  | .noSink => 3
  | .shortTable => 4
  | .tableTooBig => 5
  | .badTrailer => 6
  | .codeOverflow => 7
  | .rootMismatch => 8
  | .countMismatch => 9
  | .badLength => 10
  | .valueAbsent => 11
  | .codeAbsent => 12
  | .noTrailer => 13
  | .partialCode => 14
  | .badCommand => 15

/-- PHASE's number (10_state.md R44). -/
def Phase.bits : Phase → BitVec 3
  | .idle => 0
  | .count => 1
  | .merge => 2
  | .persist => 3
  | .load => 4
  | .encode => 5
  | .decode => 6

/-- The detail code of a cause (60_exceptions.md R246); EmptyInput has the detail 0 (40_frequency_table.md R125). -/
def Cause.detail : Cause → Detail
  | .emptyInput => .noDetail
  | .unreadable => .unreadable
  | .tooLong => .tooLong
  | .noSink => .noSink
  | .shortTable => .shortTable
  | .tableTooBig => .tableTooBig
  | .badTrailer => .badTrailer
  | .codeOverflow => .codeOverflow
  | .rootMismatch => .rootMismatch
  | .countMismatch => .countMismatch
  | .badLength => .badLength
  | .valueAbsent => .valueAbsent
  | .codeAbsent => .codeAbsent
  | .noTrailer => .noTrailer
  | .partialCode => .partialCode
  | .badCommand => .badCommand

/-- The error kind a cause belongs to (60_exceptions.md R246, R252 to R256). -/
def Cause.kind : Cause → Kind
  | .emptyInput => .emptyInput
  | .unreadable | .tooLong | .noSink | .shortTable | .tableTooBig | .badTrailer => .invalidInput
  | .codeOverflow | .rootMismatch | .countMismatch | .badLength => .treeIntegrityError
  | .valueAbsent | .codeAbsent => .unknownSymbol
  | .noTrailer | .partialCode => .truncatedStream
  | .badCommand => .illegalCommand

/-- STATUS.BUSY: PHASE is different from IDLE (10_state.md R42). -/
def State.busy (s : State) : Bool := s.phase != .idle

/-- STATUS: DETAIL in [7:4], BUSY in [3], KIND in [2:0] (10_state.md R42). -/
def State.status (s : State) : Byte := s.detail.bits ++ BitVec.ofBool s.busy ++ s.kind.bits

/-- The 9-bit value of an optional node id, NIL = 0x1FF when absent (00_scope.md R9, 10_state.md R20, R27). -/
def idBits : Option NodeId → BitVec 9
  | none => 0x1FF
  | some i => BitVec.ofNat 9 i.val

/-- The leaf predicate: both children are absent (10_state.md R21). -/
def Node.isLeaf (n : Node) : Bool := n.left == none && n.right == none

end Sys2Proof.Machine
end

