-- ==== Sys2Proof/Machine/Operands.lean ====
section
/-! DEFINITION. The operand forms of the block: the source and the sink (spec/00_scope.md R11, 20_memory.md R66, R68), the
little-endian integers of the code table segment (R74), and bit reversal (R11). -/

namespace Sys2Proof.Machine

/-- `SrcAvail()`: the number of unread bytes (20_memory.md R66). -/
def Source.avail (src : Source) : Nat := src.bytes.length - src.pos

/-- The unread bytes, next byte first: `SrcPeek(k)` is entry `k` of them (20_memory.md R66). -/
def Source.unread (src : Source) : List Byte := src.bytes.drop src.pos

/-- `n` times `SrcByte()`: the read position moves past `n` bytes (20_memory.md R66). -/
def Source.skip (n : Nat) (src : Source) : Source := { src with pos := src.pos + n }

/-- `SrcByte()` as a change of the machine, `n` times; the bytes read are the first `n` of `Source.unread`. -/
def State.srcSkip (n : Nat) (s : State) : State := { s with source := s.source.skip n }

/-- `SinkByte(v)` on the sink (20_memory.md R68). -/
def Sink.push (v : Byte) (k : Sink) : Sink := { k with bytes := k.bytes ++ [v] }

/-- `SinkByte(v)`: appends byte `v` to the sink (00_scope.md R11). -/
def State.sinkByte (v : Byte) (s : State) : State := { s with sink := s.sink.push v }

/-- `SinkByte` of each byte, in order. -/
def State.sinkBytes (vs : List Byte) (s : State) : State := vs.foldl (fun s v => s.sinkByte v) s

/-- The four bytes of a 32-bit integer, lowest stream position first (20_memory.md R74). -/
def le32 (w : Word) : List Byte :=
  [w.extractLsb' 0 8, w.extractLsb' 8 8, w.extractLsb' 16 8, w.extractLsb' 24 8]

/-- The 32-bit integer of four bytes, `b0` at the lowest stream position (20_memory.md R74). -/
def word32 (b0 b1 b2 b3 : Byte) : Word := b3 ++ b2 ++ b1 ++ b0

/-- A bit as the low bit of a 32-bit word. -/
def bit32 (β : Bool) : Word := BitVec.zeroExtend 32 (BitVec.ofBool β)

/-- `rev_n(c)`: the n-bit reversal of the low `n` bits of `c` (00_scope.md R11). -/
def rev (n : Nat) (c : Word) : Word :=
  (List.range n).foldl (fun r i => r ||| (bit32 (c.getLsbD i) <<< (n - 1 - i))) 0

/-- A stream that faulted or was cut off part-way: the position anywhere from where it stood to the end (20_memory.md R70). -/
def Source.cut (draw : Nat) (src : Source) : Source :=
  src.skip (Config.freeAdvance draw % (src.avail + 1))

/-- A sink after a command that faulted or was cut off: an unspecified, possibly empty sequence is appended (20_memory.md R70). -/
def Sink.cut (draw : Nat) (k : Sink) : Sink := { k with bytes := k.bytes ++ Config.freeOut draw }

end Sys2Proof.Machine
end

