-- ==== Sys2Proof/Machine/Ops.lean ====
section
/-! DEFINITION. The named operations over the RAMs, the tree store and the registers (spec/00_scope.md R11, 10_state.md R20 to R40),
and taking an error as ONE shared operation, `raise` (60_exceptions.md R250). -/

namespace Sys2Proof.Machine

/-- The entry at an index, `none` where nothing has written it. -/
def Ram.read {α : Type} : Ram α → Nat → Option α
  | [], _ => none
  | (a, x) :: m, i => if a = i then some x else Ram.read m i

/-- The RAM with entry `x` at index `i`, in the canonical form. -/
def Ram.write {α : Type} : Ram α → Nat → α → Ram α
  | [], i, x => [(i, x)]
  | (a, y) :: m, i, x =>
    if i < a then (i, x) :: (a, y) :: m
    else if i = a then (i, x) :: m
    else (a, y) :: Ram.write m i x

/-- `MemWrite` of consecutive entries from index `i` (00_scope.md R11). -/
def Ram.writeFrom {α : Type} : Ram α → Nat → List α → Ram α
  | m, _, [] => m
  | m, i, x :: xs => Ram.writeFrom (m.write i x) (i + 1) xs

/-- The canonical form of a RAM of `size` entries: indices strictly rising and below `size`. -/
def Ram.wf {α : Type} (size : Nat) : Ram α → Bool
  | [] => true
  | [(a, _)] => decide (a < size)
  | (a, _) :: (b, y) :: m => decide (a < b) && Ram.wf size ((b, y) :: m)

/-- The canonical form of the three RAMs of the block (20_memory.md R60). -/
def Memory.wf (s : State) : Bool :=
  Ram.wf Config.nodeCap s.store.node && Ram.wf Config.nodeCap s.store.pool && Ram.wf Config.symbols s.scratch.ft

/-- `NODE[i]` (00_scope.md R11); a free value where nothing has written the slot. -/
def Store.nodeAt (st : Store) (i : NodeId) : Node := (st.node.read i.val).getD (Config.freeNode st.epoch i.val)

/-- `POOL[p]` (00_scope.md R11); a free value where nothing has written the position. -/
def Store.poolAt (st : Store) (p : Nat) : NodeId := (st.pool.read p).getD (Config.freePool st.epoch p)

/-- `FT[v]` (00_scope.md R11); a free value where nothing has written the entry. -/
def Scratch.ftAt (sc : Scratch) (v : Byte) : Symbol := (sc.ft.read v.toNat).getD (Config.freeSymbol v.toNat)

/-- `NODE[i] <- n` (00_scope.md R11). -/
def Store.setNode (st : Store) (i : NodeId) (n : Node) : Store := { st with node := st.node.write i.val n }

/-- `FT[v] <- e` (00_scope.md R11). -/
def Scratch.setFt (sc : Scratch) (v : Byte) (e : Symbol) : Scratch := { sc with ft := sc.ft.write v.toNat e }

/-- The leaf predicate of the slot `i` (10_state.md R21). -/
def Store.isLeaf (st : Store) (i : NodeId) : Bool := (st.nodeAt i).isLeaf

/-- The ids at the positions `lo` to `COUNT - 1` of the collection, in order (10_state.md R23). -/
def Store.scanFrom (st : Store) (lo : Nat) : List NodeId :=
  (List.range' lo (st.count.val - lo)).map st.poolAt

/-- The whole collection in its order, what every linear scan visits (10_state.md R23). -/
def Store.scan (st : Store) : List NodeId := st.scanFrom 0

/-- The node id equal to a slot index (10_state.md R22). -/
def nodeId (n : Nat) : NodeId := Fin.ofNat 511 n

/-- Creation of the next node: it takes the id COUNT and the position COUNT of the collection, then COUNT is incremented
(10_state.md R22, 40_frequency_table.md R124, 41_tree_builder.md R138). -/
def Store.addNode (st : Store) (n : Node) : Store :=
  { st with
    node := st.node.write st.count.val n
    pool := st.pool.write st.count.val (nodeId st.count.val)
    count := st.count + 1 }

/-- A leaf as it is created: no children, an empty code (40_frequency_table.md R124). -/
def Node.leaf (value : Byte) (frequency : Word) : Node :=
  { value := value, frequency := frequency, code := 0, codeLength := 0, left := none, right := none }

/-- The release of the store: four assignments (46_control.md R232, R233); the contents of NODE and POOL become unspecified. -/
def Store.release (st : Store) : Store :=
  { node := [], pool := [], count := 0, byteCount := 0, maxFreq := 0, root := none, epoch := st.epoch + 1 }

/-- The release of the store as a change of the machine (46_control.md R233). -/
def State.releaseStore (s : State) : State := { s with store := s.store.release }

/-- `PHASE <- p` (00_scope.md R11). -/
def State.setPhase (p : Phase) (s : State) : State := { s with phase := p }

/-- A change of the tree store alone. -/
def State.mapStore (f : Store → Store) (s : State) : State := { s with store := f s.store }

/-- A change of the scratch registers alone. -/
def State.mapScratch (f : Scratch → Scratch) (s : State) : State := { s with scratch := f s.scratch }

/-- The last line of every command that ends OK: `STATUS <- OK ; PHASE <- IDLE` (10_state.md R42, R44). -/
def State.finish (s : State) : State := { s with kind := .ok, detail := .noDetail, phase := .idle }

/-- The commands that read the source (20_memory.md R67). -/
def usesSource : Instr → Bool
  | .build | .load | .encode | .decode => true
  | .persist | .release => false

/-- The commands that write the sink (20_memory.md R60). -/
def usesSink : Instr → Bool
  | .persist | .encode | .decode => true
  | .build | .load | .release => false

/-- The commands whose fault empties the store (60_exceptions.md R262). -/
def emptiesStore : Instr → Bool
  | .build | .load => true
  | .persist | .encode | .decode | .release => false

/-- The source after command `i`, started on source `src`, was cut off (20_memory.md R70). -/
def cutSource (i : Instr) (draw : Nat) (src : Source) : Source := if usesSource i then src.cut draw else src

/-- The sink after command `i`, started on sink `k`, was cut off (20_memory.md R70). -/
def cutSink (i : Instr) (draw : Nat) (k : Sink) : Sink := if usesSink i then k.cut draw else k

/-- The command a BUSY block is running, which PHASE tells (10_state.md R44). -/
def Phase.command : Phase → Option Instr
  | .idle => none
  | .count | .merge => some .build
  | .persist => some .persist
  | .load => some .load
  | .encode => some .encode
  | .decode => some .decode

/-- The machine after the command `c`, where there is one, was cut off by a reset: what it had sent to the sink and read from the source
is unspecified (70_reset_and_hazards.md R281, 20_memory.md R70). -/
def State.cutStreams (c : Option Instr) (s : State) : State :=
  match c with
  | none => s
  | some i =>
    { s with source := cutSource i s.draws s.source, sink := cutSink i s.draws s.sink, draws := s.draws + 1 }

/-- `raise K(d)` in command `i`, which started in state `s₀` and has come to state `s` (60_exceptions.md R250): BUILD and LOAD empty
the store (R262), KIND and DETAIL are written and nothing else is recorded (R248), PHASE returns to IDLE. What the command sent to the
sink and how far it advanced the source are unspecified (20_memory.md R70). -/
def raise (i : Instr) (c : Cause) (s₀ s : State) : State :=
  { s with
    store := if emptiesStore i then s.store.release else s.store
    kind := c.kind
    detail := c.detail
    phase := .idle
    source := cutSource i s₀.draws s₀.source
    sink := cutSink i s₀.draws s₀.sink
    draws := s₀.draws + 1 }

/-- A command under way: the state it has come to, or the cause of its abort with the state at that point. -/
abbrev Run := Except (Cause × State) State

/-- The outcome of command `i`, started in `s₀`: `finish` where it ran to its last line, `raise` where it was aborted. -/
def complete (i : Instr) (s₀ : State) : Run → Host.Outcome State Fault Refusal
  | .ok s => .next s.finish
  | .error (c, s) => .next (raise i c s₀ s)

/-- The first lines of a command that uses the streams: UNREADABLE before NO_SINK, before anything is read or written
(20_memory.md R69, 60_exceptions.md R258). -/
def checkStreams (i : Instr) (s : State) : Run :=
  if usesSource i && !s.source.readable then .error (.unreadable, s)
  else if usesSink i && !s.sink.available then .error (.noSink, s)
  else .ok s

/-- A host read of a register by its number (10_state.md R40): CMD reads as 0, a number above 5 reads 0. While BUSY the registers
2 to 5 read a free value (93_implementation_defined.md W9). -/
def State.readReg (s : State) (reg : Nat) : BitVec 32 :=
  match reg with
  | 1 => s.status.zeroExtend 32
  | 2 => if s.busy then Config.freeRegister s.draws 2 else BitVec.ofNat 32 s.store.count.val
  | 3 => if s.busy then Config.freeRegister s.draws 3 else s.store.byteCount
  | 4 => if s.busy then Config.freeRegister s.draws 4 else s.store.maxFreq
  | 5 => if s.busy then Config.freeRegister s.draws 5 else (idBits s.store.root).zeroExtend 32
  | _ => 0

end Sys2Proof.Machine
end

