-- ==== Sys2Proof/Machine/CodeTable.lean ====
section
/-! DEFINITION. The Code Table: the two lookups, linear scans over the collection filtered to leaves (spec/42_code_table.md R160 to
R167). They are functions of the store alone and write nothing. -/

namespace Sys2Proof.Machine

/-- `LookupValue(v)`: the first leaf in collection order with the byte value `v` (R161, R164). -/
def Store.lookupValue (st : Store) (v : Byte) : Option NodeId :=
  st.scan.find? fun i => st.isLeaf i && (st.nodeAt i).value == v

/-- `LookupCode(c, n)`: the byte value of the first leaf in collection order whose code and code length are `c` and `n`, both compared
whole (R162, R163, R164). -/
def Store.lookupCode (st : Store) (c : Word) (n : Nat) : Option Byte :=
  (st.scan.find? fun i => st.isLeaf i && (st.nodeAt i).code == c && (st.nodeAt i).codeLength.toNat == n).map
    fun i => (st.nodeAt i).value

end Sys2Proof.Machine
end

