-- ==== Sys2Proof/Machine/BitstreamDecoder.lean ====
section
/-! DEFINITION. The Bitstream Decoder and DECODE (spec/44_bitstream_decoder.md R190 to R204). -/

namespace Sys2Proof.Machine

/-- The decoder's accumulator empty (R195). -/
def Scratch.resetDcode (sc : Scratch) : Scratch := { sc with dcode := 0, dlen := 0 }

/-- The bit `β` in at bit 0 of DCODE, the earlier bits one place up (R196). -/
def Scratch.shiftDcode (β : Bool) (sc : Scratch) : Scratch :=
  { sc with dcode := (sc.dcode <<< 1) ||| bit32 β, dlen := sc.dlen + 1 }

/-- `GetBit(β)`: the overflow guard (R198), then the lookup of the reversed accumulator; a match emits its byte (R196). -/
def getBit (β : Bool) (s : State) : Run :=
  let s := s.mapScratch (Scratch.shiftDcode β)
  if Config.maxLen < s.scratch.dlen.toNat then .error (.codeAbsent, s)
  else
    match s.store.lookupCode (rev s.scratch.dlen.toNat s.scratch.dcode) s.scratch.dlen.toNat with
    | none => .ok s
    | some v => .ok ((s.sinkByte v).mapScratch Scratch.resetDcode)

/-- The bits of one data byte, in order. -/
def getBits : List Bool → State → Run
  | [], s => .ok s
  | β :: βs, s =>
    match getBit β s with
    | .error e => .error e
    | .ok s => getBits βs s

/-- The bits `lo` to 7 of a byte, ascending (R193, R194). -/
def byteBits (lo : Nat) (b : Byte) : List Bool := (List.range' lo (8 - lo)).map b.getLsbD

/-- The lowest bit read of the last data byte: `8 - TRAILER`, or 0 where the trailer is 0 (R194). -/
def lastLow (trailer : Byte) : Nat := if trailer = 0 then 0 else 8 - trailer.toNat

/-- The data bytes in source order; the padding of the last is not read (R193, R194). -/
def decodeBytes (trailer : Byte) : List Byte → State → Run
  | [], s => .ok s
  | [b], s => getBits (byteBits (lastLow trailer) b) (s.srcSkip 1)
  | b :: b' :: bs, s =>
    match getBits (byteBits 0 b) (s.srcSkip 1) with
    | .error e => .error e
    | .ok s => decodeBytes trailer (b' :: bs) s

/-- VBITS, the number of valid data bits of a segment of `n` bytes (R194). -/
def validBits (n : Nat) (trailer : Byte) : Nat :=
  if n = 1 then 0 else if trailer = 0 then 8 * (n - 1) else 8 * (n - 2) + trailer.toNat

/-- `TRAILER <- SrcPeek(n-1)` (R190). -/
def Scratch.setTrailer (trailer : Byte) (sc : Scratch) : Scratch := { sc with trailer := trailer }

/-- VBITS of the well-framed segment, the accumulator empty (R194, R195; log entry 20). -/
def Scratch.openSegment (n : Nat) (trailer : Byte) (sc : Scratch) : Scratch :=
  { sc with vbits := validBits n trailer, dcode := 0, dlen := 0 }

/-- The data bits of a well-framed segment, then the trailer; PARTIAL_CODE where a code is still open (R190, R200). -/
def decodeSegment (trailer : Byte) (data : List Byte) (s : State) : Run :=
  match decodeBytes trailer data (s.mapScratch (Scratch.openSegment (data.length + 1) trailer)) with
  | .error e => .error e
  | .ok s =>
    let s := s.srcSkip 1
    if s.scratch.dlen ≠ 0 then .error (.partialCode, s) else .ok s

/-- DECODE's lines (R190): the framing is checked before any bit is decoded (R192). TRAILER is written before the two tests of it, as R190
writes it, so that after BAD_TRAILER it holds the byte refused, while VBITS, DCODE and DLEN are written only once the framing is found
good: what these registers hold after a fault is any value by 93_implementation_defined.md W2, and so DESIGN CHOICE, log entries 13 and
20. -/
def decodeRun (s : State) : Run :=
  match checkStreams .decode s with
  | .error e => .error e
  | .ok s =>
    let s := s.setPhase .decode
    match s.source.unread.getLast? with
    | none => .error (.noTrailer, s)
    | some trailer =>
      let s := s.mapScratch (Scratch.setTrailer trailer)
      if 7 < trailer.toNat then .error (.badTrailer, s)
      else if trailer ≠ 0 ∧ s.source.unread.length = 1 then .error (.badTrailer, s)
      else decodeSegment trailer s.source.unread.dropLast s

/-- DECODE (44_bitstream_decoder.md R190). -/
def execDecode (s : State) : Host.Outcome State Fault Refusal := complete .decode s (decodeRun s)

end Sys2Proof.Machine
end

