-- ==== Sys2Proof/Machine/BitstreamEncoder.lean ====
section
/-! DEFINITION. The Bitstream Encoder and ENCODE (spec/43_bitstream_encoder.md R170 to R184). -/

namespace Sys2Proof.Machine

/-- The accumulator empty (R171, R176). -/
def Scratch.resetAcc (sc : Scratch) : Scratch := { sc with acc := 0, nbits := 0 }

/-- The bit `β` into bit 7 of the accumulator, the earlier bits one place down (R175). -/
def Scratch.shiftAcc (β : Bool) (sc : Scratch) : Scratch :=
  { sc with acc := (sc.acc >>> 1) ||| (BitVec.zeroExtend 8 (BitVec.ofBool β) <<< 7), nbits := sc.nbits + 1 }

/-- `PutBit(β)`: into the accumulator, which is flushed when it holds 8 bits (R175, R176). -/
def putBit (s : State) (β : Bool) : State :=
  let s := s.mapScratch (Scratch.shiftAcc β)
  if s.scratch.nbits = 8 then (s.sinkByte s.scratch.acc).mapScratch Scratch.resetAcc else s

/-- The bits of a code in the order they are written: bit 0 first (R174). -/
def Node.codeBits (n : Node) : List Bool := (List.range n.codeLength.toNat).map n.code.getLsbD

/-- The code of one input byte: VALUE_ABSENT before BAD_LENGTH (R173), then its bits (R174). -/
def encodeByte (v : Byte) (s : State) : Run :=
  match s.store.lookupValue v with
  | none => .error (.valueAbsent, s)
  | some i =>
    let n := s.store.nodeAt i
    if n.codeLength.toNat = 0 ∨ Config.maxLen < n.codeLength.toNat then .error (.badLength, s)
    else .ok (n.codeBits.foldl putBit s)

/-- The input bytes in source order (R172). -/
def encodeBytes : List Byte → State → Run
  | [], s => .ok s
  | v :: vs, s =>
    match encodeByte v (s.srcSkip 1) with
    | .error e => .error e
    | .ok s => encodeBytes vs s

/-- The end of the data segment: a partial byte as it stands (R178), then the trailer (R180). -/
def endSegment (s : State) : State :=
  let k : Byte := s.scratch.nbits.zeroExtend 8
  (if s.scratch.nbits = 0 then s else s.sinkByte s.scratch.acc).sinkByte k

/-- ENCODE's lines (R170). -/
def encodeRun (s : State) : Run :=
  match checkStreams .encode s with
  | .error e => .error e
  | .ok s =>
    match encodeBytes s.source.unread ((s.setPhase .encode).mapScratch Scratch.resetAcc) with
    | .error e => .error e
    | .ok s => .ok (endSegment s)

/-- ENCODE (43_bitstream_encoder.md R170). -/
def execEncode (s : State) : Host.Outcome State Fault Refusal := complete .encode s (encodeRun s)

end Sys2Proof.Machine
end

