-- ==== Sys2Proof/Machine/Release.lean ====
section
/-! DEFINITION. RELEASE and the illegal command word (spec/46_control.md R232, R234). -/

namespace Sys2Proof.Machine

/-- RELEASE: the four assignments of R232, then OK (46_control.md R232). -/
def execRelease (s : State) : Host.Outcome State Fault Refusal := .next s.releaseStore.finish

/-- A reserved command word: IllegalCommand/BAD_COMMAND, nothing else changes (46_control.md R234, 30_encoding.md R92). -/
def illegalCommand (s : State) : State :=
  { s with kind := Cause.badCommand.kind, detail := Cause.badCommand.detail }

end Sys2Proof.Machine
end

