-- ==== Sys2Proof/Machine/FrequencyTable.lean ====
section
/-! DEFINITION. The Frequency Table, the first phase of BUILD (spec/40_frequency_table.md R120 to R128). -/

namespace Sys2Proof.Machine

/-- The byte values 0 to 255 in ascending order (40_frequency_table.md R124). -/
def byteValues : List Byte := (List.range Config.symbols).map (BitVec.ofNat 8)

/-- Initialisation of the phase (R121): every entry not seen, `LCOUNT` and `TOTAL` 0. -/
def Scratch.clearTable (sc : Scratch) : Scratch :=
  { sc with
    ft := (List.range Config.symbols).map (fun v => (v, { seen := false, frequency := 0 }))
    lcount := 0
    total := 0 }

/-- The counting of one byte (R122). -/
def Scratch.countByte (v : Byte) (sc : Scratch) : Scratch :=
  { sc.setFt v { seen := true, frequency := (sc.ftAt v).frequency + 1 } with
    lcount := if (sc.ftAt v).seen then sc.lcount else sc.lcount + 1
    total := sc.total + 1 }

/-- The counting pass over the unread bytes (R122); TOO_LONG when it is about to count the 2^32-th byte (R126). -/
def countPass : List Byte → State → Run
  | [], s => .ok s
  | v :: vs, s =>
    if s.scratch.total = BitVec.ofNat 33 Config.maxInput then .error (.tooLong, s)
    else countPass vs ((s.srcSkip 1).mapScratch (Scratch.countByte v))

/-- The largest single-symbol frequency of the table (R123). -/
def Scratch.maxFrequency (sc : Scratch) : Word :=
  byteValues.foldl (fun m v => if m < (sc.ftAt v).frequency then (sc.ftAt v).frequency else m) 0

/-- The results of the pass written to the store (R123). -/
def recordTotals (s : State) : State :=
  s.mapStore fun st => { st with byteCount := s.scratch.total.truncate 32, maxFreq := s.scratch.maxFrequency }

/-- The leaf of one byte value, where it was seen (R124). -/
def Store.createLeaf (sc : Scratch) (st : Store) (v : Byte) : Store :=
  if (sc.ftAt v).seen then st.addNode (.leaf v (sc.ftAt v).frequency) else st

/-- Leaf creation: a scan of the table in ascending byte value (R124), on the store that the release left with COUNT 0. -/
def createLeaves (s : State) : State := s.mapStore fun st => byteValues.foldl (Store.createLeaf s.scratch) st

end Sys2Proof.Machine
end

