-- ==== Sys2Proof/Machine/TreeBuilder.lean ====
section
/-! DEFINITION. The Tree Builder and BUILD (spec/41_tree_builder.md R130 to R148). The order of the pool, the choice of left and right
and the way bits are added to codes decide the persisted bytes, so each is as the rules give it. -/

namespace Sys2Proof.Machine

/-- The stable sort of node ids by ascending frequency; the key is the frequency alone (R133). -/
def Store.stableSort (st : Store) (ids : List NodeId) : List NodeId :=
  ids.insertionSort fun a b => (st.nodeAt a).frequency ≤ (st.nodeAt b).frequency

/-- The stable sort of `POOL[lo .. COUNT-1]` (R132, R133, R136); positions below `lo` are not touched. -/
def Store.sortFrom (lo : Nat) (st : Store) : Store :=
  { st with pool := st.pool.writeFrom lo (st.stableSort (st.scanFrom lo)) }

/-- A node with the bit `β` shifted in at the low end of its code (R137). -/
def Node.pushBit (β : Bool) (n : Node) : Node :=
  { n with code := (n.code <<< 1) ||| bit32 β, codeLength := n.codeLength + 1 }

/-- `PushBit(i, β)`: the bit goes to node `i` and to every descendant of it (R137); `none` where a code would grow past 32 bits
(R140). The first argument bounds the depth of the descent; NODE_CAP is enough, since a child's id is below its parent's
(log entry 12). -/
def pushBit : Nat → Bool → NodeId → Store → Option Store
  | 0, _, _, st => some st
  | depth + 1, β, i, st =>
    let n := st.nodeAt i
    if n.codeLength.toNat = Config.maxLen then none
    else
      let st := st.setNode i (n.pushBit β)
      match (match n.left with | none => some st | some l => pushBit depth β l st) with
      | none => none
      | some st => match n.right with | none => some st | some r => pushBit depth β r st

/-- The internal node over children `a` and `b` (R138, R141, R146). -/
def Store.mergedNode (st : Store) (a b : NodeId) : Node :=
  { value := 0
    frequency := (st.nodeAt a).frequency + (st.nodeAt b).frequency
    code := 0
    codeLength := 0
    left := some a
    right := some b }

/-- One pass of the loop on the store, with the boundary `m` before it (R135 to R139); `none` on CODE_OVERFLOW (R140). -/
def Store.mergeOnce (m : Nat) (st : Store) : Option Store :=
  let a := st.poolAt m
  let b := st.poolAt (m + 1)
  match pushBit Config.nodeCap false a st with
  | none => none
  | some st =>
    match pushBit Config.nodeCap true b st with
    | none => none
    | some st => some ((st.addNode (st.mergedNode a b)).sortFrom (m + 2))

/-- The loop `while COUNT - M > 1` (R130, R134). The first argument bounds its passes; COUNT at its start is enough, since each pass
shrinks COUNT - M by one (R134, R301; log entry 12). -/
def mergeLoop : Nat → State → Run
  | 0, s => .ok s
  | passes + 1, s =>
    if s.store.count.val - s.scratch.m.toNat > 1 then
      match s.store.mergeOnce s.scratch.m.toNat with
      | none => .error (.codeOverflow, s)
      | some st => mergeLoop passes { s with store := st, scratch := { s.scratch with m := s.scratch.m + 2 } }
    else .ok s

/-- The special case of a single distinct byte value: the one leaf gets the code 0 of length 1 (R148). -/
def singleLeafCode (s : State) : State :=
  if s.scratch.lcount = 1 then
    s.mapStore fun st => st.setNode 0 { st.nodeAt 0 with code := 0, codeLength := 1 }
  else s

/-- `ROOT <- POOL[COUNT-1]` (R143). -/
def setRoot (s : State) : State := s.mapStore fun st => { st with root := some (st.poolAt (st.count.val - 1)) }

/-- The checks that end BUILD (R144). -/
def verifyTree (s : State) : Run :=
  match s.store.root with
  | none => .error (.rootMismatch, s)
  | some r =>
    if (s.store.nodeAt r).frequency ≠ s.store.byteCount then .error (.rootMismatch, s)
    else if s.store.count.val ≠ 2 * s.scratch.lcount.toNat - 1 then .error (.countMismatch, s)
    else .ok s

/-- The merge phase, from the leaves to the verified tree (R130). -/
def mergePhase (s : State) : Run :=
  let s := s.setPhase .merge
  let s := (s.mapStore (Store.sortFrom 0)).mapScratch fun sc => { sc with m := 0 }
  let s := singleLeafCode s
  match mergeLoop s.store.count.val s with
  | .error e => .error e
  | .ok s => verifyTree (setRoot s)

/-- BUILD's lines (R130): the readability check, the release of the old tree (R131), the frequency pass, EmptyInput where nothing was
seen (40_frequency_table.md R125), the totals, the leaves, the merge phase. -/
def buildRun (s : State) : Run :=
  match checkStreams .build s with
  | .error e => .error e
  | .ok s =>
    let s := s.releaseStore.setPhase .count
    match countPass s.source.unread (s.mapScratch Scratch.clearTable) with
    | .error e => .error e
    | .ok s =>
      if s.scratch.lcount = 0 then .error (.emptyInput, s)
      else mergePhase (createLeaves (recordTotals s))

/-- BUILD (41_tree_builder.md R130). -/
def execBuild (s : State) : Host.Outcome State Fault Refusal := complete .build s (buildRun s)

end Sys2Proof.Machine
end

