-- ==== Sys2Proof/Machine/TreeCodec.lean ====
section
/-! DEFINITION. The Tree Codec: PERSIST and LOAD (spec/45_tree_codec.md R210 to R227), compact leaf-only form. -/

namespace Sys2Proof.Machine

/-- The leaves in collection order (R212). -/
def Store.leaves (st : Store) : List NodeId := st.scan.filter st.isLeaf

/-- One persisted record of a node: value, code little-endian, code length (30_encoding.md R101). -/
def Node.record (n : Node) : List Byte := n.value :: le32 n.code ++ [n.codeLength]

/-- PERSIST's lines (R210): the number of leaves (R211), then one record a leaf (R212, R213). -/
def persistRun (s : State) : Run :=
  match checkStreams .persist s with
  | .error e => .error e
  | .ok s =>
    let s := s.setPhase .persist
    let s := s.mapScratch fun sc => { sc with nrec := BitVec.ofNat 32 s.store.leaves.length }
    let s := s.sinkBytes (le32 s.scratch.nrec)
    .ok (s.store.leaves.foldl (fun s i => s.sinkBytes (s.store.nodeAt i).record) s)

/-- PERSIST (45_tree_codec.md R210). -/
def execPersist (s : State) : Host.Outcome State Fault Refusal := complete .persist s (persistRun s)

/-- Record `k` stored: one leaf at slot `k` and position `k`, its three fields as read, frequency 0 (R222). -/
def Store.putRecord (k : Nat) (value : Byte) (code : Word) (codeLength : BitVec 8) (st : Store) : Store :=
  { st with
    node := st.node.write k
      { value := value, frequency := 0, code := code, codeLength := codeLength, left := none, right := none }
    pool := st.pool.write k (nodeId k) }

/-- `n` records from the unread bytes, the first of them number `k` (R220). The last line is never reached: the length of the source
is checked before the first record is read (R221). -/
def loadRecords : Nat → Nat → List Byte → State → State
  | 0, _, _, s => s
  | n + 1, k, v :: c0 :: c1 :: c2 :: c3 :: l :: bs, s =>
    loadRecords n (k + 1) bs ((s.srcSkip Config.recBytes).mapStore (Store.putRecord k v (word32 c0 c1 c2 c3) l))
  | _ + 1, _, _, s => s

/-- The summary registers after LOAD (R223). -/
def Store.closeTable (n : Nat) (st : Store) : Store :=
  { st with count := Fin.ofNat 512 n, root := none, byteCount := 0, maxFreq := 0 }

/-- LOAD's lines (R220): the three checks (R221), the records (R222), the summary registers (R223). -/
def loadRun (s : State) : Run :=
  match checkStreams .load s with
  | .error e => .error e
  | .ok s =>
    let s := s.releaseStore.setPhase .load
    match s.source.unread with
    | b0 :: b1 :: b2 :: b3 :: records =>
      let s := (s.srcSkip 4).mapScratch fun sc => { sc with nrec := word32 b0 b1 b2 b3 }
      let n := s.scratch.nrec.toNat
      if Config.nodeCap < n then .error (.tableTooBig, s)
      else if records.length < Config.recBytes * n then .error (.shortTable, s)
      else .ok ((loadRecords n 0 records s).mapStore (Store.closeTable n))
    | _ => .error (.shortTable, s)

/-- LOAD (45_tree_codec.md R220). -/
def execLoad (s : State) : Host.Outcome State Fault Refusal := complete .load s (loadRun s)

end Sys2Proof.Machine
end

