-- ==== Sys2Proof/Machine/Dispatch.lean ====
section
/-! DEFINITION. One arm per command (spec/46_control.md R230). -/

namespace Sys2Proof.Machine

/-- The effect of a command on the machine (00_scope.md R7). -/
def exec (i : Instr) (s : State) : Host.Outcome State Fault Refusal :=
  match i with
  | .build => Sys2Proof.Machine.execBuild s
  | .persist => Sys2Proof.Machine.execPersist s
  | .load => Sys2Proof.Machine.execLoad s
  | .encode => Sys2Proof.Machine.execEncode s
  | .decode => Sys2Proof.Machine.execDecode s
  | .release => Sys2Proof.Machine.execRelease s

end Sys2Proof.Machine
end

