-- ==== Sys2Proof/Machine/HostPort.lean ====
section
/-! DEFINITION. The host interface: what each move of the host does to the block (spec/46_control.md R230, R231, R234;
10_state.md R40; 70_reset_and_hazards.md R280, R281, R290, R296). -/

namespace Sys2Proof.Machine

/-- A write of the word `w` to CMD (46_control.md R230): dropped while BUSY (R231), one command, or BAD_COMMAND (R234). -/
def writeCmd (w : Byte) (s : State) : Host.Outcome State Fault Refusal :=
  if s.busy then .next s
  else
    match decode w with
    | .ok i => exec i s
    | .error _ => .next (illegalCommand s)

/-- A write to a register by its number: CMD is 0; every other number ignores writes (10_state.md R40). -/
def hostWrite (reg : Nat) (w : Byte) (s : State) : Host.Outcome State Fault Refusal :=
  if reg = 0 then writeCmd w s else .next s

/-- A read of a register by its number: no side effect on the block (20_memory.md R82). A read of an unspecified value draws one. -/
def hostRead (reg : Nat) (s : State) : State :=
  { s with readData := s.readReg reg, draws := if s.busy then s.draws + 1 else s.draws }

/-- Reset (10_state.md R50, 70_reset_and_hazards.md R280): the block as after reset, the RAM contents unspecified; the source, the
sink and the moves to come are the host's. -/
def resetBlock (s : State) : State :=
  { State.reset with
    store := s.store.release
    source := s.source
    sink := s.sink
    host := s.host
    readData := s.readData
    draws := s.draws }

/-- The command that a reset cuts off when the host has just written `w` to CMD: while BUSY the write is dropped (46_control.md R231) and
the running command is the one PHASE tells; else it is the command of the word, none for a reserved word. -/
def commandUnder (w : Byte) (s : State) : Option Instr :=
  if s.busy then s.phase.command else (decode w).toOption

/-- Reset, at any time (70_reset_and_hazards.md R280, R281, R296): a command that PHASE tells is running is cut off. In a BUSY state, which
no run reaches, the cut is taken from where the streams stand in that state: DESIGN CHOICE, log entry 25. -/
def resetNow (s : State) : State := resetBlock (s.cutStreams s.phase.command)

/-- Reset while the command of word `w` runs (70_reset_and_hazards.md R281; log entry 17): the reset state, with the command's streams cut
off. A reserved word and RELEASE complete without leaving IDLE (10_state.md R44) and touch no stream. In a BUSY state, which no run
reaches, it is the command that PHASE tells whose streams are cut off, from where they stand: DESIGN CHOICE, log entry 25. -/
def resetDuring (w : Byte) (s : State) : State := resetBlock (s.cutStreams (commandUnder w s))

/-- A move of the host (70_reset_and_hazards.md R296). The streams of a running command are not changed under it (R290): that move is
refused. -/
def hostMove (m : HostMove) (s : State) : Host.Outcome State Fault Refusal :=
  match m with
  | .write reg w => hostWrite reg w s
  | .read reg => .next (hostRead reg s)
  | .openSource readable past rest =>
    if s.busy then .refused .streamChangeWhileBusy
    else .next { s with source := { readable := readable, bytes := past ++ rest, pos := past.length } }
  | .openSink available =>
    if s.busy then .refused .streamChangeWhileBusy
    else .next { s with sink := { available := available, bytes := [] } }
  | .reset => .next (resetNow s)
  | .resetDuring w => .next (resetDuring w s)

/-- The next move of the host. With none to come the block waits, idle (70_reset_and_hazards.md R282). -/
def hostStep (s : State) : Host.Outcome State Fault Refusal :=
  match s.host with
  | [] => .next s
  | m :: ms => hostMove m { s with host := ms }

/-- The state with a write of the word `w` to CMD as the host's next move, the block not BUSY. -/
def placeCommand (w : Byte) (s : State) : State :=
  { s with host := .write 0 w :: s.host, phase := .idle }

end Sys2Proof.Machine
end

