-- ==== Sys2Proof/Machine/Step.lean ====
section
/-! DEFINITION. The step of the machine, and the placing of a command word where the step takes its next one. -/

namespace Sys2Proof.Machine

/-- One step: the next move of the host (spec/00_scope.md R7, 70_reset_and_hazards.md R296). -/
def step (s : State) : Host.Outcome State Fault Refusal := hostStep s

/-- The state whose next step runs the command of the table word `w`: a write of it to CMD at the head of the host's moves. -/
def State.withFetchWord (s : State) (nbits w : Nat) : State := placeCommand (tableByte nbits w) s

end Sys2Proof.Machine
end

