-- ==== Sys2Proof/Safety.lean ====
section
/-! DEFINITION. What counts as a good state, and the terms the claims are stated in: the invariant of the store, the layouts of the
persisted forms (spec/30_encoding.md R101, R105), what a bit sequence decodes to (R111, 44_bitstream_decoder.md R196), and what makes
a table a code that can be decoded (41_tree_builder.md R150). -/

namespace Sys2Proof.Safety

open Sys2Proof.Machine

/-- A slot holds a leaf, or an internal node over two different earlier slots (10_state.md R21, R22, 41_tree_builder.md R138). -/
abbrev NodeWf (slot : Nat) (n : Node) : Prop :=
  (n.left = none ∧ n.right = none)
    ∨ ∃ l ∈ n.left, ∃ r ∈ n.right, l.val < slot ∧ r.val < slot ∧ l ≠ r

/-- The children of a slot. -/
def childIds (n : Node) : List NodeId := n.left.toList ++ n.right.toList

/-- The store as every command leaves it: the slots 0 to COUNT-1 of NODE and the positions 0 to COUNT-1 of POOL are the written ones,
the positions hold a permutation of the ids (10_state.md R23), every slot is well formed (R21), no node is a child twice (each is merged exactly once,
41_tree_builder.md R137), ROOT is NIL or the node created last
(R27, R28), and an empty store has the summary registers of R30. -/
abbrev StoreWf (st : Store) : Prop :=
  st.node.map Prod.fst = List.range st.count.val
    ∧ st.pool.map Prod.fst = List.range st.count.val
    ∧ (st.pool.map fun e => e.2.val).Perm (List.range st.count.val)
    ∧ (∀ e ∈ st.node, NodeWf e.1 e.2)
    ∧ (st.node.flatMap fun e => childIds e.2).Nodup
    ∧ (∀ r ∈ st.root, r.val + 1 = st.count.val)
    ∧ (st.count.val = 0 → st.byteCount = 0 ∧ st.maxFreq = 0 ∧ st.root = none)

/-- The store is empty (10_state.md R30). -/
abbrev StoreEmpty (st : Store) : Prop :=
  st.count.val = 0 ∧ st.root = none ∧ st.byteCount = 0 ∧ st.maxFreq = 0

/-- The invariant of the machine between steps: the store is well formed, the frequency table's RAM has its canonical form, the source's
position is within it (20_memory.md R66), and PHASE is IDLE (10_state.md R44). -/
abbrev Inv (s : State) : Prop :=
  StoreWf s.store ∧ Ram.wf Config.symbols s.scratch.ft = true ∧ s.source.pos ≤ s.source.bytes.length ∧ s.phase = .idle

/-- STATUS holds the outcome OK (10_state.md R42). -/
abbrev EndsOk (t : State) : Prop := t.kind = .ok ∧ t.detail = .noDetail ∧ t.phase = .idle

/-- STATUS holds the cause `c` (60_exceptions.md R250). -/
abbrev EndsWith (c : Cause) (t : State) : Prop := t.kind = c.kind ∧ t.detail = c.detail ∧ t.phase = .idle

/-- Between the two states the streams have gone forward and no other way: the source's bytes stand and its position moves forward within
them, the sink only grows (20_memory.md R66, R68, R70). -/
abbrev StreamsGoForward (s t : State) : Prop :=
  t.source.readable = s.source.readable ∧ t.source.bytes = s.source.bytes
    ∧ s.source.pos ≤ t.source.pos ∧ (s.source.pos ≤ s.source.bytes.length → t.source.pos ≤ t.source.bytes.length)
    ∧ t.sink.available = s.sink.available ∧ s.sink.bytes <+: t.sink.bytes

/-- The state with a readable source of these bytes, at their start, and a fresh available sink. -/
def withStreams (input : List Byte) (s : State) : State :=
  { s with source := { readable := true, bytes := input, pos := 0 }, sink := { available := true, bytes := [] } }

/-- The byte whose bit `j` is `f j`. -/
def bitsByte (f : Nat → Bool) : Byte :=
  (List.range 8).foldl (fun b j => if f j then b ||| (1 <<< j) else b) 0

/-- Full data byte number `i` of the bit sequence `w`: bit `b` is `w(8i + b)` (30_encoding.md R105). -/
def fullByte (w : List Bool) (i : Nat) : Byte := bitsByte fun b => w.getD (8 * i + b) false

/-- The partial data byte after `q` full ones, of `k` valid bits: bit `8-k+b` is `w(8q + b)`, the bits below are 0 (R105). -/
def partialByte (w : List Bool) (q k : Nat) : Byte :=
  bitsByte fun j => decide (8 - k ≤ j) && w.getD (8 * q + (j - (8 - k))) false

/-- The data segment of the bit sequence `w`, byte for byte (30_encoding.md R105). -/
def dataSegment (w : List Bool) : List Byte :=
  (List.range (w.length / 8)).map (fullByte w)
    ++ (if w.length % 8 = 0 then [] else [partialByte w (w.length / 8) (w.length % 8)])
    ++ [BitVec.ofNat 8 (w.length % 8)]

/-- The valid bits of data bytes under a trailer, in the order they are read (44_bitstream_decoder.md R193, R194). -/
def segmentBits (trailer : Byte) : List Byte → List Bool
  | [] => []
  | [b] => byteBits (lastLow trailer) b
  | b :: b' :: bs => byteBits 0 b ++ segmentBits trailer (b' :: bs)

/-- The code of a byte value in the store: the pair of the leaf that `LookupValue` finds (42_code_table.md R161). -/
def codeOf (st : Store) (v : Byte) : Option (Word × BitVec 8) :=
  (st.lookupValue v).map fun i => ((st.nodeAt i).code, (st.nodeAt i).codeLength)

/-- The byte value has a leaf whose code can be sent (43_bitstream_encoder.md R173). -/
abbrev Encodable (st : Store) (v : Byte) : Prop :=
  ∃ i ∈ st.lookupValue v, 1 ≤ (st.nodeAt i).codeLength.toNat ∧ (st.nodeAt i).codeLength.toNat ≤ 32

/-- The number of code bits of one input byte, its assigned `codeLength` (30_encoding.md R107). -/
def codeLengthOf (st : Store) (v : Byte) : Nat :=
  match st.lookupValue v with
  | none => 0
  | some i => (st.nodeAt i).codeLength.toNat

/-- The sum over all input bytes of that byte's assigned `codeLength` (30_encoding.md R107). -/
def codeBitCount (st : Store) (input : List Byte) : Nat := (input.map (codeLengthOf st)).sum

/-- The code bits of one input byte, bit 0 of the code first (43_bitstream_encoder.md R174). -/
def valueBits (st : Store) (v : Byte) : List Bool :=
  match st.lookupValue v with
  | none => []
  | some i => (st.nodeAt i).codeBits

/-- The code bits of an input in write order (43_bitstream_encoder.md R172, R174). -/
def inputBits (st : Store) (input : List Byte) : List Bool := input.flatMap (valueBits st)

/-- The integer of bits in stream order: the bit read first is bit 0 (44_bitstream_decoder.md R196). -/
def codeWord : List Bool → Word
  | [] => 0
  | β :: βs => (codeWord βs <<< 1) ||| bit32 β

/-- DCODE after these bits, the bit read first ending highest (44_bitstream_decoder.md R196). -/
def shiftedIn (βs : List Bool) : Word := βs.foldl (fun c β => (c <<< 1) ||| bit32 β) 0

/-- What a bit sequence decodes to, with the bits `pre` already read of a code: the first length that matches ends a code
(30_encoding.md R111), more than 32 bits without a match are CODE_ABSENT (44_bitstream_decoder.md R198), bits that end within a code
are PARTIAL_CODE (R200). No reversal is needed on this side (R196). -/
def parseBits (st : Store) : List Bool → List Bool → Except Cause (List Byte)
  | pre, [] => if pre = [] then .ok [] else .error .partialCode
  | pre, β :: βs =>
    if 32 < (pre ++ [β]).length then .error .codeAbsent
    else
      match st.lookupCode (codeWord (pre ++ [β])) (pre ++ [β]).length with
      | none => parseBits st (pre ++ [β]) βs
      | some v =>
        match parseBits st [] βs with
        | .ok out => .ok (v :: out)
        | .error c => .error c

/-- The table can be decoded: every leaf has a code of 1 to 32 bits with no bit set above its length, no two leaves have the same
value, and no leaf's bit sequence is a prefix of another leaf's (41_tree_builder.md R150, 30_encoding.md R103). -/
abbrev PrefixCode (st : Store) : Prop :=
  (∀ i ∈ st.leaves, 1 ≤ (st.nodeAt i).codeLength.toNat ∧ (st.nodeAt i).codeLength.toNat ≤ 32
      ∧ (st.nodeAt i).code.toNat < 2 ^ (st.nodeAt i).codeLength.toNat)
    ∧ (∀ i ∈ st.leaves, ∀ j ∈ st.leaves, (st.nodeAt i).value = (st.nodeAt j).value → i = j)
    ∧ (∀ i ∈ st.leaves, ∀ j ∈ st.leaves, (st.nodeAt i).codeBits <+: (st.nodeAt j).codeBits → i = j)

/-- The code table segment PERSIST writes of a store (30_encoding.md R101, 45_tree_codec.md R210 to R213). -/
def tableSegment (st : Store) : List Byte :=
  le32 (BitVec.ofNat 32 st.leaves.length) ++ st.leaves.flatMap fun i => (st.nodeAt i).record

/-- The six bytes of one record (30_encoding.md R101). -/
def recordBytes (r : Byte × Word × BitVec 8) : List Byte := r.1 :: le32 r.2.1 ++ [r.2.2]

/-- The code table segment of a list of records (30_encoding.md R101). -/
def recordSegment (rs : List (Byte × Word × BitVec 8)) : List Byte :=
  le32 (BitVec.ofNat 32 rs.length) ++ rs.flatMap recordBytes

/-- The leaf LOAD makes of a record (45_tree_codec.md R222). -/
def recordLeaf (r : Byte × Word × BitVec 8) : Node :=
  { value := r.1, frequency := 0, code := r.2.1, codeLength := r.2.2, left := none, right := none }

/-- The number of distinct byte values of an input, L (10_state.md R28). -/
def distinct (input : List Byte) : Nat := (input.dedup).length

/-- The largest number of occurrences of one byte value in an input (10_state.md R26). -/
def maxOccurrences (input : List Byte) : Nat := (byteValues.map fun v => input.count v).foldl max 0

/-- The store a BUILD that ended OK has made of `input` (10_state.md R28). -/
abbrev Built (input : List Byte) (st : Store) : Prop :=
  st.count.val = 2 * distinct input - 1
    ∧ st.root = some (st.poolAt (st.count.val - 1))
    ∧ (st.poolAt (st.count.val - 1)).val = st.count.val - 1
    ∧ (st.nodeAt (st.poolAt (st.count.val - 1))).frequency = st.byteCount
    ∧ st.byteCount.toNat = input.length
    ∧ st.maxFreq.toNat = maxOccurrences input
    ∧ (∀ i : NodeId, i.val < distinct input → (st.nodeAt i).isLeaf = true
        ∧ (st.nodeAt i).frequency.toNat = input.count (st.nodeAt i).value ∧ (st.nodeAt i).value ∈ input
        ∧ 1 ≤ (st.nodeAt i).codeLength.toNat ∧ (st.nodeAt i).codeLength.toNat ≤ 32)
    ∧ (∀ i j : NodeId, i.val < j.val → j.val < distinct input → (st.nodeAt i).value < (st.nodeAt j).value)
    ∧ (∀ i : NodeId, distinct input ≤ i.val → i.val < st.count.val → (st.nodeAt i).isLeaf = false)
    ∧ (2 ≤ distinct input → (st.nodeAt (st.poolAt (st.count.val - 1))).code = 0
        ∧ (st.nodeAt (st.poolAt (st.count.val - 1))).codeLength = 0)

/-- The node a bit sequence leads to from node `i`: 0 to the left child, 1 to the right (41_tree_builder.md R142). -/
def walk (st : Store) : NodeId → List Bool → Option NodeId
  | i, [] => some i
  | i, β :: βs =>
    match (if β then (st.nodeAt i).right else (st.nodeAt i).left) with
    | none => none
    | some j => walk st j βs

/-- Node `j` is node `i` or a descendant of it (41_tree_builder.md R137). -/
def InSubtree (st : Store) (i j : NodeId) : Prop := ∃ path, walk st i path = some j

/-- A node that has acquired the bit `β`: its code left-shifted by one position with the bit appended at the low end, modulo 2^32, and
counted (41_tree_builder.md R137). -/
def withBit (β : Bool) (n : Node) : Node :=
  { n with code := BitVec.ofNat 32 (2 * n.code.toNat + β.toNat), codeLength := n.codeLength + 1 }

/-- The height of the tree that merging makes of subtrees given by weight and height alone, in pool order: the first two become one, which
goes behind every one of at most its weight (41_tree_builder.md R134 to R138). The first argument bounds the merges. -/
def mergedHeight : Nat → List (Nat × Nat) → Nat
  | merges + 1, a :: b :: rest =>
    let waits := fun c : Nat × Nat => decide (c.1 ≤ a.1 + b.1)
    mergedHeight merges (rest.takeWhile waits ++ (a.1 + b.1, max a.2 b.2 + 1) :: rest.dropWhile waits)
  | _, a :: _ => a.2
  | _, [] => 0

/-- The height of the tree over leaves of these frequencies. -/
def treeHeight (frequencies : List Nat) : Nat :=
  mergedHeight frequencies.length ((frequencies.insertionSort (· ≤ ·)).map fun f => (f, 0))

/-- The depth of the deepest leaf in the tree of an input: with two or more byte values, the bits its longest code needs
(41_tree_builder.md R140, R142). -/
def codeDepth (input : List Byte) : Nat := treeHeight ((byteValues.map fun v => input.count v).filter (0 < ·))

/-- The state after a command that ended OK, as a script goes on from it; `none` where it stops (30_encoding.md R116). -/
def runOk (i : Instr) (s : State) : Option State :=
  match exec i s with
  | .next t => if t.kind = .ok then some t else none
  | .fault _ => none
  | .refused _ => none

/-- `COMPRESS src=X`: BUILD, PERSIST, ENCODE into one fresh sink, the source re-opened for ENCODE; it stops at the first fault
(30_encoding.md R116, 20_memory.md R71). -/
def compress (input : List Byte) (s : State) : Option State :=
  match runOk .build (withStreams input s) with
  | none => none
  | some s =>
    match runOk .persist s with
    | none => none
    | some s => runOk .encode { s with source := { readable := true, bytes := input, pos := 0 } }

/-- `DECOMPRESS src=Y`: LOAD, then DECODE continuing on the same source (30_encoding.md R116). -/
def decompress (artifact : List Byte) (s : State) : Option State :=
  match runOk .load (withStreams artifact s) with
  | none => none
  | some s => runOk .decode s

end Sys2Proof.Safety
end

