-- ==== Sys2Proof/Certificates/Slice0/Obligations.lean ====
section
/-! DEFINITION. The statements for the provers: one `def Obligations.<Name> : Prop` each, listed in OBLIGATIONS.json. Each docstring
names the rules of spec/ it states. Statements hold in every state of the machine, reached or not, unless a premise says otherwise. -/

open Sys2Proof Sys2Proof.Machine Sys2Proof.Safety

/-! ### Reset, encoding, dispatch, registers -/

/-- R50, R280: what the spec gives of the state after reset: the store empty, STATUS 0x00, PHASE IDLE, and what the registers 0 to 6
then read (95_test_vectors.md V28). -/
def Obligations.ResetState : Prop :=
  State.reset.store.count = 0 ∧ State.reset.store.byteCount = 0 ∧ State.reset.store.maxFreq = 0
    ∧ State.reset.store.root = none ∧ State.reset.status = 0x00 ∧ State.reset.phase = .idle
    ∧ (List.range 7).map State.reset.readReg = [0, 0, 0, 0, 0, 0x1FF, 0]

/-- The invariant holds after reset (R23, R30, R44, R66). -/
def Obligations.ResetInvariant : Prop := Inv State.reset

/-- R91: the six command words, and that no other word selects a command. -/
def Obligations.CommandWords : Prop :=
  ∀ (w : Byte) (i : Instr), decode w = .ok i ↔
    (w, i) ∈ [(0x01#8, Instr.build), (0x02#8, .persist), (0x03#8, .load), (0x04#8, .encode), (0x05#8, .decode), (0x06#8, .release)]

/-- R90, R91, R92: decoding a command's word gives that command, a word that decodes is the encoder's word, and a word selects no
command exactly when it is reserved: RSV not 0, or OP 0 or 7. -/
def Obligations.DecodeIsEncodeInverse : Prop :=
  (∀ i, decode (encode i) = .ok i) ∧ (∀ i w, decode w = .ok i → w = encode i)
    ∧ ∀ w : Byte, (∀ i, decode w ≠ .ok i) ↔ w.extractLsb' 3 5 ≠ 0 ∨ w.extractLsb' 0 3 = 0 ∨ w.extractLsb' 0 3 = 7

/-- R230: a write of a command's word to CMD while not BUSY is one run of that command on the state with the move taken off; so is the
step of a state in which the command's word has been placed. -/
def Obligations.StepRunsCommand : Prop :=
  (∀ (s : State) (w : Byte) (ms : List HostMove) (i : Instr),
    s.host = .write 0 w :: ms → s.busy = false → decode w = .ok i → step s = exec i { s with host := ms })
  ∧ ∀ (s : State) (i : Instr), s.phase = .idle → step (s.withFetchWord 8 (encode i).toNat) = exec i s

/-- R234, R92: a reserved word, written to CMD while not BUSY, leaves STATUS 0xF6 and nothing else changed but that the move is taken. -/
def Obligations.ReservedWordRefused : Prop :=
  ∀ (s : State) (w : Byte) (ms : List HostMove),
    s.host = .write 0 w :: ms → s.busy = false →
    (w.extractLsb' 3 5 ≠ 0 ∨ w.extractLsb' 0 3 = 0 ∨ w.extractLsb' 0 3 = 7) →
    ∃ t, step s = .next t ∧ t.status = 0xF6
      ∧ t = { s with host := ms, kind := .illegalCommand, detail := .badCommand }

/-- R231: a write to CMD while BUSY starts no command and changes no state of the block. -/
def Obligations.BusyWriteDropped : Prop :=
  ∀ (s : State) (w : Byte) (ms : List HostMove),
    s.host = .write 0 w :: ms → s.busy = true → step s = .next { s with host := ms }

/-- R40: what the registers read after reset and in any state that is not BUSY, and that writes to every register but CMD are
ignored. -/
def Obligations.HostRegisters : Prop :=
  (List.range 6).map State.reset.readReg = [0, 0, 0, 0, 0, 0x1FF]
  ∧ (∀ s : State, s.busy = false →
    s.readReg 0 = 0 ∧ s.readReg 1 = s.status.zeroExtend 32 ∧ (s.readReg 2).toNat = s.store.count.val
      ∧ s.readReg 3 = s.store.byteCount ∧ s.readReg 4 = s.store.maxFreq
      ∧ (s.readReg 5).toNat = (match s.store.root with | none => 0x1FF | some r => r.val)
      ∧ ∀ n, 5 < n → s.readReg n = 0)
    ∧ ∀ (s : State) (n : Nat) (w : Byte) (ms : List HostMove),
        s.host = .write n w :: ms → n ≠ 0 → step s = .next { s with host := ms }

/-- R82: a register read by the host changes nothing of the block; R40: it returns the register. -/
def Obligations.RegisterReadHasNoSideEffect : Prop :=
  ∀ (s : State) (n : Nat) (ms : List HostMove),
    s.host = .read n :: ms → s.busy = false → step s = .next { s with host := ms, readData := s.readReg n }

/-- R42: the fields of STATUS; BUSY is 1 exactly when PHASE is not IDLE. -/
def Obligations.StatusFields : Prop :=
  ∀ s : State, s.status.extractLsb' 0 3 = s.kind.bits ∧ s.status.extractLsb' 4 4 = s.detail.bits
    ∧ (s.status.getLsbD 3 = true ↔ s.phase ≠ .idle)

/-- R244, R246: the STATUS byte of every cause once it has been raised (the table of 95_test_vectors.md), and of an OK ending. -/
def Obligations.StatusOfCauses : Prop :=
  ∀ (i : Instr) (s₀ s : State),
    [Cause.unreadable, .tooLong, .noSink, .shortTable, .tableTooBig, .badTrailer, .emptyInput, .codeOverflow, .rootMismatch,
        .countMismatch, .badLength, .valueAbsent, .codeAbsent, .noTrailer, .partialCode, .badCommand].map
        (fun c => (raise i c s₀ s).status)
      = [0x11, 0x21, 0x31, 0x41, 0x51, 0x61, 0x02, 0x73, 0x83, 0x93, 0xA3, 0xB4, 0xC4, 0xD5, 0xE5, 0xF6]
    ∧ s.finish.status = 0x00

/-- R250, R248: `raise` writes KIND and DETAIL, returns PHASE to IDLE, empties the store in BUILD and LOAD and in no other command, and
leaves the host's moves. That the scratch registers and the read data stand is the model's choice, not a rule: log entries 13 and 14
(DESIGN CHOICE). -/
def Obligations.RaiseEffect : Prop :=
  ∀ (i : Instr) (c : Cause) (s₀ s : State),
    EndsWith c (raise i c s₀ s)
      ∧ (i = .build ∨ i = .load → StoreEmpty (raise i c s₀ s).store)
      ∧ (i ≠ .build → i ≠ .load → (raise i c s₀ s).store = s.store)
      ∧ (raise i c s₀ s).scratch = s.scratch ∧ (raise i c s₀ s).host = s.host
      ∧ (raise i c s₀ s).readData = s.readData

/-- R280, R281, R70: reset leaves the empty store, STATUS 0x00 and PHASE IDLE, from any state, and so does a reset that ends a running
command, whatever the command had done. A reset of the block that is not BUSY does not touch the source and the sink. A reset during a
command leaves the source's bytes and moves its position forward within them, and only appends to the sink; it leaves the source of
PERSIST, the sink of BUILD and LOAD, and both streams with RELEASE and with a reserved word. For a state that is BUSY, which no run
reaches, the bounds on the streams are the model's choice: log entry 25 (DESIGN CHOICE). -/
def Obligations.ResetMoves : Prop :=
  ∀ (s : State) (ms : List HostMove),
    (s.host = .reset :: ms → ∃ t, step s = .next t ∧ StoreEmpty t.store ∧ EndsOk t ∧ t.host = ms ∧ StreamsGoForward s t
      ∧ (s.busy = false → t.source = s.source ∧ t.sink = s.sink))
    ∧ ∀ w, s.host = .resetDuring w :: ms → ∃ t, step s = .next t ∧ StoreEmpty t.store ∧ EndsOk t ∧ t.host = ms ∧ StreamsGoForward s t
      ∧ (s.busy = false →
          ((∀ i, decode w = .ok i → i ∈ [Instr.persist, .release]) → t.source = s.source)
          ∧ ((∀ i, decode w = .ok i → i ∈ [Instr.build, .load, .release]) → t.sink = s.sink))

/-- R66, R68, R71: the host supplies a source and a sink; nothing of the block changes. -/
def Obligations.StreamMoves : Prop :=
  ∀ (s : State) (ms : List HostMove), s.busy = false →
    (∀ readable past rest, s.host = .openSource readable past rest :: ms →
      ∃ t, step s = .next t ∧ t.source.readable = readable ∧ t.source.unread = rest ∧ t.source.bytes = past ++ rest
        ∧ t = { s with host := ms, source := t.source })
    ∧ ∀ available, s.host = .openSink available :: ms →
      step s = .next { s with host := ms, sink := { available := available, bytes := [] } }

/-- With no move of the host to come, a step of the block that is not BUSY changes nothing. This is the model's choice: log entry 16
(DEDUCED); R282 says only that the block waits, idle, after reset. -/
def Obligations.WaitsForTheHost : Prop := ∀ s : State, s.host = [] → s.busy = false → step s = .next s

/-- The only move the model turns away is a change of the source or the sink while BUSY. That it is turned away is log entry 10 (DEDUCED,
from R290 and W9); that it is the only one is the model's choice: W9 puts the write to CMD and the read of the registers 2 to 5 while
BUSY under `refuse` too, and the model drops the one (R231) and answers the other with a free value (log entry 9, DESIGN CHOICE). -/
def Obligations.OnlyBusyStreamChangeRefused : Prop :=
  ∀ (s : State) (r : Refusal), step s = .refused r →
    r = .streamChangeWhileBusy ∧ s.busy = true
      ∧ ((∃ b p q ms, s.host = .openSource b p q :: ms) ∨ ∃ b ms, s.host = .openSink b :: ms)

/-! ### What holds of every command -/

/-- R285, R301, R44: every command is total on every state and returns PHASE to IDLE. -/
def Obligations.CommandsAreTotal : Prop := ∀ (i : Instr) (s : State), ∃ t, exec i s = .next t ∧ t.phase = .idle

/-- The invariant is kept by every step: the store is well formed with POOL a permutation of its ids (R23), every slot a leaf or an
internal node over earlier slots (R21, R22), no node a child twice (each is merged once, R137), ROOT NIL or the last node (R27), the
empty store as R30, the source's position within the source (R66), PHASE IDLE between commands (R44). -/
def Obligations.StepKeepsInvariant : Prop := ∀ s t : State, Inv s → step s = .next t → Inv t

/-- R69, R258: UNREADABLE and NO_SINK at the start of a command, UNREADABLE first. -/
def Obligations.StreamChecksComeFirst : Prop :=
  ∀ s : State,
    (∀ i, i ∈ [Instr.build, .load, .encode, .decode] → s.source.readable = false →
      ∃ t, exec i s = .next t ∧ EndsWith .unreadable t)
    ∧ (∀ i, i ∈ [Instr.persist, .encode, .decode] → s.sink.available = false → (i ≠ .persist → s.source.readable = true) →
      ∃ t, exec i s = .next t ∧ EndsWith .noSink t)

/-- R262: a BUILD or LOAD that faults, for whatever cause, leaves the store empty; any other command that faults leaves it unchanged,
and so does a reserved command word. -/
def Obligations.FaultedStore : Prop :=
  (∀ (i : Instr) (s t : State), exec i s = .next t → t.kind ≠ .ok →
    (i = .build ∨ i = .load → StoreEmpty t.store) ∧ (i ≠ .build → i ≠ .load → t.store = s.store))
  ∧ ∀ (s t : State) (w : Byte) (e : DecodeError), s.busy = false → decode w = .error e → writeCmd w s = .next t →
      t.store = s.store

/-- R31: PERSIST, ENCODE and DECODE leave every field of the store unchanged, whether they end OK or fault. -/
def Obligations.ReadersKeepTheStore : Prop :=
  ∀ (i : Instr) (s t : State), i ∈ [Instr.persist, .encode, .decode] → exec i s = .next t → t.store = s.store

/-- R257: which command can end with which kind and detail. -/
def Obligations.OutcomesPerCommand : Prop :=
  ∀ (i : Instr) (s t : State), exec i s = .next t →
    EndsOk t ∨ ∃ c, EndsWith c t ∧ c ∈ (match i with
      | .build => [Cause.unreadable, .tooLong, .emptyInput, .codeOverflow, .rootMismatch, .countMismatch]
      | .persist => [.noSink]
      | .load => [.unreadable, .shortTable, .tableTooBig]
      | .encode => [.unreadable, .noSink, .badLength, .valueAbsent]
      | .decode => [.unreadable, .noSink, .badTrailer, .codeAbsent, .noTrailer, .partialCode]
      | .release => [])

/-- The frame of every command, for each form and each ending (R31, R45, R67, R70): the host's moves and read data stand; the source's
bytes stand and its position moves forward within the source; the sink only grows; BUILD, LOAD and RELEASE do not touch the sink,
PERSIST and RELEASE not the source; and each scratch register is written only by the commands R45 names for it. That the other
scratch registers and the read data stand is the model's choice: log entries 13 and 14 (DESIGN CHOICE). -/
def Obligations.CommandFrames : Prop :=
  ∀ (i : Instr) (s t : State), exec i s = .next t →
    t.host = s.host ∧ t.readData = s.readData
      ∧ StreamsGoForward s t
      ∧ (i ∈ [Instr.build, .load, .release] → t.sink = s.sink)
      ∧ (i ∈ [Instr.persist, .release] → t.source = s.source)
      ∧ (i ≠ .build → t.scratch.ft = s.scratch.ft ∧ t.scratch.lcount = s.scratch.lcount ∧ t.scratch.total = s.scratch.total
          ∧ t.scratch.m = s.scratch.m)
      ∧ (i ≠ .encode → t.scratch.acc = s.scratch.acc ∧ t.scratch.nbits = s.scratch.nbits)
      ∧ (i ≠ .decode → t.scratch.dcode = s.scratch.dcode ∧ t.scratch.dlen = s.scratch.dlen
          ∧ t.scratch.trailer = s.scratch.trailer ∧ t.scratch.vbits = s.scratch.vbits)
      ∧ (i ≠ .load → i ≠ .persist → t.scratch.nrec = s.scratch.nrec)

/-- R43, R264: no command reads STATUS: the outcome of an earlier command changes nothing of what the next one does. -/
def Obligations.StatusIsNotRead : Prop :=
  ∀ (i : Instr) (s : State) (k : Kind) (d : Detail), exec i { s with kind := k, detail := d } = exec i s

/-- R46: no command observes what the scratch registers held before it: on two states that differ in them alone, the next states differ
in them at most. -/
def Obligations.ScratchIsNotObserved : Prop :=
  ∀ (i : Instr) (s : State) (sc : Scratch), ∃ t t',
    exec i s = .next t ∧ exec i { s with scratch := sc } = .next t' ∧ { t' with scratch := t.scratch } = t

/-! ### RELEASE, PERSIST, LOAD -/

/-- R232: RELEASE completes on every state: the four registers emptied, STATUS OK, the source and the sink as they were, the contents of
NODE and POOL unspecified. That every scratch register and the model's own fields stand as well is the model's choice: log entries 13,
14 and 15 (DESIGN CHOICE). -/
def Obligations.ReleaseEmptiesTheStore : Prop :=
  ∀ s : State, ∃ t, exec .release s = .next t ∧ StoreEmpty t.store ∧ EndsOk t
    ∧ t = { s with store := t.store, kind := .ok, detail := .noDetail, phase := .idle }

/-- R210, R211, R212, R213: on an available sink PERSIST ends OK and appends the number of leaves, little-endian, and one record a leaf
in collection order; without a sink it raises NO_SINK and the store is unchanged. The whole next state is given, and in it the values of
NREC and of the other scratch registers after the command, and that the model's own fields stand, are the model's choice: log entries
13, 14 and 15 (DESIGN CHOICE). -/
def Obligations.PersistWritesTheTable : Prop :=
  ∀ s : State,
    (s.sink.available = false → ∃ t, exec .persist s = .next t ∧ EndsWith .noSink t ∧ t.store = s.store)
    ∧ (s.sink.available = true → exec .persist s = .next { s with
      sink := { available := true, bytes := s.sink.bytes ++ tableSegment s.store }
      scratch := { s.scratch with nrec := BitVec.ofNat 32 s.store.leaves.length }
      kind := .ok
      detail := .noDetail
      phase := .idle })

/-- R220, R222, R223, R225: on a readable source that holds a table of at most 511 records LOAD ends OK, record k is leaf k at position
k, the summary registers are as R223 says, and the source stands at the first byte after the segment. -/
def Obligations.LoadReadsTheTable : Prop :=
  ∀ (s : State) (rs : List (Byte × Word × BitVec 8)) (rest : List Byte),
    s.source.readable = true → rs.length ≤ 511 → s.source.unread = recordSegment rs ++ rest →
    ∃ t, exec .load s = .next t ∧ EndsOk t ∧ t.store.count.val = rs.length
      ∧ (∀ k (h : k < rs.length), t.store.nodeAt (nodeId k) = recordLeaf rs[k] ∧ t.store.poolAt k = nodeId k)
      ∧ t.store.root = none ∧ t.store.byteCount = 0 ∧ t.store.maxFreq = 0
      ∧ t.source.unread = rest ∧ t.source.pos = s.source.pos + (4 + 6 * rs.length)

/-- R221: the three checks of LOAD, each leaving the store empty (R262), and what it accepts: every count up to 511 whose records are
there. -/
def Obligations.LoadRefusesBadTables : Prop :=
  ∀ s : State, s.source.readable = true →
    (s.source.unread.length < 4 → ∃ t, exec .load s = .next t ∧ EndsWith .shortTable t ∧ StoreEmpty t.store)
    ∧ ∀ b0 b1 b2 b3 records, s.source.unread = b0 :: b1 :: b2 :: b3 :: records →
      (511 < (word32 b0 b1 b2 b3).toNat → ∃ t, exec .load s = .next t ∧ EndsWith .tableTooBig t ∧ StoreEmpty t.store)
      ∧ ((word32 b0 b1 b2 b3).toNat ≤ 511 → records.length < 6 * (word32 b0 b1 b2 b3).toNat →
          ∃ t, exec .load s = .next t ∧ EndsWith .shortTable t ∧ StoreEmpty t.store)
      ∧ ((word32 b0 b1 b2 b3).toNat ≤ 511 → 6 * (word32 b0 b1 b2 b3).toNat ≤ records.length →
          ∃ t, exec .load s = .next t ∧ EndsOk t ∧ t.store.count.val = (word32 b0 b1 b2 b3).toNat)

/-- R214: PERSIST after a LOAD that ended OK writes back, byte for byte, the segment that was read. -/
def Obligations.PersistAfterLoadReproduces : Prop :=
  ∀ s t : State, exec .load s = .next t → t.kind = .ok →
    ∃ u, exec .persist (withStreams [] t) = .next u ∧ EndsOk u
      ∧ u.sink.bytes = s.source.unread.take (4 + 6 * t.store.count.val)

/-- R226: on the table that PERSIST wrote and LOAD read back both lookups return what they returned before: the same code for every byte
value, the same byte value for every pair. -/
def Obligations.RestoredTableLooksUpAlike : Prop :=
  ∀ s : State, ∃ t u, exec .persist (withStreams [] s) = .next t ∧ EndsOk t
    ∧ exec .load (withStreams t.sink.bytes t) = .next u ∧ EndsOk u
    ∧ (∀ v, codeOf u.store v = codeOf s.store v)
    ∧ ∀ c n, u.store.lookupCode c n = s.store.lookupCode c n

/-! ### The lookups -/

/-- R161, R164: `LookupValue` finds the leaf with the byte value at the lowest position, and is absent when no position has one. -/
def Obligations.LookupValueFindsTheFirst : Prop :=
  ∀ (st : Store) (v : Byte),
    (∀ i, st.lookupValue v = some i ↔ ∃ p, p < st.count.val ∧ st.poolAt p = i ∧ st.isLeaf i = true ∧ (st.nodeAt i).value = v
        ∧ ∀ q, q < p → ¬ (st.isLeaf (st.poolAt q) = true ∧ (st.nodeAt (st.poolAt q)).value = v))
    ∧ (st.lookupValue v = none ↔
        ∀ p, p < st.count.val → ¬ (st.isLeaf (st.poolAt p) = true ∧ (st.nodeAt (st.poolAt p)).value = v))

/-- R162, R164: `LookupCode` gives the byte value of the leaf with the pair at the lowest position, and is absent when no position has
one. -/
def Obligations.LookupCodeFindsTheFirst : Prop :=
  ∀ (st : Store) (c : Word) (n : Nat),
    (∀ v, st.lookupCode c n = some v ↔ ∃ p, p < st.count.val ∧ st.isLeaf (st.poolAt p) = true
        ∧ (st.nodeAt (st.poolAt p)).code = c ∧ (st.nodeAt (st.poolAt p)).codeLength.toNat = n
        ∧ (st.nodeAt (st.poolAt p)).value = v
        ∧ ∀ q, q < p → ¬ (st.isLeaf (st.poolAt q) = true ∧ (st.nodeAt (st.poolAt q)).code = c
            ∧ (st.nodeAt (st.poolAt q)).codeLength.toNat = n))
    ∧ (st.lookupCode c n = none ↔
        ∀ p, p < st.count.val → ¬ (st.isLeaf (st.poolAt p) = true ∧ (st.nodeAt (st.poolAt p)).code = c
            ∧ (st.nodeAt (st.poolAt p)).codeLength.toNat = n))

/-! ### BUILD -/

/-- R120, R122, R127: the frequency pass over at most 2^32 - 1 bytes: for every byte value whether it was seen and how often, the number
of values seen, the number of bytes; the store is not touched. -/
def Obligations.FrequencyPassCounts : Prop :=
  ∀ (s : State) (input : List Byte), input.length ≤ 2 ^ 32 - 1 →
    ∃ t, countPass input (s.mapScratch Scratch.clearTable) = .ok t
      ∧ (∀ v, (t.scratch.ftAt v).seen = decide (v ∈ input) ∧ (t.scratch.ftAt v).frequency.toNat = input.count v)
      ∧ t.scratch.lcount.toNat = distinct input ∧ t.scratch.total.toNat = input.length
      ∧ t.source.pos = s.source.pos + input.length ∧ t.store = s.store

/-- R125, R126: BUILD of no bytes raises EmptyInput, BUILD of 2^32 or more bytes raises TOO_LONG; the store is left empty. -/
def Obligations.BuildRefusesInputLengths : Prop :=
  ∀ s : State, s.source.readable = true →
    (s.source.unread = [] → ∃ t, exec .build s = .next t ∧ EndsWith .emptyInput t ∧ StoreEmpty t.store)
    ∧ (2 ^ 32 ≤ s.source.unread.length → ∃ t, exec .build s = .next t ∧ EndsWith .tooLong t ∧ StoreEmpty t.store)

/-- R133: the stable sort rearranges the ids, ascending by frequency, ids of equal frequency in the order they had; and sorting the
positions `lo` to COUNT-1 changes no position outside them and no slot. -/
def Obligations.StableSortOfThePool : Prop :=
  ∀ (st : Store) (ids : List NodeId) (lo : Nat), lo ≤ st.count.val →
    (st.stableSort ids).Perm ids
      ∧ (st.stableSort ids).Pairwise (fun a b => (st.nodeAt a).frequency ≤ (st.nodeAt b).frequency)
      ∧ (∀ f, (st.stableSort ids).filter (fun a => (st.nodeAt a).frequency == f)
            = ids.filter (fun a => (st.nodeAt a).frequency == f))
      ∧ (st.sortFrom lo).scanFrom lo = st.stableSort (st.scanFrom lo)
      ∧ (∀ p, p < lo ∨ st.count.val ≤ p → (st.sortFrom lo).poolAt p = st.poolAt p)
      ∧ ∀ i, (st.sortFrom lo).nodeAt i = st.nodeAt i

/-- R136: on a sorted suffix the stable sort with a new node at the end is the insertion of that node after every node whose frequency is
less than or equal to its own. -/
def Obligations.SuffixSortIsInsertion : Prop :=
  ∀ (st : Store) (ids : List NodeId) (n : NodeId),
    ids.Pairwise (fun a b => (st.nodeAt a).frequency ≤ (st.nodeAt b).frequency) →
    st.stableSort (ids ++ [n])
      = ids.takeWhile (fun a => decide ((st.nodeAt a).frequency ≤ (st.nodeAt n).frequency))
        ++ n :: ids.dropWhile (fun a => decide ((st.nodeAt a).frequency ≤ (st.nodeAt n).frequency))

/-- R137, R140: in a well-formed store `PushBit` on a node is refused exactly when the node or some descendant of it has length 32 already;
otherwise the node and every descendant acquire the bit and no other node changes. On a leaf it needs no well-formed store: the bit is
shifted in at the low end and counted, or refused at length 32. -/
def Obligations.PushBitOnASubtree : Prop :=
  (∀ (st : Store) (i : NodeId) (β : Bool), StoreWf st → i.val < st.count.val →
    (pushBit Config.nodeCap β i st = none ↔ ∃ j, InSubtree st i j ∧ (st.nodeAt j).codeLength = 32)
      ∧ ∀ st', pushBit Config.nodeCap β i st = some st' → ∀ j,
        (InSubtree st i j → st'.nodeAt j = withBit β (st.nodeAt j))
          ∧ (¬ InSubtree st i j → st'.nodeAt j = st.nodeAt j))
  ∧ ∀ (st : Store) (i : NodeId) (β : Bool), st.isLeaf i = true →
    ((st.nodeAt i).codeLength = 32 → pushBit Config.nodeCap β i st = none)
      ∧ ((st.nodeAt i).codeLength ≠ 32 → ∃ st', pushBit Config.nodeCap β i st = some st'
        ∧ st'.nodeAt i = withBit β (st.nodeAt i)
        ∧ ∀ j, j ≠ i → st'.nodeAt j = st.nodeAt j)

/-- The frame of `PushBit` (R137, R21): whatever node it is called on, it changes codes and code lengths only. -/
def Obligations.PushBitChangesCodesOnly : Prop :=
  ∀ (depth : Nat) (st st' : Store) (i : NodeId) (β : Bool), pushBit depth β i st = some st' →
    st' = { st with node := st'.node }
      ∧ ∀ j, st'.nodeAt j = { st.nodeAt j with code := (st'.nodeAt j).code, codeLength := (st'.nodeAt j).codeLength }

/-- R135, R138: one pass of the loop takes the first two unmerged nodes as left and right child of a new node, whose frequency is their
sum, with id COUNT; COUNT grows by one and the merged positions are not moved. -/
def Obligations.MergeCreatesTheInternalNode : Prop :=
  ∀ (st st' : Store) (m : Nat), m + 1 < st.count.val → st.count.val < 511 → st.mergeOnce m = some st' →
    st'.count.val = st.count.val + 1
      ∧ st'.nodeAt (nodeId st.count.val) =
          { value := 0
            frequency := (st.nodeAt (st.poolAt m)).frequency + (st.nodeAt (st.poolAt (m + 1))).frequency
            code := 0
            codeLength := 0
            left := some (st.poolAt m)
            right := some (st.poolAt (m + 1)) }
      ∧ ∀ p, p < m + 2 → st'.poolAt p = st.poolAt p

/-- R148: BUILD of one byte value, repeated, ends OK with one leaf, code 0 of length 1, the root. -/
def Obligations.SingleSymbolBuild : Prop :=
  ∀ (s : State) (v : Byte) (n : Nat), s.source.readable = true → 1 ≤ n → n ≤ 2 ^ 32 - 1 →
    s.source.unread = List.replicate n v →
    ∃ t, exec .build s = .next t ∧ EndsOk t ∧ t.store.count.val = 1 ∧ t.store.root = some 0 ∧ t.store.poolAt 0 = 0
      ∧ t.store.byteCount = BitVec.ofNat 32 n ∧ t.store.maxFreq = BitVec.ofNat 32 n
      ∧ t.store.nodeAt 0 = { value := v, frequency := BitVec.ofNat 32 n, code := 0, codeLength := 1, left := none, right := none }

/-- R113 with R132, R135: BUILD of two byte values a < b gives them the codes of length 1, 0 to the less frequent one, which is the left
child, and to a where they are equally frequent. -/
def Obligations.TwoSymbolBuild : Prop :=
  ∀ (s : State) (a b : Byte), s.source.readable = true → s.source.unread.length ≤ 2 ^ 32 - 1 → a < b →
    (∀ v, v ∈ s.source.unread ↔ v = a ∨ v = b) →
    ∃ t, exec .build s = .next t ∧ EndsOk t ∧ t.store.count.val = 3 ∧ t.store.root = some 2
      ∧ (t.store.nodeAt 0).value = a ∧ (t.store.nodeAt 0).codeLength = 1
      ∧ (t.store.nodeAt 1).value = b ∧ (t.store.nodeAt 1).codeLength = 1
      ∧ (s.source.unread.count a ≤ s.source.unread.count b →
          (t.store.nodeAt 0).code = 0 ∧ (t.store.nodeAt 1).code = 1
            ∧ (t.store.nodeAt 2).left = some 0 ∧ (t.store.nodeAt 2).right = some 1)
      ∧ (s.source.unread.count b < s.source.unread.count a →
          (t.store.nodeAt 0).code = 1 ∧ (t.store.nodeAt 1).code = 0
            ∧ (t.store.nodeAt 2).left = some 1 ∧ (t.store.nodeAt 2).right = some 0)

/-- R130, R140 with R28, R71, R151: BUILD of a non-empty input of at most 2^32 - 1 bytes ends OK, with the store of R28 and the source at
its end, when the deepest leaf of its tree lies at depth 32 at most, and raises CODE_OVERFLOW, the store left empty, when it lies
deeper; with at most 33 distinct values it never lies deeper. -/
def Obligations.BuildCompletes : Prop :=
  ∀ s : State, s.source.readable = true → s.source.unread ≠ [] → s.source.unread.length ≤ 2 ^ 32 - 1 →
    (codeDepth s.source.unread ≤ 32 →
      ∃ t, exec .build s = .next t ∧ EndsOk t ∧ Built s.source.unread t.store ∧ t.source.unread = [])
    ∧ (32 < codeDepth s.source.unread → ∃ t, exec .build s = .next t ∧ EndsWith .codeOverflow t ∧ StoreEmpty t.store)
    ∧ (distinct s.source.unread ≤ 33 → codeDepth s.source.unread ≤ 32)

/-- R28, R67, R71: the store after any BUILD that ended OK, and the source at its end. -/
def Obligations.BuildLeavesTheBuiltTree : Prop :=
  ∀ s t : State, exec .build s = .next t → t.kind = .ok → Built s.source.unread t.store ∧ t.source.unread = []

/-- R145: BUILD's final checks never fail. -/
def Obligations.BuildChecksNeverFail : Prop :=
  ∀ s t : State, exec .build s = .next t → t.detail ≠ .rootMismatch ∧ t.detail ≠ .countMismatch

/-- R149: BUILD is a function of the multiset of input bytes: a permuted input gives the identical store and STATUS. -/
def Obligations.BuildIgnoresArrivalOrder : Prop :=
  ∀ (s : State) (src : Source), src.readable = s.source.readable → src.unread.Perm s.source.unread →
    ∃ t t', exec .build s = .next t ∧ exec .build { s with source := src } = .next t'
      ∧ t'.store = t.store ∧ t'.status = t.status

/-- R142, R77: in a built tree with two or more byte values, the code of every node, read from bit 0 upward, is the path from the root to
it, 0 for left and 1 for right, and no bit is set above its length. -/
def Obligations.BuiltCodesAreRootToLeafPaths : Prop :=
  ∀ s t : State, exec .build s = .next t → t.kind = .ok → 2 ≤ distinct s.source.unread →
    ∀ r, t.store.root = some r → ∀ i : NodeId, i.val < t.store.count.val →
      walk t.store r (t.store.nodeAt i).codeBits = some i
        ∧ (t.store.nodeAt i).code.toNat < 2 ^ (t.store.nodeAt i).codeLength.toNat

/-- R150: the leaves of a built tree have distinct values and prefix-free codes of 1 to 32 bits. -/
def Obligations.BuiltCodesArePrefixFree : Prop :=
  ∀ s t : State, exec .build s = .next t → t.kind = .ok → PrefixCode t.store

/-- R150, R203: with two or more byte values the built code is complete: no bit sequence whatever runs past 32 bits without a match. -/
def Obligations.BuiltCodesAreComplete : Prop :=
  ∀ s t : State, exec .build s = .next t → t.kind = .ok → 2 ≤ distinct s.source.unread →
    ∀ bits, parseBits t.store [] bits ≠ .error .codeAbsent

/-! ### ENCODE and DECODE -/

/-- R170, R172, R174, R181: on usable streams, every input byte having a leaf with a length of 1 to 32, ENCODE ends OK, appends the data
segment of the code bits in write order (R105), and leaves the source at its end and the store unchanged. -/
def Obligations.EncodeWritesTheSegment : Prop :=
  ∀ s : State, s.source.readable = true → s.sink.available = true → (∀ v ∈ s.source.unread, Encodable s.store v) →
    ∃ t, exec .encode s = .next t ∧ EndsOk t
      ∧ t.sink.bytes = s.sink.bytes ++ dataSegment (inputBits s.store s.source.unread)
      ∧ t.source.unread = [] ∧ t.store = s.store

/-- R173: ENCODE faults at the first input byte, in source order, that has no leaf (VALUE_ABSENT) or whose leaf's length is 0 or above 32
(BAD_LENGTH). -/
def Obligations.EncodeFaultsAtTheFirstBadByte : Prop :=
  ∀ (s : State) (before after : List Byte) (v : Byte),
    s.source.readable = true → s.sink.available = true → s.source.unread = before ++ v :: after →
    (∀ u ∈ before, Encodable s.store u) →
    (s.store.lookupValue v = none → ∃ t, exec .encode s = .next t ∧ EndsWith .valueAbsent t)
      ∧ ∀ i, s.store.lookupValue v = some i →
        (s.store.nodeAt i).codeLength.toNat = 0 ∨ 32 < (s.store.nodeAt i).codeLength.toNat →
        ∃ t, exec .encode s = .next t ∧ EndsWith .badLength t

/-- R192: the framing faults of DECODE, whatever the table. -/
def Obligations.DecodeChecksTheFraming : Prop :=
  ∀ s : State, s.source.readable = true → s.sink.available = true →
    (s.source.unread = [] → ∃ t, exec .decode s = .next t ∧ EndsWith .noTrailer t)
    ∧ (∀ data trailer, s.source.unread = data ++ [trailer] → 7 < trailer.toNat →
        ∃ t, exec .decode s = .next t ∧ EndsWith .badTrailer t)
    ∧ ∀ trailer, s.source.unread = [trailer] → trailer ≠ 0 → ∃ t, exec .decode s = .next t ∧ EndsWith .badTrailer t

/-- R190, R193 to R196, R200: on a well-framed segment whose valid bits parse, DECODE ends OK and appends one byte a code, in stream
order; the source is at its end. -/
def Obligations.DecodeEmitsTheParsedBytes : Prop :=
  ∀ (s : State) (data : List Byte) (trailer : Byte) (out : List Byte),
    s.source.readable = true → s.sink.available = true → s.source.unread = data ++ [trailer] → trailer.toNat ≤ 7 →
    (trailer ≠ 0 → data ≠ []) → parseBits s.store [] (segmentBits trailer data) = .ok out →
    ∃ t, exec .decode s = .next t ∧ EndsOk t ∧ t.sink.bytes = s.sink.bytes ++ out ∧ t.source.unread = []

/-- R198, R200, R203: on a well-framed segment whose valid bits do not parse, DECODE raises CODE_ABSENT where 33 bits go without a match
and PARTIAL_CODE where the bits end within a code, and no other cause. -/
def Obligations.DecodeFaultsAsTheParse : Prop :=
  ∀ (s : State) (data : List Byte) (trailer : Byte) (c : Cause),
    s.source.readable = true → s.sink.available = true → s.source.unread = data ++ [trailer] → trailer.toNat ≤ 7 →
    (trailer ≠ 0 → data ≠ []) → parseBits s.store [] (segmentBits trailer data) = .error c →
    (c = .codeAbsent ∨ c = .partialCode) ∧ ∃ t, exec .decode s = .next t ∧ EndsWith c t

/-- R196: reversing the low bits of DCODE gives the integer whose bit 0 is the bit read first, for up to 32 bits. -/
def Obligations.ReversalGivesTheStoredOrder : Prop :=
  ∀ bits : List Bool, bits.length ≤ 32 → rev bits.length (shiftedIn bits) = codeWord bits

/-- R75, R76, R194, R105: reading the valid bits of a data segment gives back the bits it was packed from; the trailer is their number
modulo 8. -/
def Obligations.SegmentUnpacksToItsBits : Prop :=
  ∀ bits : List Bool, ∃ data trailer, dataSegment bits = data ++ [trailer]
    ∧ trailer.toNat = bits.length % 8 ∧ (trailer ≠ 0 → data ≠ []) ∧ segmentBits trailer data = bits

/-- R107, R105: the number of code bits of an input is the sum of the code lengths of its bytes, and the segment has one byte for every
full 8 of them, one for a rest, and the trailer; and an ENCODE that ended OK has appended that many bytes to the sink, the last of them
the number of code bits modulo 8. -/
def Obligations.CompressionSize : Prop :=
  (∀ (st : Store) (input : List Byte),
    (inputBits st input).length = codeBitCount st input
      ∧ (dataSegment (inputBits st input)).length
        = (inputBits st input).length / 8 + (if (inputBits st input).length % 8 = 0 then 1 else 2))
  ∧ ∀ s t : State, exec .encode s = .next t → t.kind = .ok →
    t.sink.bytes.length = s.sink.bytes.length + codeBitCount s.store s.source.unread / 8
        + (if codeBitCount s.store s.source.unread % 8 = 0 then 1 else 2)
      ∧ t.sink.bytes.getLast? = some (BitVec.ofNat 8 (codeBitCount s.store s.source.unread % 8))

/-! ### Round trips -/

/-- With a decodable table, decoding what ENCODE wrote gives the input back (R201, R174, R193 to R196). -/
def Obligations.DecodableTableRoundTrip : Prop :=
  ∀ (s : State) (input : List Byte), PrefixCode s.store → (∀ v ∈ input, Encodable s.store v) →
    ∃ t u, exec .encode (withStreams input s) = .next t ∧ EndsOk t
      ∧ exec .decode (withStreams t.sink.bytes t) = .next u ∧ EndsOk u ∧ u.sink.bytes = input

/-- R201, R255 on a built tree: after a BUILD of the input that ended OK, ENCODE of it ends OK and DECODE of what it wrote gives the input
back. -/
def Obligations.BuiltTreeRoundTrip : Prop :=
  ∀ (s b : State) (input : List Byte), exec .build (withStreams input s) = .next b → b.kind = .ok →
    ∃ t u, exec .encode (withStreams input b) = .next t ∧ EndsOk t
      ∧ exec .decode (withStreams t.sink.bytes t) = .next u ∧ EndsOk u ∧ u.sink.bytes = input

/-- R201, R108, R116 on the persisted and restored copy: whenever BUILD of the input ends OK, COMPRESS completes, and DECOMPRESS of the
artifact, from any state, completes and gives the input back. -/
def Obligations.ArtifactRoundTrip : Prop :=
  ∀ (s b r : State) (input : List Byte), exec .build (withStreams input s) = .next b → b.kind = .ok →
    ∃ t u, compress input s = some t ∧ decompress t.sink.bytes r = some u ∧ u.sink.bytes = input
end

