-- ==== Sys2Proof/Laws/Ram.lean ====
section
/-! SUPPORT. The laws of the RAMs: a read after a write, and that every operation over a RAM keeps its canonical form. -/

namespace Sys2Proof.Machine

variable {α : Type}

@[simp] theorem Ram.read_nil (i : Nat) : Ram.read ([] : Ram α) i = none := rfl

/-- A read after a write: the entry written at its index, what stood there at every other. -/
theorem Ram.read_write (m : Ram α) (i j : Nat) (x : α) :
    (m.write i x).read j = if j = i then some x else m.read j := by
  induction m with
  | nil => simp [Ram.write, Ram.read, eq_comm]
  | cons e m ih =>
    obtain ⟨a, y⟩ := e
    simp only [Ram.write]
    split
    · simp [Ram.read, eq_comm]
    · split
      · subst_vars
        simp only [Ram.read]
        split <;> simp_all [eq_comm]
      · rename_i hlt hne
        simp only [Ram.read, ih]
        split
        · subst_vars
          rw [if_neg fun h => hne h.symm]
        · rfl

@[simp] theorem Ram.read_write_same (m : Ram α) (i : Nat) (x : α) : (m.write i x).read i = some x := by
  simp [Ram.read_write]

theorem Ram.read_write_other (m : Ram α) {i j : Nat} (x : α) (h : j ≠ i) : (m.write i x).read j = m.read j := by
  simp [Ram.read_write, h]

/-- The canonical form says that the indices rise strictly and stay below the size. -/
theorem Ram.wf_iff (size : Nat) (m : Ram α) :
    Ram.wf size m = true ↔ (m.map Prod.fst).Pairwise (· < ·) ∧ ∀ a ∈ m.map Prod.fst, a < size := by
  induction m with
  | nil => simp [Ram.wf]
  | cons e m ih =>
    cases m with
    | nil => simp [Ram.wf]
    | cons e' m =>
      simp only [Ram.wf, Bool.and_eq_true, decide_eq_true_eq, ih]
      simp only [List.map_cons, List.pairwise_cons, List.mem_cons]
      constructor
      · rintro ⟨h, ⟨hp, hq⟩, hs⟩
        have hlt : ∀ a ∈ List.map Prod.fst m, e.1 < a := fun a ha => lt_trans h (hp a ha)
        refine ⟨⟨?_, hp, hq⟩, ?_⟩
        · rintro a (rfl | ha)
          · exact h
          · exact hlt a ha
        · rintro a (rfl | ha)
          · exact lt_trans h (hs _ (.inl rfl))
          · exact hs a ha
      · rintro ⟨⟨h, hp, hq⟩, hs⟩
        exact ⟨h _ (.inl rfl), ⟨hp, hq⟩, fun a ha => hs a (.inr ha)⟩

theorem Ram.fst_write_subset (m : Ram α) (i : Nat) (x : α) :
    ∀ a ∈ (m.write i x).map Prod.fst, a = i ∨ a ∈ m.map Prod.fst := by
  induction m with
  | nil => simp [Ram.write]
  | cons e m ih =>
    obtain ⟨b, y⟩ := e
    simp only [Ram.write]
    intro a ha
    split at ha
    · simpa using ha
    · split at ha
      · simp only [List.map_cons, List.mem_cons] at ha ⊢
        tauto
      · simp only [List.map_cons, List.mem_cons] at ha ⊢
        rcases ha with h | h
        · exact .inr (.inl h)
        · rcases ih a h with h | h
          · exact .inl h
          · exact .inr (.inr h)

/-- A write below the size keeps the canonical form. -/
theorem Ram.wf_write {size i : Nat} (m : Ram α) (x : α) (h : Ram.wf size m = true) (hi : i < size) :
    Ram.wf size (m.write i x) = true := by
  rw [Ram.wf_iff] at *
  refine ⟨?_, ?_⟩
  · have hp := h.1
    clear h
    induction m with
    | nil => simp [Ram.write]
    | cons e m ih =>
      obtain ⟨b, y⟩ := e
      simp only [List.map_cons, List.pairwise_cons] at hp
      simp only [Ram.write]
      split
      · rename_i hib
        simp only [List.map_cons, List.pairwise_cons, List.mem_cons]
        refine ⟨?_, hp⟩
        rintro a (rfl | ha)
        · exact hib
        · exact lt_trans hib (hp.1 a ha)
      · split
        · subst_vars
          simpa using hp
        · simp only [List.map_cons, List.pairwise_cons]
          refine ⟨?_, ih hp.2⟩
          intro a ha
          rcases Ram.fst_write_subset m i x a ha with rfl | ha
          · omega
          · exact hp.1 a ha
  · intro a ha
    rcases Ram.fst_write_subset m i x a ha with rfl | ha
    · exact hi
    · exact h.2 a ha

/-- A write of consecutive entries below the size keeps the canonical form. -/
theorem Ram.wf_writeFrom {size : Nat} (xs : List α) (m : Ram α) (i : Nat) (h : Ram.wf size m = true)
    (hi : i + xs.length ≤ size) : Ram.wf size (m.writeFrom i xs) = true := by
  induction xs generalizing m i with
  | nil => exact h
  | cons x xs ih =>
    simp only [List.length_cons] at hi
    exact ih _ _ (Ram.wf_write m x h (by omega)) (by omega)

/-- A read after a write of consecutive entries. -/
theorem Ram.read_writeFrom (xs : List α) (m : Ram α) (i j : Nat) :
    (m.writeFrom i xs).read j = if i ≤ j ∧ j < i + xs.length then xs[j - i]? else m.read j := by
  induction xs generalizing m i with
  | nil =>
    have : ¬ (i ≤ j ∧ j < i) := by omega
    simp [Ram.writeFrom, this]
  | cons x xs ih =>
    simp only [Ram.writeFrom, ih, List.length_cons, Ram.read_write]
    by_cases h0 : j = i
    · subst h0; simp
    · by_cases h1 : i + 1 ≤ j ∧ j < i + 1 + xs.length
      · have h2 : i ≤ j ∧ j < i + (xs.length + 1) := by omega
        rw [if_pos h1, if_pos h2]
        obtain ⟨k, rfl⟩ : ∃ k, j = i + 1 + k := ⟨j - (i + 1), by omega⟩
        have e1 : i + 1 + k - (i + 1) = k := by omega
        have e2 : i + 1 + k - i = k + 1 := by omega
        rw [e1, e2]
        simp
      · have h2 : ¬ (i ≤ j ∧ j < i + (xs.length + 1)) := by omega
        rw [if_neg h1, if_neg h2, if_neg h0]

/-! ### The canonical form of the three RAMs under the operations of the block -/

/-- NODE and POOL have their canonical forms. -/
abbrev Store.ramsWf (st : Store) : Prop := Ram.wf Config.nodeCap st.node = true ∧ Ram.wf Config.nodeCap st.pool = true

theorem reset_memory_wf : Memory.wf State.reset = true := by decide

theorem Store.ramsWf_release (st : Store) : st.release.ramsWf := ⟨rfl, rfl⟩

theorem Store.ramsWf_setNode {st : Store} (h : st.ramsWf) (i : NodeId) (n : Node) : (st.setNode i n).ramsWf :=
  ⟨Ram.wf_write _ _ h.1 i.isLt, h.2⟩

theorem Store.ramsWf_addNode {st : Store} (h : st.ramsWf) (hc : st.count.val < 511) (n : Node) : (st.addNode n).ramsWf :=
  ⟨Ram.wf_write _ _ h.1 hc, Ram.wf_write _ _ h.2 hc⟩

theorem Store.ramsWf_putRecord {st : Store} (h : st.ramsWf) {k : Nat} (hk : k < 511) (v : Byte) (c : Word) (l : BitVec 8) :
    (st.putRecord k v c l).ramsWf :=
  ⟨Ram.wf_write _ _ h.1 hk, Ram.wf_write _ _ h.2 hk⟩

theorem Store.length_scanFrom (st : Store) (lo : Nat) : (st.scanFrom lo).length = st.count.val - lo := by
  simp [Store.scanFrom]

theorem Store.ramsWf_sortFrom {st : Store} (h : st.ramsWf) {lo : Nat} (hlo : lo ≤ st.count.val) : (st.sortFrom lo).ramsWf := by
  refine ⟨h.1, Ram.wf_writeFrom _ _ _ h.2 ?_⟩
  have hc := st.count.isLt
  simp only [Store.stableSort, List.length_insertionSort, Store.length_scanFrom, Config.nodeCap]
  omega

theorem Scratch.ftWf_clearTable (sc : Scratch) : Ram.wf Config.symbols sc.clearTable.ft = true := by
  rw [Ram.wf_iff]
  refine ⟨?_, ?_⟩
  · simpa [Scratch.clearTable, Function.comp_def] using List.pairwise_lt_range
  · simp [Scratch.clearTable]

theorem Scratch.ftWf_countByte {sc : Scratch} (h : Ram.wf Config.symbols sc.ft = true) (v : Byte) :
    Ram.wf Config.symbols (sc.countByte v).ft = true :=
  Ram.wf_write _ _ h v.isLt

end Sys2Proof.Machine
end

