-- ==== Sys2Proof/Laws/State.lean ====
section
/-! SUPPORT. One lemma per field per update of the machine's state and of the tree store, each true by unfolding, so that no later proof
unfolds a record update. -/

namespace Sys2Proof.Machine

@[simp] theorem State.srcSkip_store (s : State) (n : Nat) : (s.srcSkip n).store = s.store := rfl
@[simp] theorem State.srcSkip_scratch (s : State) (n : Nat) : (s.srcSkip n).scratch = s.scratch := rfl
@[simp] theorem State.srcSkip_kind (s : State) (n : Nat) : (s.srcSkip n).kind = s.kind := rfl
@[simp] theorem State.srcSkip_detail (s : State) (n : Nat) : (s.srcSkip n).detail = s.detail := rfl
@[simp] theorem State.srcSkip_phase (s : State) (n : Nat) : (s.srcSkip n).phase = s.phase := rfl
@[simp] theorem State.srcSkip_source (s : State) (n : Nat) : (s.srcSkip n).source = s.source.skip n := rfl
@[simp] theorem State.srcSkip_sink (s : State) (n : Nat) : (s.srcSkip n).sink = s.sink := rfl
@[simp] theorem State.srcSkip_host (s : State) (n : Nat) : (s.srcSkip n).host = s.host := rfl
@[simp] theorem State.srcSkip_readData (s : State) (n : Nat) : (s.srcSkip n).readData = s.readData := rfl
@[simp] theorem State.srcSkip_draws (s : State) (n : Nat) : (s.srcSkip n).draws = s.draws := rfl

@[simp] theorem State.sinkByte_store (s : State) (v : Byte) : (s.sinkByte v).store = s.store := rfl
@[simp] theorem State.sinkByte_scratch (s : State) (v : Byte) : (s.sinkByte v).scratch = s.scratch := rfl
@[simp] theorem State.sinkByte_kind (s : State) (v : Byte) : (s.sinkByte v).kind = s.kind := rfl
@[simp] theorem State.sinkByte_detail (s : State) (v : Byte) : (s.sinkByte v).detail = s.detail := rfl
@[simp] theorem State.sinkByte_phase (s : State) (v : Byte) : (s.sinkByte v).phase = s.phase := rfl
@[simp] theorem State.sinkByte_source (s : State) (v : Byte) : (s.sinkByte v).source = s.source := rfl
@[simp] theorem State.sinkByte_sink (s : State) (v : Byte) : (s.sinkByte v).sink = s.sink.push v := rfl
@[simp] theorem State.sinkByte_host (s : State) (v : Byte) : (s.sinkByte v).host = s.host := rfl
@[simp] theorem State.sinkByte_readData (s : State) (v : Byte) : (s.sinkByte v).readData = s.readData := rfl
@[simp] theorem State.sinkByte_draws (s : State) (v : Byte) : (s.sinkByte v).draws = s.draws := rfl

@[simp] theorem State.releaseStore_store (s : State) : (s.releaseStore).store = s.store.release := rfl
@[simp] theorem State.releaseStore_scratch (s : State) : (s.releaseStore).scratch = s.scratch := rfl
@[simp] theorem State.releaseStore_kind (s : State) : (s.releaseStore).kind = s.kind := rfl
@[simp] theorem State.releaseStore_detail (s : State) : (s.releaseStore).detail = s.detail := rfl
@[simp] theorem State.releaseStore_phase (s : State) : (s.releaseStore).phase = s.phase := rfl
@[simp] theorem State.releaseStore_source (s : State) : (s.releaseStore).source = s.source := rfl
@[simp] theorem State.releaseStore_sink (s : State) : (s.releaseStore).sink = s.sink := rfl
@[simp] theorem State.releaseStore_host (s : State) : (s.releaseStore).host = s.host := rfl
@[simp] theorem State.releaseStore_readData (s : State) : (s.releaseStore).readData = s.readData := rfl
@[simp] theorem State.releaseStore_draws (s : State) : (s.releaseStore).draws = s.draws := rfl

@[simp] theorem State.setPhase_store (s : State) (p : Phase) : (s.setPhase p).store = s.store := rfl
@[simp] theorem State.setPhase_scratch (s : State) (p : Phase) : (s.setPhase p).scratch = s.scratch := rfl
@[simp] theorem State.setPhase_kind (s : State) (p : Phase) : (s.setPhase p).kind = s.kind := rfl
@[simp] theorem State.setPhase_detail (s : State) (p : Phase) : (s.setPhase p).detail = s.detail := rfl
@[simp] theorem State.setPhase_phase (s : State) (p : Phase) : (s.setPhase p).phase = p := rfl
@[simp] theorem State.setPhase_source (s : State) (p : Phase) : (s.setPhase p).source = s.source := rfl
@[simp] theorem State.setPhase_sink (s : State) (p : Phase) : (s.setPhase p).sink = s.sink := rfl
@[simp] theorem State.setPhase_host (s : State) (p : Phase) : (s.setPhase p).host = s.host := rfl
@[simp] theorem State.setPhase_readData (s : State) (p : Phase) : (s.setPhase p).readData = s.readData := rfl
@[simp] theorem State.setPhase_draws (s : State) (p : Phase) : (s.setPhase p).draws = s.draws := rfl

@[simp] theorem State.mapStore_store (s : State) (f : Store → Store) : (s.mapStore f).store = f s.store := rfl
@[simp] theorem State.mapStore_scratch (s : State) (f : Store → Store) : (s.mapStore f).scratch = s.scratch := rfl
@[simp] theorem State.mapStore_kind (s : State) (f : Store → Store) : (s.mapStore f).kind = s.kind := rfl
@[simp] theorem State.mapStore_detail (s : State) (f : Store → Store) : (s.mapStore f).detail = s.detail := rfl
@[simp] theorem State.mapStore_phase (s : State) (f : Store → Store) : (s.mapStore f).phase = s.phase := rfl
@[simp] theorem State.mapStore_source (s : State) (f : Store → Store) : (s.mapStore f).source = s.source := rfl
@[simp] theorem State.mapStore_sink (s : State) (f : Store → Store) : (s.mapStore f).sink = s.sink := rfl
@[simp] theorem State.mapStore_host (s : State) (f : Store → Store) : (s.mapStore f).host = s.host := rfl
@[simp] theorem State.mapStore_readData (s : State) (f : Store → Store) : (s.mapStore f).readData = s.readData := rfl
@[simp] theorem State.mapStore_draws (s : State) (f : Store → Store) : (s.mapStore f).draws = s.draws := rfl

@[simp] theorem State.mapScratch_store (s : State) (f : Scratch → Scratch) : (s.mapScratch f).store = s.store := rfl
@[simp] theorem State.mapScratch_scratch (s : State) (f : Scratch → Scratch) : (s.mapScratch f).scratch = f s.scratch := rfl
@[simp] theorem State.mapScratch_kind (s : State) (f : Scratch → Scratch) : (s.mapScratch f).kind = s.kind := rfl
@[simp] theorem State.mapScratch_detail (s : State) (f : Scratch → Scratch) : (s.mapScratch f).detail = s.detail := rfl
@[simp] theorem State.mapScratch_phase (s : State) (f : Scratch → Scratch) : (s.mapScratch f).phase = s.phase := rfl
@[simp] theorem State.mapScratch_source (s : State) (f : Scratch → Scratch) : (s.mapScratch f).source = s.source := rfl
@[simp] theorem State.mapScratch_sink (s : State) (f : Scratch → Scratch) : (s.mapScratch f).sink = s.sink := rfl
@[simp] theorem State.mapScratch_host (s : State) (f : Scratch → Scratch) : (s.mapScratch f).host = s.host := rfl
@[simp] theorem State.mapScratch_readData (s : State) (f : Scratch → Scratch) : (s.mapScratch f).readData = s.readData := rfl
@[simp] theorem State.mapScratch_draws (s : State) (f : Scratch → Scratch) : (s.mapScratch f).draws = s.draws := rfl

@[simp] theorem State.finish_store (s : State) : (s.finish).store = s.store := rfl
@[simp] theorem State.finish_scratch (s : State) : (s.finish).scratch = s.scratch := rfl
@[simp] theorem State.finish_kind (s : State) : (s.finish).kind = .ok := rfl
@[simp] theorem State.finish_detail (s : State) : (s.finish).detail = .noDetail := rfl
@[simp] theorem State.finish_phase (s : State) : (s.finish).phase = .idle := rfl
@[simp] theorem State.finish_source (s : State) : (s.finish).source = s.source := rfl
@[simp] theorem State.finish_sink (s : State) : (s.finish).sink = s.sink := rfl
@[simp] theorem State.finish_host (s : State) : (s.finish).host = s.host := rfl
@[simp] theorem State.finish_readData (s : State) : (s.finish).readData = s.readData := rfl
@[simp] theorem State.finish_draws (s : State) : (s.finish).draws = s.draws := rfl

@[simp] theorem raise_store (i : Instr) (c : Cause) (s₀ s : State) : (raise i c s₀ s).store = (if emptiesStore i then s.store.release else s.store) := rfl
@[simp] theorem raise_scratch (i : Instr) (c : Cause) (s₀ s : State) : (raise i c s₀ s).scratch = s.scratch := rfl
@[simp] theorem raise_kind (i : Instr) (c : Cause) (s₀ s : State) : (raise i c s₀ s).kind = c.kind := rfl
@[simp] theorem raise_detail (i : Instr) (c : Cause) (s₀ s : State) : (raise i c s₀ s).detail = c.detail := rfl
@[simp] theorem raise_phase (i : Instr) (c : Cause) (s₀ s : State) : (raise i c s₀ s).phase = .idle := rfl
@[simp] theorem raise_source (i : Instr) (c : Cause) (s₀ s : State) : (raise i c s₀ s).source = cutSource i s₀.draws s₀.source := rfl
@[simp] theorem raise_sink (i : Instr) (c : Cause) (s₀ s : State) : (raise i c s₀ s).sink = cutSink i s₀.draws s₀.sink := rfl
@[simp] theorem raise_host (i : Instr) (c : Cause) (s₀ s : State) : (raise i c s₀ s).host = s.host := rfl
@[simp] theorem raise_readData (i : Instr) (c : Cause) (s₀ s : State) : (raise i c s₀ s).readData = s.readData := rfl
@[simp] theorem raise_draws (i : Instr) (c : Cause) (s₀ s : State) : (raise i c s₀ s).draws = s₀.draws + 1 := rfl

@[simp] theorem illegalCommand_store (s : State) : (illegalCommand s).store = s.store := rfl
@[simp] theorem illegalCommand_scratch (s : State) : (illegalCommand s).scratch = s.scratch := rfl
@[simp] theorem illegalCommand_kind (s : State) : (illegalCommand s).kind = .illegalCommand := rfl
@[simp] theorem illegalCommand_detail (s : State) : (illegalCommand s).detail = .badCommand := rfl
@[simp] theorem illegalCommand_phase (s : State) : (illegalCommand s).phase = s.phase := rfl
@[simp] theorem illegalCommand_source (s : State) : (illegalCommand s).source = s.source := rfl
@[simp] theorem illegalCommand_sink (s : State) : (illegalCommand s).sink = s.sink := rfl
@[simp] theorem illegalCommand_host (s : State) : (illegalCommand s).host = s.host := rfl
@[simp] theorem illegalCommand_readData (s : State) : (illegalCommand s).readData = s.readData := rfl
@[simp] theorem illegalCommand_draws (s : State) : (illegalCommand s).draws = s.draws := rfl

@[simp] theorem State.cutStreams_store (c : Option Instr) (s : State) : (s.cutStreams c).store = s.store := by cases c <;> rfl
@[simp] theorem State.cutStreams_scratch (c : Option Instr) (s : State) : (s.cutStreams c).scratch = s.scratch := by cases c <;> rfl
@[simp] theorem State.cutStreams_kind (c : Option Instr) (s : State) : (s.cutStreams c).kind = s.kind := by cases c <;> rfl
@[simp] theorem State.cutStreams_detail (c : Option Instr) (s : State) : (s.cutStreams c).detail = s.detail := by cases c <;> rfl
@[simp] theorem State.cutStreams_phase (c : Option Instr) (s : State) : (s.cutStreams c).phase = s.phase := by cases c <;> rfl
@[simp] theorem State.cutStreams_host (c : Option Instr) (s : State) : (s.cutStreams c).host = s.host := by cases c <;> rfl
@[simp] theorem State.cutStreams_readData (c : Option Instr) (s : State) : (s.cutStreams c).readData = s.readData := by cases c <;> rfl
@[simp] theorem State.cutStreams_none (s : State) : s.cutStreams none = s := rfl

@[simp] theorem resetBlock_store (s : State) : (resetBlock s).store = s.store.release := rfl
@[simp] theorem resetBlock_scratch (s : State) : (resetBlock s).scratch = Scratch.reset := rfl
@[simp] theorem resetBlock_kind (s : State) : (resetBlock s).kind = .ok := rfl
@[simp] theorem resetBlock_detail (s : State) : (resetBlock s).detail = .noDetail := rfl
@[simp] theorem resetBlock_phase (s : State) : (resetBlock s).phase = .idle := rfl
@[simp] theorem resetBlock_source (s : State) : (resetBlock s).source = s.source := rfl
@[simp] theorem resetBlock_sink (s : State) : (resetBlock s).sink = s.sink := rfl
@[simp] theorem resetBlock_host (s : State) : (resetBlock s).host = s.host := rfl
@[simp] theorem resetBlock_readData (s : State) : (resetBlock s).readData = s.readData := rfl
@[simp] theorem resetBlock_draws (s : State) : (resetBlock s).draws = s.draws := rfl

@[simp] theorem Store.setNode_node (st : Store) (i : NodeId) (n : Node) : (st.setNode i n).node = st.node.write i.val n := rfl
@[simp] theorem Store.setNode_pool (st : Store) (i : NodeId) (n : Node) : (st.setNode i n).pool = st.pool := rfl
@[simp] theorem Store.setNode_count (st : Store) (i : NodeId) (n : Node) : (st.setNode i n).count = st.count := rfl
@[simp] theorem Store.setNode_byteCount (st : Store) (i : NodeId) (n : Node) : (st.setNode i n).byteCount = st.byteCount := rfl
@[simp] theorem Store.setNode_maxFreq (st : Store) (i : NodeId) (n : Node) : (st.setNode i n).maxFreq = st.maxFreq := rfl
@[simp] theorem Store.setNode_root (st : Store) (i : NodeId) (n : Node) : (st.setNode i n).root = st.root := rfl
@[simp] theorem Store.setNode_epoch (st : Store) (i : NodeId) (n : Node) : (st.setNode i n).epoch = st.epoch := rfl

@[simp] theorem Store.addNode_node (st : Store) (n : Node) : (st.addNode n).node = st.node.write st.count.val n := rfl
@[simp] theorem Store.addNode_pool (st : Store) (n : Node) : (st.addNode n).pool = st.pool.write st.count.val (nodeId st.count.val) := rfl
@[simp] theorem Store.addNode_count (st : Store) (n : Node) : (st.addNode n).count = st.count + 1 := rfl
@[simp] theorem Store.addNode_byteCount (st : Store) (n : Node) : (st.addNode n).byteCount = st.byteCount := rfl
@[simp] theorem Store.addNode_maxFreq (st : Store) (n : Node) : (st.addNode n).maxFreq = st.maxFreq := rfl
@[simp] theorem Store.addNode_root (st : Store) (n : Node) : (st.addNode n).root = st.root := rfl
@[simp] theorem Store.addNode_epoch (st : Store) (n : Node) : (st.addNode n).epoch = st.epoch := rfl

@[simp] theorem Store.release_node (st : Store) : (st.release).node = [] := rfl
@[simp] theorem Store.release_pool (st : Store) : (st.release).pool = [] := rfl
@[simp] theorem Store.release_count (st : Store) : (st.release).count = 0 := rfl
@[simp] theorem Store.release_byteCount (st : Store) : (st.release).byteCount = 0 := rfl
@[simp] theorem Store.release_maxFreq (st : Store) : (st.release).maxFreq = 0 := rfl
@[simp] theorem Store.release_root (st : Store) : (st.release).root = none := rfl
@[simp] theorem Store.release_epoch (st : Store) : (st.release).epoch = st.epoch + 1 := rfl

@[simp] theorem Store.sortFrom_node (st : Store) (lo : Nat) : (st.sortFrom lo).node = st.node := rfl
@[simp] theorem Store.sortFrom_pool (st : Store) (lo : Nat) : (st.sortFrom lo).pool = st.pool.writeFrom lo (st.stableSort (st.scanFrom lo)) := rfl
@[simp] theorem Store.sortFrom_count (st : Store) (lo : Nat) : (st.sortFrom lo).count = st.count := rfl
@[simp] theorem Store.sortFrom_byteCount (st : Store) (lo : Nat) : (st.sortFrom lo).byteCount = st.byteCount := rfl
@[simp] theorem Store.sortFrom_maxFreq (st : Store) (lo : Nat) : (st.sortFrom lo).maxFreq = st.maxFreq := rfl
@[simp] theorem Store.sortFrom_root (st : Store) (lo : Nat) : (st.sortFrom lo).root = st.root := rfl
@[simp] theorem Store.sortFrom_epoch (st : Store) (lo : Nat) : (st.sortFrom lo).epoch = st.epoch := rfl

@[simp] theorem Store.closeTable_node (st : Store) (n : Nat) : (st.closeTable n).node = st.node := rfl
@[simp] theorem Store.closeTable_pool (st : Store) (n : Nat) : (st.closeTable n).pool = st.pool := rfl
@[simp] theorem Store.closeTable_count (st : Store) (n : Nat) : (st.closeTable n).count = Fin.ofNat 512 n := rfl
@[simp] theorem Store.closeTable_byteCount (st : Store) (n : Nat) : (st.closeTable n).byteCount = 0 := rfl
@[simp] theorem Store.closeTable_maxFreq (st : Store) (n : Nat) : (st.closeTable n).maxFreq = 0 := rfl
@[simp] theorem Store.closeTable_root (st : Store) (n : Nat) : (st.closeTable n).root = none := rfl
@[simp] theorem Store.closeTable_epoch (st : Store) (n : Nat) : (st.closeTable n).epoch = st.epoch := rfl

@[simp] theorem Scratch.resetAcc_ft (sc : Scratch) : (sc.resetAcc).ft = sc.ft := rfl
@[simp] theorem Scratch.resetAcc_lcount (sc : Scratch) : (sc.resetAcc).lcount = sc.lcount := rfl
@[simp] theorem Scratch.resetAcc_total (sc : Scratch) : (sc.resetAcc).total = sc.total := rfl
@[simp] theorem Scratch.resetAcc_m (sc : Scratch) : (sc.resetAcc).m = sc.m := rfl
@[simp] theorem Scratch.resetAcc_acc (sc : Scratch) : (sc.resetAcc).acc = 0 := rfl
@[simp] theorem Scratch.resetAcc_nbits (sc : Scratch) : (sc.resetAcc).nbits = 0 := rfl
@[simp] theorem Scratch.resetAcc_dcode (sc : Scratch) : (sc.resetAcc).dcode = sc.dcode := rfl
@[simp] theorem Scratch.resetAcc_dlen (sc : Scratch) : (sc.resetAcc).dlen = sc.dlen := rfl
@[simp] theorem Scratch.resetAcc_trailer (sc : Scratch) : (sc.resetAcc).trailer = sc.trailer := rfl
@[simp] theorem Scratch.resetAcc_vbits (sc : Scratch) : (sc.resetAcc).vbits = sc.vbits := rfl
@[simp] theorem Scratch.resetAcc_nrec (sc : Scratch) : (sc.resetAcc).nrec = sc.nrec := rfl

@[simp] theorem Scratch.shiftAcc_ft (sc : Scratch) (β : Bool) : (sc.shiftAcc β).ft = sc.ft := rfl
@[simp] theorem Scratch.shiftAcc_lcount (sc : Scratch) (β : Bool) : (sc.shiftAcc β).lcount = sc.lcount := rfl
@[simp] theorem Scratch.shiftAcc_total (sc : Scratch) (β : Bool) : (sc.shiftAcc β).total = sc.total := rfl
@[simp] theorem Scratch.shiftAcc_m (sc : Scratch) (β : Bool) : (sc.shiftAcc β).m = sc.m := rfl
@[simp] theorem Scratch.shiftAcc_acc (sc : Scratch) (β : Bool) : (sc.shiftAcc β).acc = (sc.acc >>> 1) ||| (BitVec.zeroExtend 8 (BitVec.ofBool β) <<< 7) := rfl
@[simp] theorem Scratch.shiftAcc_nbits (sc : Scratch) (β : Bool) : (sc.shiftAcc β).nbits = sc.nbits + 1 := rfl
@[simp] theorem Scratch.shiftAcc_dcode (sc : Scratch) (β : Bool) : (sc.shiftAcc β).dcode = sc.dcode := rfl
@[simp] theorem Scratch.shiftAcc_dlen (sc : Scratch) (β : Bool) : (sc.shiftAcc β).dlen = sc.dlen := rfl
@[simp] theorem Scratch.shiftAcc_trailer (sc : Scratch) (β : Bool) : (sc.shiftAcc β).trailer = sc.trailer := rfl
@[simp] theorem Scratch.shiftAcc_vbits (sc : Scratch) (β : Bool) : (sc.shiftAcc β).vbits = sc.vbits := rfl
@[simp] theorem Scratch.shiftAcc_nrec (sc : Scratch) (β : Bool) : (sc.shiftAcc β).nrec = sc.nrec := rfl

@[simp] theorem Scratch.resetDcode_ft (sc : Scratch) : (sc.resetDcode).ft = sc.ft := rfl
@[simp] theorem Scratch.resetDcode_lcount (sc : Scratch) : (sc.resetDcode).lcount = sc.lcount := rfl
@[simp] theorem Scratch.resetDcode_total (sc : Scratch) : (sc.resetDcode).total = sc.total := rfl
@[simp] theorem Scratch.resetDcode_m (sc : Scratch) : (sc.resetDcode).m = sc.m := rfl
@[simp] theorem Scratch.resetDcode_acc (sc : Scratch) : (sc.resetDcode).acc = sc.acc := rfl
@[simp] theorem Scratch.resetDcode_nbits (sc : Scratch) : (sc.resetDcode).nbits = sc.nbits := rfl
@[simp] theorem Scratch.resetDcode_dcode (sc : Scratch) : (sc.resetDcode).dcode = 0 := rfl
@[simp] theorem Scratch.resetDcode_dlen (sc : Scratch) : (sc.resetDcode).dlen = 0 := rfl
@[simp] theorem Scratch.resetDcode_trailer (sc : Scratch) : (sc.resetDcode).trailer = sc.trailer := rfl
@[simp] theorem Scratch.resetDcode_vbits (sc : Scratch) : (sc.resetDcode).vbits = sc.vbits := rfl
@[simp] theorem Scratch.resetDcode_nrec (sc : Scratch) : (sc.resetDcode).nrec = sc.nrec := rfl

@[simp] theorem Scratch.shiftDcode_ft (sc : Scratch) (β : Bool) : (sc.shiftDcode β).ft = sc.ft := rfl
@[simp] theorem Scratch.shiftDcode_lcount (sc : Scratch) (β : Bool) : (sc.shiftDcode β).lcount = sc.lcount := rfl
@[simp] theorem Scratch.shiftDcode_total (sc : Scratch) (β : Bool) : (sc.shiftDcode β).total = sc.total := rfl
@[simp] theorem Scratch.shiftDcode_m (sc : Scratch) (β : Bool) : (sc.shiftDcode β).m = sc.m := rfl
@[simp] theorem Scratch.shiftDcode_acc (sc : Scratch) (β : Bool) : (sc.shiftDcode β).acc = sc.acc := rfl
@[simp] theorem Scratch.shiftDcode_nbits (sc : Scratch) (β : Bool) : (sc.shiftDcode β).nbits = sc.nbits := rfl
@[simp] theorem Scratch.shiftDcode_dcode (sc : Scratch) (β : Bool) : (sc.shiftDcode β).dcode = (sc.dcode <<< 1) ||| bit32 β := rfl
@[simp] theorem Scratch.shiftDcode_dlen (sc : Scratch) (β : Bool) : (sc.shiftDcode β).dlen = sc.dlen + 1 := rfl
@[simp] theorem Scratch.shiftDcode_trailer (sc : Scratch) (β : Bool) : (sc.shiftDcode β).trailer = sc.trailer := rfl
@[simp] theorem Scratch.shiftDcode_vbits (sc : Scratch) (β : Bool) : (sc.shiftDcode β).vbits = sc.vbits := rfl
@[simp] theorem Scratch.shiftDcode_nrec (sc : Scratch) (β : Bool) : (sc.shiftDcode β).nrec = sc.nrec := rfl

@[simp] theorem Scratch.setTrailer_ft (sc : Scratch) (b : Byte) : (sc.setTrailer b).ft = sc.ft := rfl
@[simp] theorem Scratch.setTrailer_lcount (sc : Scratch) (b : Byte) : (sc.setTrailer b).lcount = sc.lcount := rfl
@[simp] theorem Scratch.setTrailer_total (sc : Scratch) (b : Byte) : (sc.setTrailer b).total = sc.total := rfl
@[simp] theorem Scratch.setTrailer_m (sc : Scratch) (b : Byte) : (sc.setTrailer b).m = sc.m := rfl
@[simp] theorem Scratch.setTrailer_acc (sc : Scratch) (b : Byte) : (sc.setTrailer b).acc = sc.acc := rfl
@[simp] theorem Scratch.setTrailer_nbits (sc : Scratch) (b : Byte) : (sc.setTrailer b).nbits = sc.nbits := rfl
@[simp] theorem Scratch.setTrailer_dcode (sc : Scratch) (b : Byte) : (sc.setTrailer b).dcode = sc.dcode := rfl
@[simp] theorem Scratch.setTrailer_dlen (sc : Scratch) (b : Byte) : (sc.setTrailer b).dlen = sc.dlen := rfl
@[simp] theorem Scratch.setTrailer_trailer (sc : Scratch) (b : Byte) : (sc.setTrailer b).trailer = b := rfl
@[simp] theorem Scratch.setTrailer_vbits (sc : Scratch) (b : Byte) : (sc.setTrailer b).vbits = sc.vbits := rfl
@[simp] theorem Scratch.setTrailer_nrec (sc : Scratch) (b : Byte) : (sc.setTrailer b).nrec = sc.nrec := rfl

@[simp] theorem Scratch.openSegment_ft (sc : Scratch) (n : Nat) (b : Byte) : (sc.openSegment n b).ft = sc.ft := rfl
@[simp] theorem Scratch.openSegment_lcount (sc : Scratch) (n : Nat) (b : Byte) : (sc.openSegment n b).lcount = sc.lcount := rfl
@[simp] theorem Scratch.openSegment_total (sc : Scratch) (n : Nat) (b : Byte) : (sc.openSegment n b).total = sc.total := rfl
@[simp] theorem Scratch.openSegment_m (sc : Scratch) (n : Nat) (b : Byte) : (sc.openSegment n b).m = sc.m := rfl
@[simp] theorem Scratch.openSegment_acc (sc : Scratch) (n : Nat) (b : Byte) : (sc.openSegment n b).acc = sc.acc := rfl
@[simp] theorem Scratch.openSegment_nbits (sc : Scratch) (n : Nat) (b : Byte) : (sc.openSegment n b).nbits = sc.nbits := rfl
@[simp] theorem Scratch.openSegment_dcode (sc : Scratch) (n : Nat) (b : Byte) : (sc.openSegment n b).dcode = 0 := rfl
@[simp] theorem Scratch.openSegment_dlen (sc : Scratch) (n : Nat) (b : Byte) : (sc.openSegment n b).dlen = 0 := rfl
@[simp] theorem Scratch.openSegment_trailer (sc : Scratch) (n : Nat) (b : Byte) : (sc.openSegment n b).trailer = sc.trailer := rfl
@[simp] theorem Scratch.openSegment_vbits (sc : Scratch) (n : Nat) (b : Byte) : (sc.openSegment n b).vbits = validBits n b := rfl
@[simp] theorem Scratch.openSegment_nrec (sc : Scratch) (n : Nat) (b : Byte) : (sc.openSegment n b).nrec = sc.nrec := rfl

@[simp] theorem Scratch.countByte_ft (sc : Scratch) (v : Byte) : (sc.countByte v).ft = sc.ft.write v.toNat { seen := true, frequency := (sc.ftAt v).frequency + 1 } := rfl
@[simp] theorem Scratch.countByte_lcount (sc : Scratch) (v : Byte) : (sc.countByte v).lcount = (if (sc.ftAt v).seen then sc.lcount else sc.lcount + 1) := rfl
@[simp] theorem Scratch.countByte_total (sc : Scratch) (v : Byte) : (sc.countByte v).total = sc.total + 1 := rfl
@[simp] theorem Scratch.countByte_m (sc : Scratch) (v : Byte) : (sc.countByte v).m = sc.m := rfl
@[simp] theorem Scratch.countByte_acc (sc : Scratch) (v : Byte) : (sc.countByte v).acc = sc.acc := rfl
@[simp] theorem Scratch.countByte_nbits (sc : Scratch) (v : Byte) : (sc.countByte v).nbits = sc.nbits := rfl
@[simp] theorem Scratch.countByte_dcode (sc : Scratch) (v : Byte) : (sc.countByte v).dcode = sc.dcode := rfl
@[simp] theorem Scratch.countByte_dlen (sc : Scratch) (v : Byte) : (sc.countByte v).dlen = sc.dlen := rfl
@[simp] theorem Scratch.countByte_trailer (sc : Scratch) (v : Byte) : (sc.countByte v).trailer = sc.trailer := rfl
@[simp] theorem Scratch.countByte_vbits (sc : Scratch) (v : Byte) : (sc.countByte v).vbits = sc.vbits := rfl
@[simp] theorem Scratch.countByte_nrec (sc : Scratch) (v : Byte) : (sc.countByte v).nrec = sc.nrec := rfl

@[simp] theorem Source.skip_readable (src : Source) (n : Nat) : (src.skip n).readable = src.readable := rfl
@[simp] theorem Source.skip_bytes (src : Source) (n : Nat) : (src.skip n).bytes = src.bytes := rfl
@[simp] theorem Source.skip_pos (src : Source) (n : Nat) : (src.skip n).pos = src.pos + n := rfl
@[simp] theorem Sink.push_available (k : Sink) (v : Byte) : (k.push v).available = k.available := rfl
@[simp] theorem Sink.push_bytes (k : Sink) (v : Byte) : (k.push v).bytes = k.bytes ++ [v] := rfl
@[simp] theorem Source.cut_readable (src : Source) (d : Nat) : (src.cut d).readable = src.readable := rfl
@[simp] theorem Source.cut_bytes (src : Source) (d : Nat) : (src.cut d).bytes = src.bytes := rfl
@[simp] theorem Sink.cut_available (k : Sink) (d : Nat) : (k.cut d).available = k.available := rfl

end Sys2Proof.Machine
end

