-- ==== Sys2Proof/Laws/Ops.lean ====
section
/-! SUPPORT. For each shared operation of the block, what it can do, said once: later proofs cite these instead of unfolding it. -/

namespace Sys2Proof.Machine

/-! ### Slots, positions and table entries after a write -/

theorem Store.nodeAt_setNode (st : Store) (i j : NodeId) (n : Node) :
    (st.setNode i n).nodeAt j = if j = i then n else st.nodeAt j := by
  by_cases h : j = i
  · simp [Store.nodeAt, h]
  · have : j.val ≠ i.val := fun e => h (Fin.ext e)
    simp [Store.nodeAt, h, Ram.read_write_other _ _ this]

@[simp] theorem Store.poolAt_setNode (st : Store) (i : NodeId) (n : Node) (p : Nat) :
    (st.setNode i n).poolAt p = st.poolAt p := rfl

theorem nodeId_val {n : Nat} (h : n < 511) : (nodeId n).val = n := Nat.mod_eq_of_lt h

theorem Store.nodeAt_addNode (st : Store) (n : Node) (j : NodeId) :
    (st.addNode n).nodeAt j = if j.val = st.count.val then n else st.nodeAt j := by
  by_cases h : j.val = st.count.val
  · simp [Store.nodeAt, h]
  · simp [Store.nodeAt, h, Ram.read_write_other _ _ h]

theorem Store.poolAt_addNode (st : Store) (n : Node) (p : Nat) :
    (st.addNode n).poolAt p = if p = st.count.val then nodeId st.count.val else st.poolAt p := by
  by_cases h : p = st.count.val
  · simp [Store.poolAt, h]
  · simp [Store.poolAt, h, Ram.read_write_other _ _ h]

theorem Store.count_addNode {st : Store} (h : st.count.val < 511) (n : Node) :
    (st.addNode n).count.val = st.count.val + 1 := by
  simp only [Store.addNode_count, Fin.val_add]
  have : ((1 : Fin 512) : Nat) = 1 := rfl
  omega

theorem Scratch.ftAt_setFt (sc : Scratch) (u v : Byte) (e : Symbol) :
    (sc.setFt u e).ftAt v = if v = u then e else sc.ftAt v := by
  by_cases h : v = u
  · simp [Scratch.ftAt, Scratch.setFt, h]
  · have : v.toNat ≠ u.toNat := fun e => h (BitVec.eq_of_toNat_eq e)
    simp [Scratch.ftAt, Scratch.setFt, h, Ram.read_write_other _ _ this]

/-! ### The streams -/

/-- `SinkByte` of a list appends it. -/
theorem State.sinkBytes_eq (s : State) (vs : List Byte) :
    s.sinkBytes vs = { s with sink := { s.sink with bytes := s.sink.bytes ++ vs } } := by
  induction vs generalizing s with
  | nil => simp [State.sinkBytes]
  | cons v vs ih =>
    have : s.sinkBytes (v :: vs) = (s.sinkByte v).sinkBytes vs := rfl
    rw [this, ih]
    simp [State.sinkByte, Sink.push]

/-- A source that was cut off stands between its position and the end. -/
theorem Source.cut_bounds (src : Source) (d : Nat) :
    src.pos ≤ (src.cut d).pos ∧ (src.pos ≤ src.bytes.length → (src.cut d).pos ≤ src.bytes.length) := by
  have h : Config.freeAdvance d % (src.avail + 1) < src.avail + 1 := Nat.mod_lt _ (Nat.succ_pos _)
  simp only [Source.cut, Source.skip_pos]
  simp only [Source.avail] at h ⊢
  omega

/-- A sink that was cut off has only grown. -/
theorem Sink.cut_prefix (k : Sink) (d : Nat) : k.bytes <+: (k.cut d).bytes := ⟨_, rfl⟩

/-- A reset that cuts a command off moves the source forward within its bytes and appends to the sink; a command that does not use a stream
leaves it. -/
theorem State.cutStreams_streams (c : Option Instr) (s : State) :
    (s.cutStreams c).source.readable = s.source.readable ∧ (s.cutStreams c).source.bytes = s.source.bytes
      ∧ s.source.pos ≤ (s.cutStreams c).source.pos
      ∧ (s.source.pos ≤ s.source.bytes.length → (s.cutStreams c).source.pos ≤ s.source.bytes.length)
      ∧ (s.cutStreams c).sink.available = s.sink.available ∧ s.sink.bytes <+: (s.cutStreams c).sink.bytes
      ∧ ((∀ i ∈ c, usesSource i = false) → (s.cutStreams c).source = s.source)
      ∧ ((∀ i ∈ c, usesSink i = false) → (s.cutStreams c).sink = s.sink) := by
  cases c with
  | none => simp
  | some i =>
    have hb := Source.cut_bounds s.source s.draws
    have hp := Sink.cut_prefix s.sink s.draws
    cases hs : usesSource i <;> cases hk : usesSink i <;>
      simp [State.cutStreams, cutSource, cutSink, hs, hk, Source.cut, Source.skip, Sink.cut] <;>
      simpa [Source.cut, Source.skip] using hb

theorem Source.unread_length (src : Source) : src.unread.length = src.avail := by simp [Source.unread, Source.avail]

/-! ### Commands -/

/-- The stream checks answer the state they were given, and say why they fail. -/
theorem checkStreams_cases (i : Instr) (s : State) :
    (checkStreams i s = .error (.unreadable, s) ∧ usesSource i = true ∧ s.source.readable = false)
      ∨ (checkStreams i s = .error (.noSink, s) ∧ usesSink i = true ∧ s.sink.available = false)
      ∨ (checkStreams i s = .ok s ∧ (usesSource i = true → s.source.readable = true)
          ∧ (usesSink i = true → s.sink.available = true)) := by
  simp only [checkStreams]
  split
  · simp_all
  · split
    · simp_all
    · right; right
      simp_all

/-- A command's outcome is a next state: `finish` of its last state, or `raise` at its abort. -/
theorem complete_cases {i : Instr} {s₀ t : State} {r : Run} (h : complete i s₀ r = .next t) :
    (∃ s, r = .ok s ∧ t = s.finish) ∨ ∃ c s, r = .error (c, s) ∧ t = raise i c s₀ s := by
  cases r with
  | ok s => left; exact ⟨s, rfl, by simpa [complete] using h.symm⟩
  | error e =>
    obtain ⟨c, s⟩ := e
    right; exact ⟨c, s, rfl, by simpa [complete] using h.symm⟩

/-- The run of a command's lines, RELEASE's among them. -/
def runOf : Instr → State → Run
  | .build, s => buildRun s
  | .persist, s => persistRun s
  | .load, s => loadRun s
  | .encode, s => encodeRun s
  | .decode, s => decodeRun s
  | .release, s => .ok s.releaseStore

theorem exec_eq_complete (i : Instr) (s : State) : exec i s = complete i s (runOf i s) := by cases i <;> rfl

/-- One code of ENCODE: either of its two faults at the state it was given, or its bits put. -/
theorem encodeByte_cases (v : Byte) (s : State) :
    (encodeByte v s = .error (.valueAbsent, s) ∧ s.store.lookupValue v = none)
      ∨ ∃ i, s.store.lookupValue v = some i ∧
        ((encodeByte v s = .error (.badLength, s)
            ∧ ((s.store.nodeAt i).codeLength.toNat = 0 ∨ 32 < (s.store.nodeAt i).codeLength.toNat))
          ∨ (encodeByte v s = .ok ((s.store.nodeAt i).codeBits.foldl putBit s)
            ∧ 1 ≤ (s.store.nodeAt i).codeLength.toNat ∧ (s.store.nodeAt i).codeLength.toNat ≤ 32)) := by
  unfold encodeByte
  cases h : s.store.lookupValue v with
  | none => exact .inl ⟨rfl, rfl⟩
  | some i =>
    refine .inr ⟨i, rfl, ?_⟩
    by_cases hl : (s.store.nodeAt i).codeLength.toNat = 0 ∨ 32 < (s.store.nodeAt i).codeLength.toNat
    · exact .inl ⟨by simp [Config.maxLen, hl], hl⟩
    · refine .inr ⟨by simp [Config.maxLen, hl], ?_⟩
      omega

/-- `PutBit` changes the accumulator, and the sink where it flushes: nothing else. -/
theorem putBit_frame (s : State) (β : Bool) :
    putBit s β = { s with
      sink := (putBit s β).sink
      scratch := { s.scratch with acc := (putBit s β).scratch.acc, nbits := (putBit s β).scratch.nbits } } := by
  unfold putBit
  dsimp only
  split <;> rfl

/-- `GetBit` shifts one bit in, then faults past 32 bits, goes on without a match, or emits the matching byte. -/
theorem getBit_cases (β : Bool) (s : State) :
    let s₁ := s.mapScratch (Scratch.shiftDcode β)
    (getBit β s = .error (.codeAbsent, s₁) ∧ 32 < s₁.scratch.dlen.toNat)
      ∨ (s₁.scratch.dlen.toNat ≤ 32 ∧
        ((getBit β s = .ok s₁
            ∧ s.store.lookupCode (rev s₁.scratch.dlen.toNat s₁.scratch.dcode) s₁.scratch.dlen.toNat = none)
          ∨ ∃ v, getBit β s = .ok ((s₁.sinkByte v).mapScratch Scratch.resetDcode)
            ∧ s.store.lookupCode (rev s₁.scratch.dlen.toNat s₁.scratch.dcode) s₁.scratch.dlen.toNat = some v)) := by
  intro s₁
  by_cases h : 32 < s₁.scratch.dlen.toNat
  · exact .inl ⟨if_pos h, h⟩
  · refine .inr ⟨by omega, ?_⟩
    have e : getBit β s = match s₁.store.lookupCode (rev s₁.scratch.dlen.toNat s₁.scratch.dcode) s₁.scratch.dlen.toNat with
        | none => .ok s₁
        | some v => .ok ((s₁.sinkByte v).mapScratch Scratch.resetDcode) := if_neg h
    have es : s₁.store = s.store := rfl
    rw [es] at e
    cases hv : s.store.lookupCode (rev s₁.scratch.dlen.toNat s₁.scratch.dcode) s₁.scratch.dlen.toNat with
    | none => exact .inl ⟨by rw [e, hv], rfl⟩
    | some v => exact .inr ⟨v, by rw [e, hv], rfl⟩

/-- DECODE on usable streams: the three framing faults, TRAILER written before the two that test it, or the segment. -/
theorem decodeRun_cases (s : State) (hr : s.source.readable = true) (ha : s.sink.available = true) :
    (s.source.unread = [] ∧ decodeRun s = .error (.noTrailer, s.setPhase .decode))
      ∨ ∃ data trailer, s.source.unread = data ++ [trailer] ∧
        let s₁ := (s.setPhase .decode).mapScratch (Scratch.setTrailer trailer)
        ((7 < trailer.toNat ∨ (trailer ≠ 0 ∧ data = [])) ∧ decodeRun s = .error (.badTrailer, s₁))
          ∨ (trailer.toNat ≤ 7 ∧ (trailer ≠ 0 → data ≠ []) ∧ decodeRun s = decodeSegment trailer data s₁) := by
  have hc : checkStreams .decode s = .ok s := by simp [checkStreams, hr, ha]
  rcases List.eq_nil_or_concat s.source.unread with h | ⟨data, trailer, h⟩
  · exact .inl ⟨h, by simp [decodeRun, hc, h]⟩
  · rw [List.concat_eq_append] at h
    refine .inr ⟨data, trailer, h, ?_⟩
    by_cases h7 : 7 < trailer.toNat
    · exact .inl ⟨.inl h7, by simp [decodeRun, hc, h, h7]⟩
    · by_cases hd : trailer ≠ 0 ∧ data = []
      · exact .inl ⟨.inr hd, by obtain ⟨hn, rfl⟩ := hd; simp [decodeRun, hc, h, h7]; exact fun e => absurd e hn⟩
      · exact .inr ⟨by omega, fun hn he => hd ⟨hn, he⟩, by simp [decodeRun, hc, h, h7]; tauto⟩

/-- One pass of the merge loop: both pushes, then the new node, then the sort of the suffix. -/
theorem mergeOnce_some {m : Nat} {st st' : Store} (h : st.mergeOnce m = some st') :
    ∃ st₁ st₂, pushBit Config.nodeCap false (st.poolAt m) st = some st₁
      ∧ pushBit Config.nodeCap true (st.poolAt (m + 1)) st₁ = some st₂
      ∧ st' = (st₂.addNode (st₂.mergedNode (st.poolAt m) (st.poolAt (m + 1)))).sortFrom (m + 2) := by
  unfold Store.mergeOnce at h
  dsimp only at h
  split at h
  · cases h
  · rename_i st₁ h₁
    split at h
    · cases h
    · rename_i st₂ h₂
      exact ⟨st₁, st₂, h₁, h₂, by simpa using h.symm⟩

/-! ### The host's moves -/

/-- The command a reset cuts off: PHASE's while BUSY, else that of the word in CMD. -/
theorem commandUnder_cases (w : Byte) (s : State) :
    (s.busy = true ∧ commandUnder w s = s.phase.command)
      ∨ (s.busy = false ∧ ((∃ i, decode w = .ok i ∧ commandUnder w s = some i)
        ∨ ∃ e, decode w = .error e ∧ commandUnder w s = none)) := by
  unfold commandUnder
  cases hb : s.busy with
  | true => exact .inl ⟨rfl, rfl⟩
  | false =>
    refine .inr ⟨rfl, ?_⟩
    cases hd : decode w with
    | ok i => exact .inl ⟨i, rfl, rfl⟩
    | error e => exact .inr ⟨e, rfl, rfl⟩

/-- PHASE tells of a running command exactly in a BUSY state. -/
theorem Phase.command_eq_none (s : State) : s.phase.command = none ↔ s.busy = false := by
  unfold State.busy
  cases s.phase <;> decide

/-- A write to CMD: dropped while BUSY, else one command or BAD_COMMAND. -/
theorem writeCmd_cases (w : Byte) (s : State) :
    (s.busy = true ∧ writeCmd w s = .next s)
      ∨ (s.busy = false ∧ ((∃ i, decode w = .ok i ∧ writeCmd w s = exec i s)
        ∨ ∃ e, decode w = .error e ∧ writeCmd w s = .next (illegalCommand s))) := by
  unfold writeCmd
  cases hb : s.busy with
  | true => exact .inl ⟨rfl, rfl⟩
  | false =>
    refine .inr ⟨rfl, ?_⟩
    cases hd : decode w with
    | ok i => exact .inl ⟨i, rfl, rfl⟩
    | error e => exact .inr ⟨e, rfl, rfl⟩



theorem step_cons {s : State} {m : HostMove} {ms : List HostMove} (h : s.host = m :: ms) :
    step s = hostMove m { s with host := ms } := by simp [step, hostStep, h]

end Sys2Proof.Machine
end

