-- ==== Sys2Proof/Laws/PerInstr.lean ====
section
/-! SUPPORT. Statements made per command. Family `WordForm`: the command's word has the form CMD8 (spec/30_encoding.md R90, R91). -/

namespace Sys2Proof.Laws.WordForm

/-- The encoder's word of a command is well formed, its RSV field is 0 and its OP field is the command's opcode. -/
def Statement (i : Instr) : Prop :=
  wordWellFormed (encode i) = true ∧ rsvField (encode i) = 0 ∧ opField (encode i) = i.opcode

theorem build : Statement .build := by unfold Statement; decide
theorem persist : Statement .persist := by unfold Statement; decide
theorem load : Statement .load := by unfold Statement; decide
theorem encode : Statement .encode := by unfold Statement; decide
theorem decode : Statement .decode := by unfold Statement; decide
theorem release : Statement .release := by unfold Statement; decide

end Sys2Proof.Laws.WordForm
end

