-- ==== Sys2Proof/Tests/Slice0.lean ====
section
/-! SUPPORT. The model's own tests: the well-formedness smoke, decoding of words written out from spec/30_encoding.md R90 and R91, vectors
of spec/95_test_vectors.md on one command each (expected values are that file's), and for every statement with hypotheses a witness that
meets them (`witness_<statement>`). -/

namespace Sys2Proof.Tests

open Sys2Proof.Machine Sys2Proof.Safety

/-! ### Helpers -/

/-- The next state meets the check. -/
def nextMeets (p : State → Bool) : Host.Outcome State Fault Refusal → Bool
  | .next t => p t
  | .fault _ => false
  | .refused _ => false

theorem exists_of_nextMeets {p : State → Bool} {o : Host.Outcome State Fault Refusal} (h : nextMeets p o = true) :
    ∃ t, o = .next t ∧ p t = true := by
  cases o with
  | next t => exact ⟨t, rfl, h⟩
  | fault r => cases h
  | refused r => cases h

/-- The reset state with a source of these bytes. -/
def onSource (bytes : List Byte) : State := withStreams bytes State.reset

/-- A leaf with its code. -/
def leafWith (value : Byte) (code : Word) (codeLength : BitVec 8) : Node :=
  { value := value, frequency := 0, code := code, codeLength := codeLength, left := none, right := none }

/-- A restored table of two leaves. -/
def tableOf (x y : Node) : Store :=
  { Store.reset with node := [(0, x), (1, y)], pool := [(0, 0), (1, 1)], count := 2 }

/-- The table A = (0, 1), B = (1, 1) of V14. -/
def tableAB : Store := tableOf (leafWith 0x41 0 1) (leafWith 0x42 1 1)

/-- The restored table of V13/V3: c, d, b, r, a. -/
def tableV3 : Store :=
  { Store.reset with
    node := [(0, leafWith 0x63 1 3), (1, leafWith 0x64 5 3), (2, leafWith 0x62 3 3), (3, leafWith 0x72 7 3), (4, leafWith 0x61 0 1)]
    pool := [(0, 0), (1, 1), (2, 2), (3, 3), (4, 4)]
    count := 5 }

/-- A table on a source of these bytes. -/
def withTable (st : Store) (bytes : List Byte) : State := { onSource bytes with store := st }

/-- The state with the host's moves. -/
def withMoves (ms : List HostMove) (s : State) : State := { s with host := ms }

/-! ### Well-formedness smoke: one ill-formed word for each check -/

theorem test_word_with_reserved_bits_is_ill_formed : wordWellFormed 0b00001001#8 = false := by decide
theorem test_word_with_opcode_0_is_ill_formed : wordWellFormed 0b00000000#8 = false := by decide
theorem test_word_with_opcode_7_is_ill_formed : wordWellFormed 0b00000111#8 = false := by decide
theorem test_word_of_release_is_well_formed : wordWellFormed 0b00000110#8 = true := by decide

/-! ### Decoding: the words of R91 bit by bit, the reserved words of V26 -/

theorem test_decode_build : decode 0b00000001#8 = .ok .build := by decide
theorem test_decode_persist : decode 0b00000010#8 = .ok .persist := by decide
theorem test_decode_load : decode 0b00000011#8 = .ok .load := by decide
theorem test_decode_encode : decode 0b00000100#8 = .ok .encode := by decide
theorem test_decode_decode : decode 0b00000101#8 = .ok .decode := by decide
theorem test_decode_release : decode 0b00000110#8 = .ok .release := by decide
theorem test_decode_reserved_words :
    [0x00#8, 0x07#8, 0x08#8, 0x09#8, 0x0E#8, 0x10#8, 0x80#8, 0x81#8, 0xFF#8].all (fun w => (decodeTableWord 8 w.toNat).isNone)
      = true := by decide +kernel
theorem test_tableWord_runs_after_reset :
    nextMeets (fun t => t.kind == .emptyInput && t.store.count == 0) (step (State.reset.withFetchWord 8 1)) = true := by
  decide +kernel

/-! ### BUILD (V6, V2) -/

/-- V6: AABBBC, a new internal node ties with a waiting leaf. -/
def checkV6 (t : State) : Bool :=
  t.kind == .ok && t.detail == .noDetail && t.source.unread == []
    && t.store.node.map (fun e => (e.2.value, e.2.frequency, e.2.code, e.2.codeLength, e.2.left, e.2.right))
      == [(0x41, 2, 3, 2, none, none), (0x42, 3, 0, 1, none, none), (0x43, 1, 1, 2, none, none),
          (0x00, 3, 1, 1, some 2, some 0), (0x00, 6, 0, 0, some 1, some 3)]
    && t.store.pool.map Prod.snd == [2, 0, 1, 3, 4]
    && t.store.count == 5 && t.store.root == some 4 && t.store.byteCount == 6 && t.store.maxFreq == 3

theorem test_build_v6 : nextMeets checkV6 (exec .build (onSource [0x41, 0x41, 0x42, 0x42, 0x42, 0x43])) = true := by
  decide +kernel

theorem test_build_empty_input :
    nextMeets (fun t => t.status == 0x02 && decide (StoreEmpty t.store)) (exec .build (withTable tableAB [])) = true := by
  decide +kernel

/-! ### PERSIST (V13) -/

theorem test_persist_v13 :
    nextMeets (fun t => t.status == 0x00 && t.store == tableV3 && t.sink.bytes ==
        [0x05, 0, 0, 0, 0x63, 1, 0, 0, 0, 3, 0x64, 5, 0, 0, 0, 3, 0x62, 3, 0, 0, 0, 3, 0x72, 7, 0, 0, 0, 3, 0x61, 0, 0, 0, 0, 1])
      (exec .persist (withTable tableV3 [])) = true := by decide +kernel

theorem test_persist_empty_store :
    nextMeets (fun t => t.status == 0x00 && t.sink.bytes == [0, 0, 0, 0]) (exec .persist State.reset) = true := by decide +kernel

/-! ### LOAD (V14, V15) -/

theorem test_load_v14 :
    nextMeets (fun t => t.status == 0x00 && t.source.unread == [0xA0, 0x04] && t.source.pos == 16
        && t.store == { tableAB with epoch := t.store.epoch })
      (exec .load (withTable tableV3 [2, 0, 0, 0, 0x41, 0, 0, 0, 0, 1, 0x42, 1, 0, 0, 0, 1, 0xA0, 0x04])) = true := by
  decide +kernel

theorem test_load_v15_count_512 :
    nextMeets (fun t => t.status == 0x51 && decide (StoreEmpty t.store)) (exec .load (withTable tableAB [0, 2, 0, 0, 0x41])) = true := by
  decide +kernel

/-! ### ENCODE (V16, V17, V18) -/

theorem test_encode_v16 :
    nextMeets (fun t => t.status == 0x00 && t.sink.bytes == [0x76, 0x51, 0x76, 0x07])
      (exec .encode (withTable tableV3 [0x61, 0x62, 0x72, 0x61, 0x63, 0x61, 0x64, 0x61, 0x62, 0x72, 0x61])) = true := by
  decide +kernel

theorem test_encode_v18_absent_value :
    nextMeets (fun t => t.status == 0xB4 && t.store == tableAB) (exec .encode (withTable tableAB [0x41, 0x42, 0x43])) = true := by
  decide +kernel

/-! ### DECODE (V19, V20, V22) -/

/-- R190: TRAILER is written before it is tested. -/
theorem test_decode_bad_trailer_keeps_the_byte :
    nextMeets (fun t => t.status == 0x61 && t.scratch.trailer == 8) (exec .decode (withTable tableAB [0xA0, 8])) = true := by
  decide +kernel

theorem test_decode_v19 :
    nextMeets (fun t => t.status == 0x00 && t.source.unread == []
        && t.sink.bytes == [0x61, 0x62, 0x72, 0x61, 0x63, 0x61, 0x64, 0x61, 0x62, 0x72, 0x61])
      (exec .decode (withTable tableV3 [0x76, 0x51, 0x76, 0x07])) = true := by decide +kernel

theorem test_decode_v22_33rd_bit :
    nextMeets (fun t => t.status == 0xC4)
      (exec .decode (withTable (tableOf (leafWith 0x41 0 1) (leafWith 0x42 0 2)) [0xFF, 0xFF, 0xFF, 0xFF, 0xFF, 0x00])) = true := by
  decide +kernel

/-! ### RELEASE (V27) and the reserved words (V26) -/

theorem test_release_v27 :
    nextMeets (fun t => t.status == 0x00 && decide (StoreEmpty t.store)) (exec .release (withTable tableV3 [])) = true := by
  decide +kernel

theorem test_reserved_word_v26 :
    nextMeets (fun t => t.status == 0xF6 && t.store == tableAB)
      (step (withMoves [.write 0 0x09] (withTable tableAB []))) = true := by decide +kernel

/-! ### Witnesses: the hypotheses of the statements can be met -/

/-- A state that is BUSY. -/
def busyState : State := { State.reset with phase := .encode }

/-- An input byte value twice and another once, on the source. -/
def sourceAAB : State := onSource [0x41, 0x41, 0x42]

theorem witness_StepRunsCommand :
    (∃ (s : State) (w : Byte) (ms : List HostMove) (i : Instr),
        s.host = .write 0 w :: ms ∧ s.busy = false ∧ decode w = .ok i)
      ∧ ∃ s : State, s.phase = .idle :=
  ⟨⟨withMoves [.write 0 6, .read 1] State.reset, 6, [.read 1], .release, rfl, rfl, rfl⟩, State.reset, rfl⟩

theorem witness_ReservedWordRefused :
    (∃ (s : State) (w : Byte) (ms : List HostMove),
        s.host = .write 0 w :: ms ∧ s.busy = false ∧ w.extractLsb' 3 5 ≠ 0)
      ∧ (∃ (s : State) (w : Byte) (ms : List HostMove),
        s.host = .write 0 w :: ms ∧ s.busy = false ∧ w.extractLsb' 0 3 = 0)
      ∧ ∃ (s : State) (w : Byte) (ms : List HostMove),
        s.host = .write 0 w :: ms ∧ s.busy = false ∧ w.extractLsb' 0 3 = 7 :=
  ⟨⟨withMoves [.write 0 8] State.reset, 8, [], rfl, rfl, by decide⟩,
    ⟨withMoves [.write 0 0] State.reset, 0, [], rfl, rfl, by decide⟩,
    withMoves [.write 0 7] State.reset, 7, [], rfl, rfl, by decide⟩

theorem witness_BusyWriteDropped :
    ∃ (s : State) (w : Byte) (ms : List HostMove), s.host = .write 0 w :: ms ∧ s.busy = true :=
  ⟨withMoves [.write 0 1] busyState, 1, [], rfl, rfl⟩

theorem witness_HostRegisters :
    (∃ s : State, s.busy = false) ∧ (∃ n : Nat, 5 < n)
      ∧ ∃ (s : State) (n : Nat) (w : Byte) (ms : List HostMove), s.host = .write n w :: ms ∧ n ≠ 0 :=
  ⟨⟨State.reset, rfl⟩, ⟨6, by decide⟩, withMoves [.write 1 9] State.reset, 1, 9, [], rfl, by decide⟩

theorem witness_RegisterReadHasNoSideEffect :
    ∃ (s : State) (n : Nat) (ms : List HostMove), s.host = .read n :: ms ∧ s.busy = false :=
  ⟨withMoves [.read 5] State.reset, 5, [], rfl, rfl⟩

theorem witness_ResetMoves :
    (∃ (s : State) (ms : List HostMove), s.host = .reset :: ms ∧ s.busy = true)
      ∧ (∃ (s : State) (ms : List HostMove), s.host = .reset :: ms ∧ s.busy = false ∧ s.source.pos ≤ s.source.bytes.length)
      ∧ (∃ (s : State) (w : Byte) (ms : List HostMove), s.host = .resetDuring w :: ms ∧ s.busy = false
          ∧ ∀ i, decode w = .ok i → i ∈ [Instr.persist, .release])
      ∧ ∃ (s : State) (w : Byte) (ms : List HostMove), s.host = .resetDuring w :: ms ∧ s.busy = false
          ∧ ∀ i, decode w = .ok i → i ∈ [Instr.build, .load, .release] :=
  ⟨⟨withMoves [.reset] busyState, [], rfl, rfl⟩, ⟨withMoves [.reset] State.reset, [], rfl, rfl, by decide⟩,
    ⟨withMoves [.resetDuring 2] State.reset, 2, [], rfl, rfl, fun i h => by cases h; decide⟩,
    withMoves [.resetDuring 8] State.reset, 8, [], rfl, rfl, fun i h => by cases h⟩

theorem test_reset_of_the_idle_block_keeps_the_streams :
    nextMeets (fun t => t.source == (onSource [0x41]).source && t.sink == (onSource [0x41]).sink && t.status == 0x00)
      (step (withMoves [.reset] (onSource [0x41]))) = true := by decide +kernel

theorem witness_StreamMoves :
    (∃ (s : State) (ms : List HostMove) (b : Bool) (p q : List Byte), s.busy = false ∧ s.host = .openSource b p q :: ms)
      ∧ ∃ (s : State) (ms : List HostMove) (b : Bool), s.busy = false ∧ s.host = .openSink b :: ms :=
  ⟨⟨withMoves [.openSource true [1] [2]] State.reset, [], true, [1], [2], rfl, rfl⟩,
    withMoves [.openSink false] State.reset, [], false, rfl, rfl⟩

theorem witness_WaitsForTheHost : ∃ s : State, s.host = [] ∧ s.busy = false := ⟨State.reset, rfl, rfl⟩

theorem witness_OnlyBusyStreamChangeRefused : ∃ (s : State) (r : Refusal), step s = .refused r :=
  ⟨withMoves [.openSink true] busyState, .streamChangeWhileBusy, rfl⟩

theorem witness_StepKeepsInvariant : ∃ s t : State, Inv s ∧ step s = .next t ∧ t ≠ s := by
  refine ⟨withMoves [.write 0 6] { withTable tableAB [] with kind := .unknownSymbol }, _, ?_, rfl, ?_⟩ <;> decide +kernel

theorem witness_StreamChecksComeFirst :
    (∃ s : State, s.source.readable = false) ∧ (∃ s : State, s.sink.available = false ∧ s.source.readable = true)
      ∧ ∃ s : State, s.sink.available = false ∧ (Instr.persist ≠ .persist → s.source.readable = true) :=
  ⟨⟨{ State.reset with source := { readable := false, bytes := [], pos := 0 } }, rfl⟩,
    ⟨{ State.reset with sink := { available := false, bytes := [] } }, rfl, rfl⟩,
    { State.reset with sink := { available := false, bytes := [] } }, rfl, fun h => absurd rfl h⟩

theorem witness_FaultedStore :
    (∃ s t : State, exec .build s = .next t ∧ t.kind ≠ .ok) ∧ (∃ s t : State, exec .encode s = .next t ∧ t.kind ≠ .ok)
      ∧ ∃ (s t : State) (w : Byte) (e : DecodeError), s.busy = false ∧ decode w = .error e ∧ writeCmd w s = .next t := by
  refine ⟨⟨State.reset, ?_⟩, ⟨onSource [0x41], ?_⟩, State.reset, _, 0, .reservedOpcode, rfl, rfl, rfl⟩
  · obtain ⟨t, h, hk⟩ := exists_of_nextMeets (p := fun t => t.kind == .emptyInput) (o := exec .build State.reset) (by decide +kernel)
    exact ⟨t, h, by simp at hk; simp [hk]⟩
  · obtain ⟨t, h, hk⟩ := exists_of_nextMeets (p := fun t => t.kind == .unknownSymbol) (o := exec .encode (onSource [0x41]))
      (by decide +kernel)
    exact ⟨t, h, by simp at hk; simp [hk]⟩

theorem witness_ReadersKeepTheStore : ∃ (i : Instr) (s t : State), i ∈ [Instr.persist, .encode, .decode] ∧ exec i s = .next t := by
  obtain ⟨t, h, -⟩ := exists_of_nextMeets test_persist_v13
  exact ⟨.persist, _, t, by decide, h⟩

theorem witness_OutcomesPerCommand : ∀ i : Instr, ∃ s t : State, exec i s = .next t := fun i =>
  ⟨State.reset, by cases i <;> exact ⟨_, rfl⟩⟩

theorem witness_CommandFrames : ∃ (i : Instr) (s t : State), exec i s = .next t ∧ s.source.pos ≤ s.source.bytes.length := by
  obtain ⟨t, h, -⟩ := exists_of_nextMeets test_encode_v16
  exact ⟨.encode, _, t, h, by decide +kernel⟩

theorem witness_PersistWritesTheTable : (∃ s : State, s.sink.available = false) ∧ ∃ s : State, s.sink.available = true :=
  ⟨⟨{ State.reset with sink := { available := false, bytes := [] } }, rfl⟩, State.reset, rfl⟩

theorem witness_LoadReadsTheTable :
    ∀ n, n ≤ 511 → ∃ (s : State) (rs : List (Byte × Word × BitVec 8)) (rest : List Byte),
      s.source.readable = true ∧ rs.length ≤ 511 ∧ s.source.unread = recordSegment rs ++ rest ∧ rs.length = n := by
  intro n hn
  refine ⟨onSource (recordSegment (List.replicate n (0x41, 0, 1)) ++ [0x00]), List.replicate n (0x41, 0, 1), [0x00], rfl, ?_, rfl, ?_⟩
    <;> simp [hn]

theorem witness_LoadRefusesBadTables :
    (∃ s : State, s.source.readable = true ∧ s.source.unread.length < 4)
      ∧ (∃ (s : State) (b0 b1 b2 b3 : Byte) (r : List Byte), s.source.readable = true ∧ s.source.unread = b0 :: b1 :: b2 :: b3 :: r
          ∧ 511 < (word32 b0 b1 b2 b3).toNat)
      ∧ (∃ (s : State) (b0 b1 b2 b3 : Byte) (r : List Byte), s.source.readable = true ∧ s.source.unread = b0 :: b1 :: b2 :: b3 :: r
          ∧ (word32 b0 b1 b2 b3).toNat ≤ 511 ∧ r.length < 6 * (word32 b0 b1 b2 b3).toNat)
      ∧ ∃ (s : State) (b0 b1 b2 b3 : Byte) (r : List Byte), s.source.readable = true ∧ s.source.unread = b0 :: b1 :: b2 :: b3 :: r
          ∧ (word32 b0 b1 b2 b3).toNat ≤ 511 ∧ 6 * (word32 b0 b1 b2 b3).toNat ≤ r.length :=
  ⟨⟨onSource [0, 0, 0], rfl, by decide⟩,
    ⟨onSource [0, 2, 0, 0], 0, 2, 0, 0, [], rfl, rfl, by decide⟩,
    ⟨onSource [0xFF, 1, 0, 0], 0xFF, 1, 0, 0, [], rfl, rfl, by decide, by decide⟩,
    onSource [0, 0, 0, 0], 0, 0, 0, 0, [], rfl, rfl, by decide, by decide⟩

theorem witness_PersistAfterLoadReproduces : ∃ s t : State, exec .load s = .next t ∧ t.kind = .ok := by
  obtain ⟨t, h, hk⟩ := exists_of_nextMeets (p := fun t => t.kind == .ok)
    (o := exec .load (onSource [1, 0, 0, 0, 0x41, 0, 0, 0, 0, 1])) (by decide +kernel)
  exact ⟨_, t, h, by simpa using hk⟩

theorem witness_FrequencyPassCounts : ∃ input : List Byte, input.length ≤ 2 ^ 32 - 1 ∧ input ≠ [] := ⟨[0x00], by decide, by decide⟩

theorem source_of_length (n : Nat) : ∃ s : State, s.source.readable = true ∧ s.source.unread.length = n :=
  ⟨onSource (List.replicate n 0x41), rfl, List.length_replicate⟩

theorem witness_BuildRefusesInputLengths :
    (∃ s : State, s.source.readable = true ∧ s.source.unread = [])
      ∧ ∃ s : State, s.source.readable = true ∧ 2 ^ 32 ≤ s.source.unread.length := by
  obtain ⟨s, hr, hl⟩ := source_of_length (2 ^ 32)
  exact ⟨⟨State.reset, rfl, rfl⟩, s, hr, hl.ge⟩

theorem witness_StableSortOfThePool : ∃ (st : Store) (lo : Nat), lo ≤ st.count.val ∧ 0 < lo := ⟨tableAB, 2, by decide, by decide⟩

theorem witness_SuffixSortIsInsertion :
    ∃ (st : Store) (ids : List NodeId), ids.Pairwise (fun a b => (st.nodeAt a).frequency ≤ (st.nodeAt b).frequency)
      ∧ ids.length = 2 := ⟨tableAB, [0, 1], by decide +kernel, rfl⟩

/-- A tree of two leaves under one internal node. -/
def treeOf (x y : Node) : Store :=
  { Store.reset with
    node := [(0, x), (1, y), (2, { leafWith 0 0 0 with left := some 1, right := some 0 })]
    pool := [(0, 1), (1, 0), (2, 2)]
    count := 3 }

theorem witness_PushBitOnASubtree :
    (∃ (st : Store) (i : NodeId), StoreWf st ∧ i.val < st.count.val ∧ st.isLeaf i = false
        ∧ ∃ j, InSubtree st i j ∧ j ≠ i ∧ (st.nodeAt j).codeLength = 32)
      ∧ (∃ (st st' : Store) (i : NodeId) (β : Bool), StoreWf st ∧ i.val < st.count.val ∧ st.isLeaf i = false
        ∧ pushBit Config.nodeCap β i st = some st' ∧ (∃ j, InSubtree st i j ∧ j ≠ i))
      ∧ (∃ (st : Store) (i : NodeId), st.isLeaf i = true ∧ (st.nodeAt i).codeLength = 32)
      ∧ ∃ (st : Store) (i : NodeId), st.isLeaf i = true ∧ (st.nodeAt i).codeLength ≠ 32 := by
  refine ⟨⟨treeOf (leafWith 0x41 0 32) (leafWith 0x42 1 1), 2, by decide +kernel, by decide, by decide +kernel, 0, ⟨[true], ?_⟩,
      by decide, by decide +kernel⟩, ?_,
    ⟨tableOf (leafWith 0x41 0 32) (leafWith 0x42 1 1), 0, by decide +kernel, by decide +kernel⟩,
    tableOf (leafWith 0x41 0 31) (leafWith 0x42 1 1), 0, by decide +kernel, by decide +kernel⟩
  · decide +kernel
  · have h : (pushBit Config.nodeCap true 2 (treeOf (leafWith 0x41 0 31) (leafWith 0x42 1 1))).isSome = true := by decide +kernel
    exact ⟨treeOf (leafWith 0x41 0 31) (leafWith 0x42 1 1), (pushBit _ _ _ _).get h, 2, true, by decide +kernel, by decide,
      by decide +kernel, by simp, 1, ⟨[false], by decide +kernel⟩, by decide⟩

/-- R137 by hand: code 1 of length 1 becomes 3 of length 2, code 0 of length 31 becomes 1 of length 32, the node itself 1 of length 1. -/
theorem test_pushBit_reaches_the_descendants :
    (pushBit Config.nodeCap true 2 (treeOf (leafWith 0x41 0 31) (leafWith 0x42 1 1))).map
        (fun st => st.node.map fun e => (e.2.code, e.2.codeLength)) = some [(1, 32), (3, 2), (1, 1)] := by decide +kernel

theorem witness_PushBitChangesCodesOnly :
    ∃ (depth : Nat) (st st' : Store) (i : NodeId) (β : Bool), pushBit depth β i st = some st' := by
  have h : (pushBit 2 true 0 tableAB).isSome = true := by decide +kernel
  exact ⟨2, tableAB, (pushBit 2 true 0 tableAB).get h, 0, true, by simp⟩

theorem witness_MergeCreatesTheInternalNode :
    ∃ (st st' : Store) (m : Nat), m + 1 < st.count.val ∧ st.count.val < 511 ∧ st.mergeOnce m = some st' := by
  have h : (tableAB.mergeOnce 0).isSome = true := by decide +kernel
  exact ⟨tableAB, (tableAB.mergeOnce 0).get h, 0, by decide, by decide, by simp⟩

theorem witness_SingleSymbolBuild :
    ∀ n, 1 ≤ n → n ≤ 2 ^ 32 - 1 → ∃ (s : State) (v : Byte), s.source.readable = true ∧ s.source.unread = List.replicate n v :=
  fun n _ _ => ⟨onSource (List.replicate n 0x41), 0x41, rfl, rfl⟩

theorem witness_TwoSymbolBuild :
    (∃ (s : State) (a b : Byte), s.source.readable = true ∧ s.source.unread.length ≤ 2 ^ 32 - 1 ∧ a < b
        ∧ (∀ v, v ∈ s.source.unread ↔ v = a ∨ v = b) ∧ s.source.unread.count a = s.source.unread.count b)
      ∧ ∃ (s : State) (a b : Byte), s.source.readable = true ∧ s.source.unread.length ≤ 2 ^ 32 - 1 ∧ a < b
        ∧ (∀ v, v ∈ s.source.unread ↔ v = a ∨ v = b) ∧ s.source.unread.count b < s.source.unread.count a :=
  ⟨⟨onSource [0x41, 0x42], 0x41, 0x42, rfl, by decide, by decide, by simp [onSource, withStreams, Source.unread], by decide +kernel⟩,
    sourceAAB, 0x41, 0x42, rfl, by decide, by decide, by simp [sourceAAB, onSource, withStreams, Source.unread], by decide +kernel⟩

/-- The counts of an input made of runs. -/
theorem count_runs (runs : List (Byte × Nat)) (v : Byte) :
    (runs.flatMap fun r => List.replicate r.2 r.1).count v = (runs.map fun r => if r.1 = v then r.2 else 0).sum := by
  induction runs with
  | nil => rfl
  | cons r rs ih => simp [List.count_append, List.count_replicate, ih]

/-- V10: the byte values 0 to 33 with the first 34 Fibonacci numbers as frequencies. -/
def fibonacciRuns : List (Byte × Nat) := (List.range 34).map fun k => (BitVec.ofNat 8 k, Nat.fib (k + 1))

/-- The input of V10 that raises CODE_OVERFLOW. -/
def fibonacciInput : List Byte := fibonacciRuns.flatMap fun r => List.replicate r.2 r.1

theorem test_fibonacci_input_is_too_deep : codeDepth fibonacciInput = 33 := by
  have h : ∀ v, fibonacciInput.count v = (fibonacciRuns.map fun r => if r.1 = v then r.2 else 0).sum := count_runs fibonacciRuns
  simp only [codeDepth, h]
  decide +kernel

/-- V10: the first 33 Fibonacci numbers need exactly 32 bits (41_tree_builder.md R151). -/
theorem test_33_fibonacci_frequencies_fit : treeHeight ((List.range 33).map fun k => Nat.fib (k + 1)) = 32 := by decide +kernel

theorem witness_BuildCompletes :
    (∃ s : State, s.source.readable = true ∧ s.source.unread ≠ [] ∧ s.source.unread.length ≤ 2 ^ 32 - 1
        ∧ 33 < distinct s.source.unread ∧ codeDepth s.source.unread ≤ 32)
      ∧ (∃ s : State, s.source.readable = true ∧ s.source.unread ≠ [] ∧ s.source.unread.length ≤ 2 ^ 32 - 1
        ∧ 32 < codeDepth s.source.unread)
      ∧ ∃ s : State, s.source.readable = true ∧ s.source.unread ≠ [] ∧ s.source.unread.length ≤ 2 ^ 32 - 1
        ∧ distinct s.source.unread = 33 := by
  refine ⟨⟨onSource ((List.range 34).map (BitVec.ofNat 8)), rfl, by decide +kernel, by decide +kernel, by decide +kernel, by decide +kernel⟩,
    ⟨onSource fibonacciInput, rfl, ?_, ?_, ?_⟩,
    onSource ((List.range 33).map (BitVec.ofNat 8)), rfl, by decide +kernel, by decide +kernel, by decide +kernel⟩
  · show fibonacciInput ≠ []
    intro h
    have hd := test_fibonacci_input_is_too_deep
    rw [h] at hd
    revert hd
    decide +kernel
  · show fibonacciInput.length ≤ 2 ^ 32 - 1
    simp only [fibonacciInput, List.length_flatMap, List.length_replicate]
    decide +kernel
  · show 32 < codeDepth fibonacciInput
    rw [test_fibonacci_input_is_too_deep]
    decide

/-- A BUILD that ended OK, of an input with three byte values, and the permuted input. -/
theorem witness_BuildLeavesTheBuiltTree :
    ∃ s t : State, exec .build s = .next t ∧ t.kind = .ok ∧ 2 ≤ distinct s.source.unread
      ∧ t.store.root = some 4 ∧ (0 : NodeId).val < t.store.count.val := by
  obtain ⟨t, h, hk⟩ := exists_of_nextMeets test_build_v6
  simp only [checkV6, Bool.and_eq_true, beq_iff_eq] at hk
  obtain ⟨⟨⟨⟨⟨⟨⟨⟨hok, -⟩, -⟩, -⟩, -⟩, hc⟩, hr⟩, -⟩, -⟩ := hk
  exact ⟨_, t, h, hok, by decide +kernel, hr, by rw [hc]; decide⟩

theorem witness_BuildChecksNeverFail : ∃ s t : State, exec .build s = .next t := by
  obtain ⟨s, t, h, -⟩ := witness_BuildLeavesTheBuiltTree
  exact ⟨s, t, h⟩

theorem witness_BuildIgnoresArrivalOrder :
    ∃ (s : State) (src : Source), src.readable = s.source.readable ∧ src.unread.Perm s.source.unread ∧ src ≠ s.source :=
  ⟨sourceAAB, { readable := true, bytes := [0x42, 0x41, 0x41], pos := 0 }, rfl, by decide +kernel, by decide +kernel⟩

theorem witness_BuiltCodesArePrefixFree : ∃ s t : State, exec .build s = .next t ∧ t.kind = .ok := by
  obtain ⟨s, t, h, hk, -⟩ := witness_BuildLeavesTheBuiltTree
  exact ⟨s, t, h, hk⟩

theorem witness_BuiltCodesAreRootToLeafPaths :
    ∃ (s t : State) (r i : NodeId), exec .build s = .next t ∧ t.kind = .ok ∧ 2 ≤ distinct s.source.unread
      ∧ t.store.root = some r ∧ i.val < t.store.count.val := by
  obtain ⟨s, t, h, hk, hd, hr, hi⟩ := witness_BuildLeavesTheBuiltTree
  exact ⟨s, t, 4, 0, h, hk, hd, hr, hi⟩

theorem witness_BuiltCodesAreComplete :
    ∃ s t : State, exec .build s = .next t ∧ t.kind = .ok ∧ 2 ≤ distinct s.source.unread := by
  obtain ⟨s, t, h, hk, hd, -⟩ := witness_BuildLeavesTheBuiltTree
  exact ⟨s, t, h, hk, hd⟩

theorem witness_EncodeWritesTheSegment :
    ∃ s : State, s.source.readable = true ∧ s.sink.available = true ∧ (∀ v ∈ s.source.unread, Encodable s.store v)
      ∧ s.source.unread ≠ [] :=
  ⟨withTable (tableOf (leafWith 0x41 0 1) (leafWith 0x42 1 32)) [0x41, 0x42], rfl, rfl, by decide +kernel, by decide +kernel⟩

theorem witness_EncodeFaultsAtTheFirstBadByte :
    (∃ (s : State) (before after : List Byte) (v : Byte), s.source.readable = true ∧ s.sink.available = true
        ∧ s.source.unread = before ++ v :: after ∧ (∀ u ∈ before, Encodable s.store u) ∧ s.store.lookupValue v = none)
      ∧ (∃ (s : State) (before after : List Byte) (v : Byte) (i : NodeId), s.source.readable = true ∧ s.sink.available = true
        ∧ s.source.unread = before ++ v :: after ∧ (∀ u ∈ before, Encodable s.store u) ∧ s.store.lookupValue v = some i
        ∧ (s.store.nodeAt i).codeLength.toNat = 0)
      ∧ ∃ (s : State) (before after : List Byte) (v : Byte) (i : NodeId), s.source.readable = true ∧ s.sink.available = true
        ∧ s.source.unread = before ++ v :: after ∧ (∀ u ∈ before, Encodable s.store u) ∧ s.store.lookupValue v = some i
        ∧ 32 < (s.store.nodeAt i).codeLength.toNat :=
  ⟨⟨withTable tableAB [0x41, 0x5A], [0x41], [], 0x5A, rfl, rfl, rfl, by decide +kernel, by decide +kernel⟩,
    ⟨withTable (tableOf (leafWith 0x41 0 0) (leafWith 0x42 1 1)) [0x42, 0x41], [0x42], [], 0x41, 0, rfl, rfl, rfl,
      by decide +kernel, by decide +kernel, by decide +kernel⟩,
    withTable (tableOf (leafWith 0x41 0 33) (leafWith 0x42 1 1)) [0x41], [], [], 0x41, 0, rfl, rfl, rfl,
      by decide +kernel, by decide +kernel, by decide +kernel⟩

theorem witness_DecodeChecksTheFraming :
    (∃ s : State, s.source.readable = true ∧ s.sink.available = true ∧ s.source.unread = [])
      ∧ (∃ (s : State) (data : List Byte) (trailer : Byte), s.source.readable = true ∧ s.sink.available = true
          ∧ s.source.unread = data ++ [trailer] ∧ trailer.toNat = 8)
      ∧ ∃ (s : State) (trailer : Byte), s.source.readable = true ∧ s.sink.available = true ∧ s.source.unread = [trailer]
          ∧ trailer ≠ 0 ∧ trailer.toNat ≤ 7 :=
  ⟨⟨State.reset, rfl, rfl, rfl⟩, ⟨onSource [0xA0, 8], [0xA0], 8, rfl, rfl, rfl, rfl⟩,
    onSource [1], 1, rfl, rfl, rfl, by decide, by decide⟩

theorem witness_DecodeEmitsTheParsedBytes :
    (∃ (s : State) (data : List Byte) (trailer : Byte) (out : List Byte), s.source.readable = true ∧ s.sink.available = true
        ∧ s.source.unread = data ++ [trailer] ∧ trailer.toNat ≤ 7 ∧ (trailer ≠ 0 → data ≠ [])
        ∧ parseBits s.store [] (segmentBits trailer data) = .ok out ∧ out ≠ [])
      ∧ ∃ (s : State) (data : List Byte) (trailer : Byte) (out : List Byte), s.source.readable = true ∧ s.sink.available = true
        ∧ s.source.unread = data ++ [trailer] ∧ trailer.toNat ≤ 7 ∧ (trailer ≠ 0 → data ≠ [])
        ∧ parseBits s.store [] (segmentBits trailer data) = .ok out ∧ data = [] :=
  ⟨⟨withTable tableAB [0xA0, 4], [0xA0], 4, [0x41, 0x42, 0x41, 0x42], rfl, rfl, rfl, by decide, by decide, rfl, by decide⟩,
    withTable tableAB [0], [], 0, [], rfl, rfl, rfl, by decide, by decide, rfl, rfl⟩

/-- A table of which no bit sequence of ones is a code. -/
def tableZeros : Store := tableOf (leafWith 0x41 0 1) (leafWith 0x42 0 2)

theorem witness_DecodeFaultsAsTheParse :
    (∃ (s : State) (data : List Byte) (trailer : Byte), s.source.readable = true ∧ s.sink.available = true
        ∧ s.source.unread = data ++ [trailer] ∧ trailer.toNat ≤ 7 ∧ (trailer ≠ 0 → data ≠ [])
        ∧ parseBits s.store [] (segmentBits trailer data) = .error .partialCode)
      ∧ ∃ (s : State) (data : List Byte) (trailer : Byte), s.source.readable = true ∧ s.sink.available = true
        ∧ s.source.unread = data ++ [trailer] ∧ trailer.toNat ≤ 7 ∧ (trailer ≠ 0 → data ≠ [])
        ∧ parseBits s.store [] (segmentBits trailer data) = .error .codeAbsent :=
  ⟨⟨withTable tableZeros [0xFF, 0xFF, 0xFF, 0xFF, 0], [0xFF, 0xFF, 0xFF, 0xFF], 0, rfl, rfl, rfl, by decide, by decide, by decide +kernel⟩,
    withTable tableZeros [0xFF, 0xFF, 0xFF, 0xFF, 0x01, 1], [0xFF, 0xFF, 0xFF, 0xFF, 0x01], 1, rfl, rfl, rfl, by decide, by decide,
      by decide +kernel⟩

theorem witness_CompressionSize : ∃ s t : State, exec .encode s = .next t ∧ t.kind = .ok ∧ s.source.unread ≠ [] := by
  obtain ⟨t, h, hk⟩ := exists_of_nextMeets test_encode_v16
  simp only [Bool.and_eq_true, beq_iff_eq] at hk
  refine ⟨_, t, h, ?_, by decide +kernel⟩
  have hs := hk.1
  revert hs
  simp only [State.status]
  cases t.kind <;> cases t.detail <;> cases t.busy <;> decide

theorem witness_ReversalGivesTheStoredOrder : ∃ bits : List Bool, bits.length ≤ 32 ∧ bits.length = 32 :=
  ⟨List.replicate 32 true, by decide, by decide⟩

theorem witness_DecodableTableRoundTrip :
    ∃ (s : State) (input : List Byte), PrefixCode s.store ∧ (∀ v ∈ input, Encodable s.store v) ∧ input ≠ [] :=
  ⟨withTable tableV3 [], [0x61, 0x62, 0x63], ⟨by decide +kernel, by decide +kernel, by decide +kernel⟩, by decide +kernel, by decide⟩

theorem witness_BuiltTreeRoundTrip :
    ∃ (s b : State) (input : List Byte), exec .build (withStreams input s) = .next b ∧ b.kind = .ok := by
  obtain ⟨t, h, hk⟩ := exists_of_nextMeets test_build_v6
  simp only [checkV6, Bool.and_eq_true, beq_iff_eq] at hk
  obtain ⟨⟨⟨⟨⟨⟨⟨⟨hok, -⟩, -⟩, -⟩, -⟩, -⟩, -⟩, -⟩, -⟩ := hk
  exact ⟨State.reset, t, _, h, hok⟩

theorem witness_ArtifactRoundTrip :
    ∃ (s b r : State) (input : List Byte), exec .build (withStreams input s) = .next b ∧ b.kind = .ok ∧ r ≠ s := by
  obtain ⟨s, b, input, h, hk⟩ := witness_BuiltTreeRoundTrip
  by_cases hs : busyState = s
  · exact ⟨s, b, State.reset, input, h, hk, by rw [← hs]; decide +kernel⟩
  · exact ⟨s, b, busyState, input, h, hk, hs⟩

end Sys2Proof.Tests
end

section
/-! PROOFS. A RAM whose written entries are exactly the indices below `n`: how it is read and written, and the tree store made of two
such RAMs, NODE and POOL, of COUNT entries each (spec/10_state.md R22 to R24). -/

namespace Sys2Proof.Machine

/-- The written entries of the RAM are those at the indices 0 to `n - 1`. -/
def Ram.Dense {α : Type} (n : Nat) (m : Ram α) : Prop := m.map Prod.fst = List.range n

/-- NODE and POOL hold exactly COUNT entries each. This is a structure, and stands before every lemma, because Lean reads on from a
structure only once the kernel has checked what stands above it: the tests' evaluations are then over, and their threads do not add to
those of the proofs against the memory limit of the check. -/
structure Store.Dense (st : Store) : Prop where
  node : st.node.Dense st.count.val
  pool : st.pool.Dense st.count.val

section Ram

variable {α : Type} {n : Nat} {m : Ram α}

theorem Ram.write_of_all_lt {i : Nat} (x : α) (h : ∀ a ∈ m.map Prod.fst, a < i) : m.write i x = m ++ [(i, x)] := by
  induction m with
  | nil => rfl
  | cons e m ih =>
    simp only [List.map_cons, List.forall_mem_cons] at h
    obtain ⟨hlt, htail⟩ := h
    have h1 : ¬ i < e.1 := by omega
    have h2 : i ≠ e.1 := by omega
    simp [Ram.write, h1, h2, ih htail]

theorem Ram.fst_write_of_mem {i : Nat} (x : α) (hs : (m.map Prod.fst).Pairwise (· < ·)) (h : i ∈ m.map Prod.fst) :
    (m.write i x).map Prod.fst = m.map Prod.fst := by
  induction m with
  | nil => cases h
  | cons e m ih =>
    simp only [List.map_cons, List.pairwise_cons, List.mem_cons] at hs h
    obtain ⟨hlt, hs⟩ := hs
    simp only [Ram.write]
    rcases h with rfl | h
    · simp
    · have := hlt i h
      have h1 : ¬ i < e.1 := by omega
      have h2 : i ≠ e.1 := by omega
      simp [h1, h2, ih hs h]

theorem Ram.read_eq_some_of_mem (hs : (m.map Prod.fst).Pairwise (· < ·)) {e : Nat × α} (h : e ∈ m) :
    m.read e.1 = some e.2 := by
  induction m with
  | nil => cases h
  | cons d m ih =>
    simp only [List.map_cons, List.pairwise_cons] at hs
    obtain ⟨hlt, hs⟩ := hs
    rcases List.mem_cons.mp h with rfl | h
    · simp [Ram.read]
    · have := hlt e.1 (List.mem_map_of_mem h)
      have hne : d.1 ≠ e.1 := by omega
      simpa [Ram.read, hne] using ih hs h

theorem Ram.Dense.pairwise (h : m.Dense n) : (m.map Prod.fst).Pairwise (· < ·) := by
  rw [show m.map Prod.fst = List.range n from h]
  exact List.pairwise_lt_range

theorem Ram.Dense.write_end (h : m.Dense n) (x : α) : m.write n x = m ++ [(n, x)] :=
  Ram.write_of_all_lt x fun a ha => by
    rw [show m.map Prod.fst = List.range n from h] at ha
    exact List.mem_range.mp ha

theorem Ram.Dense.succ_write_end (h : m.Dense n) (x : α) : (m.write n x).Dense (n + 1) := by
  rw [h.write_end]
  simpa [Ram.Dense, List.range_succ] using h

theorem Ram.Dense.write_lt (h : m.Dense n) {i : Nat} (hi : i < n) (x : α) : (m.write i x).Dense n := by
  have hmem : i ∈ m.map Prod.fst := by rw [show m.map Prod.fst = List.range n from h]; exact List.mem_range.mpr hi
  exact (Ram.fst_write_of_mem x h.pairwise hmem).trans h

theorem Ram.Dense.writeFrom (h : m.Dense n) {i : Nat} {xs : List α} (hi : i + xs.length ≤ n) : (m.writeFrom i xs).Dense n := by
  induction xs generalizing m i with
  | nil => exact h
  | cons x xs ih =>
    simp only [List.length_cons] at hi
    exact ih (h.write_lt (by omega) x) (by omega)

/-- A dense RAM is the list of what its reads give; the default `d` is never taken. -/
theorem Ram.Dense.eq_map_read (h : m.Dense n) (d : Nat → α) :
    m = (List.range n).map fun k => (k, (m.read k).getD (d k)) := by
  have hread : ∀ e ∈ m, e = (e.1, (m.read e.1).getD (d e.1)) := fun e he => by
    simp [Ram.read_eq_some_of_mem h.pairwise he]
  calc m = m.map fun e => (e.1, (m.read e.1).getD (d e.1)) := by
        conv_lhs => rw [← List.map_id m]
        exact List.map_congr_left hread
    _ = (m.map Prod.fst).map fun k => (k, (m.read k).getD (d k)) := by simp [Function.comp_def]
    _ = (List.range n).map fun k => (k, (m.read k).getD (d k)) := by rw [show m.map Prod.fst = List.range n from h]

end Ram

/-! ### The dense store -/

/-- The children of a slot, left before right. -/
abbrev Store.childrenAt (st : Store) (k : Nat) : List NodeId := Safety.childIds (st.nodeAt (nodeId k))

theorem Store.scan_eq (st : Store) : st.scan = (List.range st.count.val).map st.poolAt := by
  simp [Store.scan, Store.scanFrom, List.range_eq_range']

/-- The collection is its first `lo` positions, then the suffix from `lo`. -/
theorem Store.scan_split (st : Store) {lo : Nat} (h : lo ≤ st.count.val) :
    st.scan = (List.range lo).map st.poolAt ++ st.scanFrom lo := by
  have hr : List.range' 0 st.count.val = List.range' 0 lo ++ List.range' lo (st.count.val - lo) := by
    conv_lhs => rw [← Nat.add_sub_cancel' h]
    rw [List.range'_append_1.symm]
    simp
  rw [Store.scan_eq, Store.scanFrom, ← List.map_append, List.range_eq_range', List.range_eq_range', hr]

theorem Store.Dense.node_eq {st : Store} (h : st.Dense) :
    st.node = (List.range st.count.val).map fun k => (k, st.nodeAt (nodeId k)) := by
  conv_lhs => rw [h.node.eq_map_read (Config.freeNode st.epoch)]
  refine List.map_congr_left fun k hk => ?_
  have hk' : k < 511 := lt_of_lt_of_le (List.mem_range.mp hk) (Nat.lt_succ_iff.mp st.count.isLt)
  simp [Store.nodeAt, nodeId_val hk']

theorem Store.Dense.pool_eq {st : Store} (h : st.Dense) :
    st.pool = (List.range st.count.val).map fun p => (p, st.poolAt p) :=
  h.pool.eq_map_read (Config.freePool st.epoch)

theorem Store.Dense.setNode {st : Store} (h : st.Dense) {i : NodeId} (hi : i.val < st.count.val) (n : Node) :
    (st.setNode i n).Dense :=
  ⟨h.node.write_lt hi n, h.pool⟩

theorem Store.Dense.addNode {st : Store} (h : st.Dense) (hc : st.count.val < 511) (n : Node) : (st.addNode n).Dense := by
  have hcount := Store.count_addNode hc n
  exact ⟨hcount ▸ h.node.succ_write_end n, hcount ▸ h.pool.succ_write_end (nodeId st.count.val)⟩

theorem Store.length_stableSort (st : Store) (ids : List NodeId) : (st.stableSort ids).length = ids.length :=
  List.length_insertionSort _ _

theorem Store.perm_stableSort (st : Store) (ids : List NodeId) : (st.stableSort ids).Perm ids :=
  List.perm_insertionSort _ _

theorem Store.Dense.sortFrom {st : Store} (h : st.Dense) {lo : Nat} (hlo : lo ≤ st.count.val) : (st.sortFrom lo).Dense := by
  refine ⟨h.node, h.pool.writeFrom ?_⟩
  rw [Store.length_stableSort, Store.length_scanFrom]
  omega

@[simp] theorem Store.nodeAt_sortFrom (st : Store) (lo : Nat) (i : NodeId) : (st.sortFrom lo).nodeAt i = st.nodeAt i := rfl

/-- The sort moves the positions from `lo` to COUNT-1 and no other. -/
theorem Store.poolAt_sortFrom (st : Store) (lo p : Nat) :
    (st.sortFrom lo).poolAt p
      = if lo ≤ p ∧ p < st.count.val then (st.stableSort (st.scanFrom lo)).getD (p - lo) (Config.freePool st.epoch p)
        else st.poolAt p := by
  have hlen : lo + (st.stableSort (st.scanFrom lo)).length = lo + (st.count.val - lo) := by
    rw [Store.length_stableSort, Store.length_scanFrom]
  unfold Store.poolAt
  simp only [Store.sortFrom_pool, Store.sortFrom_epoch, Ram.read_writeFrom, hlen]
  by_cases h : lo ≤ p ∧ p < st.count.val
  · have h' : lo ≤ p ∧ p < lo + (st.count.val - lo) := by omega
    rw [if_pos h, if_pos h', List.getD_eq_getElem?_getD]
  · have h' : ¬ (lo ≤ p ∧ p < lo + (st.count.val - lo)) := by omega
    rw [if_neg h, if_neg h']

theorem Store.poolAt_sortFrom_lt (st : Store) {lo p : Nat} (h : p < lo) : (st.sortFrom lo).poolAt p = st.poolAt p := by
  rw [Store.poolAt_sortFrom, if_neg (by omega)]

theorem Store.getElem_scanFrom (st : Store) (lo k : Nat) (h : k < (st.scanFrom lo).length) :
    (st.scanFrom lo)[k] = st.poolAt (lo + k) := by simp [Store.scanFrom]

/-- After the sort the suffix is the sorted suffix. -/
theorem Store.scanFrom_sortFrom (st : Store) (lo : Nat) : (st.sortFrom lo).scanFrom lo = st.stableSort (st.scanFrom lo) := by
  refine List.ext_getElem ?_ fun k h1 h2 => ?_
  · simp [Store.length_scanFrom, Store.length_stableSort]
  · have hk : k < st.count.val - lo := by simpa [Store.length_scanFrom] using h1
    have hp : lo ≤ lo + k ∧ lo + k < st.count.val := by omega
    rw [Store.getElem_scanFrom, Store.poolAt_sortFrom, if_pos hp, Nat.add_sub_cancel_left, List.getD_eq_getElem _ _ h2]

/-- The sort of a suffix rearranges the collection. -/
theorem Store.scan_sortFrom_perm (st : Store) {lo : Nat} (hlo : lo ≤ st.count.val) : (st.sortFrom lo).scan.Perm st.scan := by
  have hhead : (List.range lo).map (st.sortFrom lo).poolAt = (List.range lo).map st.poolAt :=
    List.map_congr_left fun p hp => st.poolAt_sortFrom_lt (List.mem_range.mp hp)
  rw [Store.scan_split _ (show lo ≤ (st.sortFrom lo).count.val from hlo), Store.scan_split st hlo, hhead, Store.scanFrom_sortFrom]
  exact (st.perm_stableSort _).append_left _

theorem Store.scan_addNode {st : Store} (hc : st.count.val < 511) (n : Node) :
    (st.addNode n).scan = st.scan ++ [nodeId st.count.val] := by
  have hold : (List.range st.count.val).map (st.addNode n).poolAt = (List.range st.count.val).map st.poolAt :=
    List.map_congr_left fun p hp => by rw [Store.poolAt_addNode, if_neg (List.mem_range.mp hp).ne]
  rw [Store.scan_eq, Store.scan_eq, Store.count_addNode hc, List.range_succ, List.map_append, hold]
  simp [Store.poolAt_addNode]

/-! ### The well-formed store, said of its slots and positions -/

/-- The five clauses of the store's well-formedness that do not speak of the summary registers, through the reads of the store. -/
theorem storeWf_of_dense {st : Store} (hd : st.Dense) (hperm : (st.scan.map Fin.val).Perm (List.range st.count.val))
    (hnode : ∀ i : NodeId, i.val < st.count.val → Safety.NodeWf i.val (st.nodeAt i))
    (hchild : ((List.range st.count.val).flatMap st.childrenAt).Nodup)
    (hroot : ∀ r ∈ st.root, r.val + 1 = st.count.val)
    (hempty : st.count.val = 0 → st.byteCount = 0 ∧ st.maxFreq = 0 ∧ st.root = none) : Safety.StoreWf st := by
  refine ⟨hd.node, hd.pool, ?_, ?_, ?_, hroot, hempty⟩
  · rw [Store.scan_eq] at hperm
    rw [hd.pool_eq]
    simpa [Function.comp_def] using hperm
  · rw [hd.node_eq]
    intro e he
    obtain ⟨k, hk, rfl⟩ := List.mem_map.mp he
    have hk := List.mem_range.mp hk
    have hv : (nodeId k).val = k := nodeId_val (lt_of_lt_of_le hk (Nat.lt_succ_iff.mp st.count.isLt))
    have := hnode (nodeId k) (by omega)
    rwa [hv] at this
  · rw [hd.node_eq, List.flatMap_map]
    exact hchild

theorem storeWf_of_storeEmpty {st : Store} (hn : st.node = []) (hp : st.pool = []) (h : Safety.StoreEmpty st) : Safety.StoreWf st := by
  obtain ⟨hc, hr, hb, hm⟩ := h
  simp [Safety.StoreWf, hn, hp, hc, hr, hb, hm]

theorem storeWf_release (st : Store) : Safety.StoreWf st.release := storeWf_of_storeEmpty rfl rfl ⟨rfl, rfl, rfl, rfl⟩

end Sys2Proof.Machine
end

section
/-! PROOFS. PushBit and one pass of the merge loop on a dense store (spec/41_tree_builder.md R134 to R140). -/

namespace Sys2Proof.Machine

/-- A node without its code: what PushBit never changes. -/
def Node.bare (n : Node) : Node := { n with code := 0, codeLength := 0 }

/-- What pushes can do to a node: its code grows, up to 32 bits, and nothing else of it changes. -/
def Node.Pushed (n n' : Node) : Prop :=
  n'.bare = n.bare
    ∧ (n.codeLength.toNat ≤ 32 → n.codeLength.toNat ≤ n'.codeLength.toNat ∧ n'.codeLength.toNat ≤ 32)

theorem Node.left_eq_of_bare {n n' : Node} (h : n'.bare = n.bare) : n'.left = n.left := by simpa [Node.bare] using congrArg Node.left h

theorem Node.right_eq_of_bare {n n' : Node} (h : n'.bare = n.bare) : n'.right = n.right := by
  simpa [Node.bare] using congrArg Node.right h

theorem Node.frequency_eq_of_bare {n n' : Node} (h : n'.bare = n.bare) : n'.frequency = n.frequency := by
  simpa [Node.bare] using congrArg Node.frequency h

theorem Node.value_eq_of_bare {n n' : Node} (h : n'.bare = n.bare) : n'.value = n.value := by
  simpa [Node.bare] using congrArg Node.value h

theorem Node.isLeaf_eq_of_bare {n n' : Node} (h : n'.bare = n.bare) : n'.isLeaf = n.isLeaf := by
  simp [Node.isLeaf, Node.left_eq_of_bare h, Node.right_eq_of_bare h]

theorem Node.childIds_eq_of_bare {n n' : Node} (h : n'.bare = n.bare) : Safety.childIds n' = Safety.childIds n := by
  simp [Safety.childIds, Node.left_eq_of_bare h, Node.right_eq_of_bare h]

theorem Node.nodeWf_of_bare {n n' : Node} {slot : Nat} (h : n'.bare = n.bare) (hn : Safety.NodeWf slot n) : Safety.NodeWf slot n' := by
  simpa [Safety.NodeWf, Node.left_eq_of_bare h, Node.right_eq_of_bare h] using hn

theorem Node.mem_childIds {n : Node} {c : NodeId} : c ∈ Safety.childIds n ↔ n.left = some c ∨ n.right = some c := by
  simp [Safety.childIds]

/-- The children of a well-formed slot lie before it. -/
theorem Node.child_lt_of_nodeWf {n : Node} {slot : Nat} (hn : Safety.NodeWf slot n) {c : NodeId} (hc : c ∈ Safety.childIds n) :
    c.val < slot := by
  rw [Node.mem_childIds] at hc
  rcases hn with ⟨hl, hr⟩ | ⟨l, hl, r, hr, hls, hrs, -⟩
  · rw [hl, hr] at hc
    simp at hc
  · rw [show n.left = some l from hl, show n.right = some r from hr] at hc
    rcases hc with hc | hc <;> cases hc <;> assumption

theorem Node.childIds_of_isLeaf {n : Node} (h : n.isLeaf = true) : Safety.childIds n = [] := by
  obtain ⟨hl, hr⟩ : n.left = none ∧ n.right = none := by simpa [Node.isLeaf] using h
  simp [Safety.childIds, hl, hr]

theorem Node.nodeWf_of_isLeaf {n : Node} (slot : Nat) (h : n.isLeaf = true) : Safety.NodeWf slot n :=
  .inl (by simpa [Node.isLeaf] using h)

theorem Node.Pushed.refl (n : Node) : n.Pushed n := ⟨rfl, fun h => ⟨le_rfl, h⟩⟩

theorem Node.Pushed.trans {n₁ n₂ n₃ : Node} (h : n₁.Pushed n₂) (h' : n₂.Pushed n₃) : n₁.Pushed n₃ := by
  obtain ⟨hb, hl⟩ := h
  obtain ⟨hb', hl'⟩ := h'
  refine ⟨hb'.trans hb, fun h => ?_⟩
  obtain ⟨h1, h2⟩ := hl h
  obtain ⟨h3, h4⟩ := hl' h2
  exact ⟨h1.trans h3, h4⟩

theorem Node.pushBit_length {n : Node} (β : Bool) (h : n.codeLength.toNat < 32) :
    (n.pushBit β).codeLength.toNat = n.codeLength.toNat + 1 := by
  have h1 : (n.pushBit β).codeLength.toNat = (n.codeLength.toNat + 1) % 256 := BitVec.toNat_add _ _
  omega

theorem Node.pushed_pushBit {n : Node} (β : Bool) (h : n.codeLength.toNat ≠ 32) : n.Pushed (n.pushBit β) := by
  refine ⟨rfl, fun hle => ?_⟩
  have := n.pushBit_length β (by omega)
  omega

/-! ### PushBit -/

/-- Pushes on a store change nothing but NODE, and there codes only. -/
def Store.Pushed (st st' : Store) : Prop :=
  st' = { st with node := st'.node } ∧ ∀ j, (st.nodeAt j).Pushed (st'.nodeAt j)

theorem Store.Pushed.refl (st : Store) : st.Pushed st := ⟨rfl, fun _ => .refl _⟩

theorem Store.Pushed.trans {st₁ st₂ st₃ : Store} (h : st₁.Pushed st₂) (h' : st₂.Pushed st₃) : st₁.Pushed st₃ := by
  refine ⟨?_, fun j => (h.2 j).trans (h'.2 j)⟩
  have e₂ := h.1
  have e₃ := h'.1
  rw [e₂] at e₃
  exact e₃

section Pushed

variable {st st' : Store} (h : st.Pushed st')
include h

theorem Store.Pushed.count_eq : st'.count = st.count := by rw [h.1]
theorem Store.Pushed.pool_eq : st'.pool = st.pool := by rw [h.1]
theorem Store.Pushed.byteCount_eq : st'.byteCount = st.byteCount := by rw [h.1]
theorem Store.Pushed.maxFreq_eq : st'.maxFreq = st.maxFreq := by rw [h.1]
theorem Store.Pushed.poolAt_eq (p : Nat) : st'.poolAt p = st.poolAt p := by rw [h.1]; rfl
theorem Store.Pushed.bare_eq (j : NodeId) : (st'.nodeAt j).bare = (st.nodeAt j).bare := (h.2 j).1

end Pushed

theorem Store.pushed_setNode {st : Store} {i : NodeId} {n : Node} (h : (st.nodeAt i).Pushed n) : st.Pushed (st.setNode i n) := by
  refine ⟨rfl, fun j => ?_⟩
  rw [Store.nodeAt_setNode]
  split
  · subst_vars; exact h
  · exact .refl _

/-- The descent of PushBit into a child, where there is one. -/
def pushChild (depth : Nat) (β : Bool) (c : Option NodeId) (st : Store) : Option Store :=
  match c with
  | none => some st
  | some c => pushBit depth β c st

/-- A PushBit that succeeds gives its node the bit, then descends left, then right. -/
theorem pushBit_succ_some {depth : Nat} {β : Bool} {i : NodeId} {st st' : Store} (h : pushBit (depth + 1) β i st = some st') :
    (st.nodeAt i).codeLength.toNat ≠ 32 ∧ ∃ st₁,
      pushChild depth β (st.nodeAt i).left (st.setNode i ((st.nodeAt i).pushBit β)) = some st₁
        ∧ pushChild depth β (st.nodeAt i).right st₁ = some st' := by
  unfold pushBit at h
  dsimp only at h
  split at h
  · cases h
  · rename_i hlen
    refine ⟨hlen, ?_⟩
    split at h
    · cases h
    · rename_i st₁ hl
      exact ⟨st₁, hl, h⟩

theorem pushBit_pushed {depth : Nat} {β : Bool} {i : NodeId} {st st' : Store} (h : pushBit depth β i st = some st') :
    st.Pushed st' := by
  induction depth generalizing i st st' with
  | zero => cases h; exact .refl _
  | succ depth ih =>
    have hchild : ∀ {c : Option NodeId} {a b : Store}, pushChild depth β c a = some b → a.Pushed b := by
      intro c a b hab
      cases c with
      | none => cases hab; exact .refl _
      | some c => exact ih hab
    obtain ⟨hlen, st₁, hl, hr⟩ := pushBit_succ_some h
    exact (Store.pushed_setNode (Node.pushed_pushBit β hlen)).trans ((hchild hl).trans (hchild hr))

theorem pushChild_pushed {depth : Nat} {β : Bool} {c : Option NodeId} {st st' : Store} (h : pushChild depth β c st = some st') :
    st.Pushed st' := by
  cases c with
  | none => cases h; exact .refl _
  | some c => exact pushBit_pushed h

/-- After a PushBit its node has a code of at least one bit. -/
theorem pushBit_length_pos {depth : Nat} {β : Bool} {i : NodeId} {st st' : Store} (h : pushBit (depth + 1) β i st = some st')
    (hlen : (st.nodeAt i).codeLength.toNat ≤ 32) : 1 ≤ (st'.nodeAt i).codeLength.toNat := by
  obtain ⟨hne, st₁, hl, hr⟩ := pushBit_succ_some h
  have hrest := ((pushChild_pushed hl).trans (pushChild_pushed hr)).2 i
  rw [Store.nodeAt_setNode, if_pos rfl] at hrest
  have := (st.nodeAt i).pushBit_length β (by omega)
  have := hrest.2 (by omega)
  omega

/-- Every child of a node of the store is a node of the store. -/
def Store.Closed (st : Store) : Prop :=
  ∀ i : NodeId, i.val < st.count.val → ∀ c ∈ Safety.childIds (st.nodeAt i), c.val < st.count.val

theorem Store.Closed.of_pushed {st st' : Store} (h : st.Closed) (hp : st.Pushed st') : st'.Closed := by
  intro i hi c hc
  rw [hp.count_eq] at hi ⊢
  rw [Node.childIds_eq_of_bare (hp.bare_eq i)] at hc
  exact h i hi c hc

/-- PushBit from a node of a dense, closed store writes listed slots only. -/
theorem pushBit_dense {depth : Nat} {β : Bool} {i : NodeId} {st st' : Store} (h : pushBit depth β i st = some st') (hd : st.Dense)
    (hc : st.Closed) (hi : i.val < st.count.val) : st'.Dense := by
  induction depth generalizing i st st' with
  | zero => cases h; exact hd
  | succ depth ih =>
    have hchild : ∀ {c : Option NodeId} {a b : Store}, pushChild depth β c a = some b → a.Dense → a.Closed →
        (∀ j ∈ c, j.val < a.count.val) → b.Dense := by
      intro c a b hab had hac hj
      cases c with
      | none => cases hab; exact had
      | some c => exact ih hab had hac (hj c rfl)
    obtain ⟨hlen, st₁, hl, hr⟩ := pushBit_succ_some h
    have hset : st.Pushed (st.setNode i ((st.nodeAt i).pushBit β)) := Store.pushed_setNode (Node.pushed_pushBit β hlen)
    have hleft := pushChild_pushed hl
    have hd₁ : st₁.Dense := hchild hl (hd.setNode hi _) (hc.of_pushed hset) fun j hj => hc i hi j (Node.mem_childIds.mpr (.inl hj))
    refine hchild hr hd₁ (hc.of_pushed (hset.trans hleft)) fun j hj => ?_
    rw [(hset.trans hleft).count_eq]
    exact hc i hi j (Node.mem_childIds.mpr (.inr hj))

end Sys2Proof.Machine
end

section
/-! PROOFS. What one pass of the merge loop does, and the invariant of the loop: a forest over the leaves, of which the positions below M
are merged (spec/41_tree_builder.md R134 to R140). -/

namespace Sys2Proof.Machine

/-- The positions of the collection hold a permutation of the ids (10_state.md R23). -/
def Store.PoolPerm (st : Store) : Prop := (st.scan.map Fin.val).Perm (List.range st.count.val)

section PoolPerm

variable {st : Store} (h : st.PoolPerm)
include h

theorem Store.PoolPerm.poolAt_lt {p : Nat} (hp : p < st.count.val) : (st.poolAt p).val < st.count.val := by
  refine List.mem_range.mp (h.subset (List.mem_map_of_mem ?_))
  rw [Store.scan_eq]
  exact List.mem_map_of_mem (List.mem_range.mpr hp)

theorem Store.PoolPerm.exists_poolAt_eq {k : Nat} (hk : k < st.count.val) : ∃ p, p < st.count.val ∧ (st.poolAt p).val = k := by
  have hmem := h.symm.subset (List.mem_range.mpr hk)
  rw [Store.scan_eq] at hmem
  simpa using hmem

theorem Store.PoolPerm.scan_nodup : st.scan.Nodup := (h.nodup_iff.mpr List.nodup_range).of_map _

theorem Store.PoolPerm.poolAt_inj {p q : Nat} (hp : p < st.count.val) (hq : q < st.count.val) (he : st.poolAt p = st.poolAt q) :
    p = q := by
  have hn := h.scan_nodup
  rw [Store.scan_eq] at hn
  exact List.inj_on_of_nodup_map hn (List.mem_range.mpr hp) (List.mem_range.mpr hq) he

end PoolPerm

/-! ### One pass -/

/-- What one pass of the merge loop makes of a store. -/
structure Store.MergeStep (m : Nat) (st st' : Store) : Prop where
  dense : st'.Dense
  count_eq : st'.count.val = st.count.val + 1
  byteCount_eq : st'.byteCount = st.byteCount
  maxFreq_eq : st'.maxFreq = st.maxFreq
  new_node : st'.nodeAt (nodeId st.count.val) = st.mergedNode (st.poolAt m) (st.poolAt (m + 1))
  old_node : ∀ j : NodeId, j.val ≠ st.count.val → (st.nodeAt j).Pushed (st'.nodeAt j)
  coded : ∀ p, p = m ∨ p = m + 1 → (st.nodeAt (st.poolAt p)).codeLength.toNat ≤ 32 →
    1 ≤ (st'.nodeAt (st.poolAt p)).codeLength.toNat
  poolAt_eq : ∀ p, p < m + 2 → st'.poolAt p = st.poolAt p
  scan_perm : st'.scan.Perm (st.scan ++ [nodeId st.count.val])

theorem Store.mergedNode_of_pushed {st st' : Store} (h : st.Pushed st') (a b : NodeId) : st'.mergedNode a b = st.mergedNode a b := by
  simp [Store.mergedNode, Node.frequency_eq_of_bare (h.bare_eq a), Node.frequency_eq_of_bare (h.bare_eq b)]

theorem Store.scan_of_pushed {st st' : Store} (h : st.Pushed st') : st'.scan = st.scan := by
  rw [Store.scan_eq, Store.scan_eq, h.count_eq]
  exact List.map_congr_left fun p _ => h.poolAt_eq p

theorem mergeOnce_step {m : Nat} {st st' : Store} (hd : st.Dense) (hcl : st.Closed) (hp : st.PoolPerm) (hm : m + 1 < st.count.val)
    (hc : st.count.val < 511) (h : st.mergeOnce m = some st') : st.MergeStep m st' := by
  obtain ⟨st₁, st₂, ha, hb, rfl⟩ := mergeOnce_some h
  have hpush₁ := pushBit_pushed ha
  have hpush₂ := pushBit_pushed hb
  have hpush := hpush₁.trans hpush₂
  have hat : (st.poolAt m).val < st.count.val := hp.poolAt_lt (by omega)
  have hbt : (st.poolAt (m + 1)).val < st.count.val := hp.poolAt_lt hm
  have hd₁ := pushBit_dense ha hd hcl hat
  have hd₂ := pushBit_dense hb hd₁ (hcl.of_pushed hpush₁) (by rwa [hpush₁.count_eq])
  have hcv : st₂.count.val = st.count.val := by rw [hpush.count_eq]
  have hc₂ : st₂.count.val < 511 := by omega
  have hold : ∀ j : NodeId, j.val ≠ st.count.val →
      (st₂.addNode (st₂.mergedNode (st.poolAt m) (st.poolAt (m + 1)))).nodeAt j = st₂.nodeAt j := fun j hj => by
    rw [Store.nodeAt_addNode, if_neg (by rwa [hcv])]
  constructor
  case dense => exact (hd₂.addNode hc₂ _).sortFrom (by rw [Store.count_addNode hc₂]; omega)
  case count_eq => rw [Store.sortFrom_count, Store.count_addNode hc₂, hcv]
  case byteCount_eq => exact hpush.byteCount_eq
  case maxFreq_eq => exact hpush.maxFreq_eq
  case new_node =>
    rw [Store.nodeAt_sortFrom, Store.nodeAt_addNode, if_pos (by rw [nodeId_val hc, hcv]), Store.mergedNode_of_pushed hpush]
  case old_node =>
    intro j hj
    rw [Store.nodeAt_sortFrom, hold j hj]
    exact hpush.2 j
  case coded =>
    rintro p (rfl | rfl) hlen
    · rw [Store.nodeAt_sortFrom, hold _ hat.ne]
      have hl₁ : ((st.nodeAt (st.poolAt p)).codeLength.toNat ≤ _) ∧ _ := (hpush₁.2 (st.poolAt p)).2 hlen
      exact (pushBit_length_pos ha hlen).trans ((hpush₂.2 _).2 hl₁.2).1
    · rw [Store.nodeAt_sortFrom, hold _ hbt.ne]
      exact pushBit_length_pos hb ((hpush₁.2 _).2 hlen).2
  case poolAt_eq =>
    intro p hpm
    rw [Store.poolAt_sortFrom_lt _ hpm, Store.poolAt_addNode, if_neg (by omega), hpush.poolAt_eq]
  case scan_perm =>
    refine (Store.scan_sortFrom_perm _ (by rw [Store.count_addNode hc₂]; omega)).trans ?_
    rw [Store.scan_addNode hc₂, Store.scan_of_pushed hpush, hcv]

/-! ### The invariant of the loop -/

/-- The store in the merge loop, over leaves with the values and frequencies `ls`: the positions below `m` are merged, each with a code;
the slots after the leaves are internal nodes whose children are exactly the merged nodes; once one node is left unmerged it is the last
one made. -/
structure Forest (ls : List (Byte × Word)) (m : Nat) (st : Store) : Prop where
  dense : st.Dense
  perm : st.PoolPerm
  count_eq : 2 * st.count.val = 2 * ls.length + m
  lt_count : m < st.count.val
  leaf : ∀ k (h : k < ls.length), (st.nodeAt (nodeId k)).bare = Node.leaf ls[k].1 ls[k].2
  inner : ∀ i : NodeId, ls.length ≤ i.val → i.val < st.count.val → (st.nodeAt i).isLeaf = false
  wf : ∀ i : NodeId, i.val < st.count.val → Safety.NodeWf i.val (st.nodeAt i)
  children : (List.range st.count.val).flatMap st.childrenAt = (List.range m).map st.poolAt
  short : ∀ i : NodeId, i.val < st.count.val → (st.nodeAt i).codeLength.toNat ≤ 32
  coded : ∀ p, p < m → 1 ≤ (st.nodeAt (st.poolAt p)).codeLength.toNat
  last : m + 1 = st.count.val → (st.poolAt m).val = m
  last_code : m + 1 = st.count.val → 0 < m → (st.nodeAt (st.poolAt m)).code = 0 ∧ (st.nodeAt (st.poolAt m)).codeLength = 0

section Forest

variable {ls : List (Byte × Word)} {m : Nat} {st st' : Store}

theorem Forest.closed (h : Forest ls m st) : st.Closed := fun i hi _ hc => (Node.child_lt_of_nodeWf (h.wf i hi) hc).trans hi

/-- The internal node is a well-formed slot. -/
theorem Forest.nodeWf_merged (h : Forest ls m st) (hm : m + 1 < st.count.val) :
    Safety.NodeWf st.count.val (st.mergedNode (st.poolAt m) (st.poolAt (m + 1))) := by
  refine .inr ⟨_, rfl, _, rfl, h.perm.poolAt_lt (by omega), h.perm.poolAt_lt hm, fun he => ?_⟩
  have := h.perm.poolAt_inj (by omega) hm he
  omega

/-- A slot of the store after a pass is the new one or an old one with pushes. -/
theorem Store.MergeStep.slot_cases (hs : st.MergeStep m st') (hc : st.count.val < 511) {i : NodeId} (hi : i.val < st'.count.val) :
    (i.val = st.count.val ∧ st'.nodeAt i = st.mergedNode (st.poolAt m) (st.poolAt (m + 1)))
      ∨ (i.val < st.count.val ∧ (st.nodeAt i).Pushed (st'.nodeAt i)) := by
  rw [hs.count_eq] at hi
  by_cases he : i.val = st.count.val
  · refine .inl ⟨he, ?_⟩
    have : i = nodeId st.count.val := Fin.ext (by rw [nodeId_val hc, he])
    rw [this, hs.new_node]
  · exact .inr ⟨by omega, hs.old_node i he⟩

theorem Store.MergeStep.poolPerm (hs : st.MergeStep m st') (hp : st.PoolPerm) (hc : st.count.val < 511) : st'.PoolPerm := by
  unfold Store.PoolPerm
  rw [hs.count_eq, List.range_succ]
  refine (hs.scan_perm.map _).trans ?_
  rw [List.map_append, List.map_singleton, nodeId_val hc]
  exact hp.append_right _

theorem Store.MergeStep.children (hs : st.MergeStep m st') (hc : st.count.val < 511)
    (h : (List.range st.count.val).flatMap st.childrenAt = (List.range m).map st.poolAt) :
    (List.range st'.count.val).flatMap st'.childrenAt = (List.range (m + 2)).map st'.poolAt := by
  have hold : (List.range st.count.val).flatMap st'.childrenAt = (List.range st.count.val).flatMap st.childrenAt := by
    refine List.flatMap_congr fun k hk => ?_
    have hk := List.mem_range.mp hk
    have hv : (nodeId k).val = k := nodeId_val (by omega)
    exact Node.childIds_eq_of_bare (hs.old_node (nodeId k) (by omega)).1
  have hpool : (List.range (m + 2)).map st'.poolAt = (List.range (m + 2)).map st.poolAt :=
    List.map_congr_left fun p hp => hs.poolAt_eq p (List.mem_range.mp hp)
  rw [hs.count_eq, List.range_succ, List.flatMap_append, hold, h, hpool, List.flatMap_singleton, Store.childrenAt, hs.new_node]
  simp [Safety.childIds, Store.mergedNode, List.range_succ]

/-- One pass keeps the invariant of the loop. -/
theorem Forest.mergeOnce (hL : ls.length ≤ 256) (h : Forest ls m st) (hm : m + 1 < st.count.val) (ho : st.mergeOnce m = some st') :
    Forest ls (m + 2) st' := by
  have hcount := h.count_eq
  have hc : st.count.val < 511 := by omega
  have hs := mergeOnce_step h.dense h.closed h.perm hm hc ho
  have hperm := hs.poolPerm h.perm hc
  have hcount' := hs.count_eq
  have hlast : m + 2 + 1 = st'.count.val → st'.poolAt (m + 2) = nodeId st.count.val := fun he => by
    obtain ⟨p, hp, hpv⟩ := hperm.exists_poolAt_eq (k := st.count.val) (by omega)
    have hpm : p = m + 2 := by
      by_contra hne
      have hlt := h.perm.poolAt_lt (p := p) (by omega)
      rw [hs.poolAt_eq p (by omega)] at hpv
      omega
    rw [← hpm]
    exact Fin.ext (by rw [hpv, nodeId_val hc])
  constructor
  case dense => exact hs.dense
  case perm => exact hperm
  case count_eq => omega
  case lt_count => omega
  case leaf =>
    intro k hk
    have hv : (nodeId k).val = k := nodeId_val (by omega)
    exact (hs.old_node (nodeId k) (by omega)).1.trans (h.leaf k hk)
  case inner =>
    intro i hle hi
    rcases hs.slot_cases hc hi with ⟨-, hn⟩ | ⟨hlt, hn⟩
    · rw [hn]; rfl
    · rw [Node.isLeaf_eq_of_bare hn.1]
      exact h.inner i hle hlt
  case wf =>
    intro i hi
    rcases hs.slot_cases hc hi with ⟨he, hn⟩ | ⟨hlt, hn⟩
    · rw [hn, he]; exact h.nodeWf_merged hm
    · exact Node.nodeWf_of_bare hn.1 (h.wf i hlt)
  case children => exact hs.children hc h.children
  case short =>
    intro i hi
    rcases hs.slot_cases hc hi with ⟨-, hn⟩ | ⟨hlt, hn⟩
    · rw [hn]; exact Nat.zero_le 32
    · exact (hn.2 (h.short i hlt)).2
  case coded =>
    intro p hp
    have hlt := h.perm.poolAt_lt (p := p) (by omega)
    rw [hs.poolAt_eq p hp]
    by_cases hpm : p < m
    · exact (h.coded p hpm).trans ((hs.old_node _ hlt.ne).2 (h.short _ hlt)).1
    · exact hs.coded p (by omega) (h.short _ hlt)
  case last =>
    intro he
    rw [hlast he, nodeId_val hc]
    omega
  case last_code =>
    intro he _
    rw [hlast he, hs.new_node]
    exact ⟨rfl, rfl⟩

/-- Before the first pass, pushes on listed slots keep the invariant. -/
theorem Forest.of_pushed (h : Forest ls 0 st) (hp : st.Pushed st') (hd : st'.Dense) : Forest ls 0 st' := by
  have hcount := hp.count_eq
  have hchild : st'.childrenAt = st.childrenAt := funext fun k => Node.childIds_eq_of_bare (hp.bare_eq _)
  constructor
  case dense => exact hd
  case perm => unfold Store.PoolPerm; rw [Store.scan_of_pushed hp, hcount]; exact h.perm
  case count_eq => rw [hcount]; exact h.count_eq
  case lt_count => rw [hcount]; exact h.lt_count
  case leaf => exact fun k hk => (hp.bare_eq _).trans (h.leaf k hk)
  case inner =>
    intro i hle hi
    rw [hcount] at hi
    rw [Node.isLeaf_eq_of_bare (hp.bare_eq i)]
    exact h.inner i hle hi
  case wf =>
    intro i hi
    rw [hcount] at hi
    exact Node.nodeWf_of_bare (hp.bare_eq i) (h.wf i hi)
  case children => rw [hcount, hchild]; exact h.children
  case short =>
    intro i hi
    rw [hcount] at hi
    exact ((hp.2 i).2 (h.short i hi)).2
  case coded => exact fun p hp0 => absurd hp0 (Nat.not_lt_zero p)
  case last => intro he; rw [hcount] at he; rw [hp.poolAt_eq]; exact h.last he
  case last_code => exact fun _ h0 => absurd h0 (lt_irrefl 0)

end Forest

/-! ### The loop -/

theorem mergeLoop_succ_cases {passes : Nat} {s t : State} (h : mergeLoop (passes + 1) s = .ok t) :
    (s.store.count.val ≤ s.scratch.m.toNat + 1 ∧ t = s)
      ∨ (s.scratch.m.toNat + 1 < s.store.count.val ∧ ∃ st, s.store.mergeOnce s.scratch.m.toNat = some st
        ∧ mergeLoop passes { s with store := st, scratch := { s.scratch with m := s.scratch.m + 2 } } = .ok t) := by
  unfold mergeLoop at h
  split at h
  · rename_i hgt
    split at h
    · cases h
    · rename_i st hst
      exact .inr ⟨by omega, st, hst, h⟩
  · cases h
    exact .inl ⟨by omega, rfl⟩

/-- The loop ends with one unmerged node, the invariant kept and the summary registers as they were. -/
theorem mergeLoop_ok {ls : List (Byte × Word)} {passes : Nat} {s t : State} (hL : ls.length ≤ 256)
    (hf : Forest ls s.scratch.m.toNat s.store) (hp : s.store.count.val ≤ s.scratch.m.toNat + passes + 1)
    (h : mergeLoop passes s = .ok t) :
    ∃ m, Forest ls m t.store ∧ m + 1 = t.store.count.val ∧ t.store.byteCount = s.store.byteCount
      ∧ t.store.maxFreq = s.store.maxFreq ∧ (ls.length = 1 → t.store = s.store) := by
  have hlt := hf.lt_count
  induction passes generalizing s with
  | zero =>
    cases h
    exact ⟨_, hf, by omega, rfl, rfl, fun _ => rfl⟩
  | succ passes ih =>
    rcases mergeLoop_succ_cases h with ⟨hle, rfl⟩ | ⟨hm, st, hst, hrest⟩
    · exact ⟨_, hf, by omega, rfl, rfl, fun _ => rfl⟩
    · have hcount := hf.count_eq
      have hstep := mergeOnce_step hf.dense hf.closed hf.perm hm (by omega) hst
      have hcount' := hstep.count_eq
      have hm2 : (s.scratch.m + 2).toNat = s.scratch.m.toNat + 2 := by
        have h1 : (s.scratch.m + 2).toNat = (s.scratch.m.toNat + 2) % 1024 := BitVec.toNat_add _ _
        omega
      have hf' : Forest ls (s.scratch.m + 2).toNat st := by rw [hm2]; exact hf.mergeOnce hL hm hst
      obtain ⟨m, hfm, hme, hb, hx, -⟩ := ih hf' (by dsimp only; omega) hrest hf'.lt_count
      exact ⟨m, hfm, hme, hb.trans hstep.byteCount_eq, hx.trans hstep.maxFreq_eq, fun h1 => by omega⟩

end Sys2Proof.Machine
end

section
/-! PROOFS. Stores that list leaves in the order of their ids: what LOAD makes of a table (spec/45_tree_codec.md R222) and what the scan of
the frequency table makes (40_frequency_table.md R124). -/

namespace Sys2Proof.Machine

/-- NODE lists exactly these nodes from slot 0 upward, and position `k` of POOL holds the id `k`. -/
structure Store.Lists (ns : List Node) (st : Store) : Prop where
  node : st.node = (List.range ns.length).zip ns
  pool : st.pool = (List.range ns.length).map fun k => (k, nodeId k)

theorem zip_range_append {α : Type} (xs : List α) (x : α) :
    (List.range (xs ++ [x]).length).zip (xs ++ [x]) = (List.range xs.length).zip xs ++ [(xs.length, x)] := by
  rw [List.length_append, List.length_singleton, List.range_succ, List.zip_append (by simp)]
  rfl

section Lists

variable {ns : List Node} {st : Store}

theorem Store.lists_nil (hn : st.node = []) (hp : st.pool = []) : st.Lists [] := ⟨hn, hp⟩

theorem Store.Lists.node_dense (h : st.Lists ns) : st.node.Dense ns.length := by
  rw [Ram.Dense, h.node]
  exact List.map_fst_zip (by simp)

theorem Store.Lists.pool_dense (h : st.Lists ns) : st.pool.Dense ns.length := by
  rw [Ram.Dense, h.pool, List.map_map]
  exact List.map_id _

theorem Store.Lists.node_write (h : st.Lists ns) (n : Node) :
    st.node.write ns.length n = (List.range (ns ++ [n]).length).zip (ns ++ [n]) := by
  rw [h.node_dense.write_end, h.node, zip_range_append]

theorem Store.Lists.pool_write (h : st.Lists ns) (n : Node) :
    st.pool.write ns.length (nodeId ns.length) = (List.range (ns ++ [n]).length).map fun k => (k, nodeId k) := by
  rw [h.pool_dense.write_end, h.pool, List.length_append, List.length_singleton, List.range_succ, List.map_append]
  rfl

theorem Store.Lists.addNode (h : st.Lists ns) (hc : st.count.val = ns.length) (n : Node) : (st.addNode n).Lists (ns ++ [n]) :=
  ⟨by rw [Store.addNode_node, hc]; exact h.node_write n, by rw [Store.addNode_pool, hc]; exact h.pool_write n⟩

theorem Store.Lists.putRecord (h : st.Lists ns) (v : Byte) (c : Word) (l : BitVec 8) :
    (st.putRecord ns.length v c l).Lists (ns ++ [Safety.recordLeaf (v, c, l)]) :=
  ⟨h.node_write _, h.pool_write _⟩

theorem Store.Lists.dense (h : st.Lists ns) (hc : st.count.val = ns.length) : st.Dense :=
  ⟨by rw [hc]; exact h.node_dense, by rw [hc]; exact h.pool_dense⟩

theorem Store.Lists.nodeAt (h : st.Lists ns) (hl : ns.length ≤ 511) {k : Nat} (hk : k < ns.length) :
    st.nodeAt (nodeId k) = ns[k] := by
  have hmem : (k, ns[k]) ∈ st.node := by
    rw [h.node, List.mem_iff_getElem]
    exact ⟨k, by simpa using hk, by simp⟩
  have hread : st.node.read k = some ns[k] := Ram.read_eq_some_of_mem h.node_dense.pairwise hmem
  simp [Store.nodeAt, nodeId_val (show k < 511 by omega), hread]

theorem Store.Lists.poolAt (h : st.Lists ns) {k : Nat} (hk : k < ns.length) : st.poolAt k = nodeId k := by
  have hmem : (k, nodeId k) ∈ st.pool := by
    rw [h.pool]
    exact List.mem_map_of_mem (f := fun k => (k, nodeId k)) (List.mem_range.mpr hk)
  have hread : st.pool.read k = some (nodeId k) := Ram.read_eq_some_of_mem h.pool_dense.pairwise hmem
  simp [Store.poolAt, hread]

theorem Store.Lists.poolPerm (h : st.Lists ns) (hc : st.count.val = ns.length) : st.PoolPerm := by
  have hval : ((List.range st.count.val).map st.poolAt).map Fin.val = List.range st.count.val := by
    rw [List.map_map]
    conv_rhs => rw [← List.map_id (List.range st.count.val)]
    refine List.map_congr_left fun k hk => ?_
    have hk := List.mem_range.mp hk
    have hlt := st.count.isLt
    rw [Function.comp_apply, h.poolAt (by omega), nodeId_val (by omega), id]
  rw [Store.PoolPerm, Store.scan_eq, hval]

/-- Every slot of a list of leaves is a leaf. -/
theorem Store.Lists.isLeaf (h : st.Lists ns) (hc : st.count.val = ns.length) (hleaf : ∀ n ∈ ns, n.isLeaf = true) {i : NodeId}
    (hi : i.val < st.count.val) : (st.nodeAt i).isLeaf = true := by
  have hlt := st.count.isLt
  have hid : nodeId i.val = i := Fin.ext (nodeId_val i.isLt)
  rw [← hid, h.nodeAt (by omega) (show i.val < ns.length by omega)]
  exact hleaf _ (List.getElem_mem _)

theorem Store.Lists.children_nil (h : st.Lists ns) (hc : st.count.val = ns.length) (hleaf : ∀ n ∈ ns, n.isLeaf = true) :
    (List.range st.count.val).flatMap st.childrenAt = [] := by
  rw [List.flatMap_eq_nil_iff]
  intro k hk
  have hk := List.mem_range.mp hk
  have hlt := st.count.isLt
  exact Node.childIds_of_isLeaf (h.isLeaf hc hleaf (by rwa [nodeId_val (by omega)]))

/-- A store of listed leaves without a root and without totals is well formed: what LOAD leaves. -/
theorem Store.Lists.storeWf (h : st.Lists ns) (hc : st.count.val = ns.length) (hleaf : ∀ n ∈ ns, n.isLeaf = true)
    (hroot : st.root = none) (hbytes : st.byteCount = 0) (hmax : st.maxFreq = 0) : Safety.StoreWf st := by
  refine storeWf_of_dense (h.dense hc) (h.poolPerm hc) (fun i hi => Node.nodeWf_of_isLeaf _ (h.isLeaf hc hleaf hi)) ?_ ?_
    fun _ => ⟨hbytes, hmax, hroot⟩
  · rw [h.children_nil hc hleaf]
    exact List.nodup_nil
  · simp [hroot]

end Lists

/-! ### LOAD -/

theorem Source.skip_skip (src : Source) (a b : Nat) : (src.skip a).skip b = src.skip (a + b) := by
  simp [Source.skip, Nat.add_assoc]

/-- The records of a table segment read into the store: as many leaves more, the source as many records on, nothing else changed. -/
theorem loadRecords_lists {n : Nat} {ns : List Node} {bytes : List Byte} {s : State} (hs : s.store.Lists ns)
    (hleaf : ∀ x ∈ ns, x.isLeaf = true) (hlen : 6 * n ≤ bytes.length) :
    ∃ ns', (loadRecords n ns.length bytes s).store.Lists ns' ∧ ns'.length = ns.length + n ∧ (∀ x ∈ ns', x.isLeaf = true)
      ∧ loadRecords n ns.length bytes s
        = { s with store := (loadRecords n ns.length bytes s).store, source := s.source.skip (6 * n) } := by
  induction n generalizing ns bytes s with
  | zero => exact ⟨ns, hs, rfl, hleaf, rfl⟩
  | succ n ih =>
    match bytes, hlen with
    | v :: c0 :: c1 :: c2 :: c3 :: l :: bs, hlen =>
      have hs₁ := hs.putRecord v (word32 c0 c1 c2 c3) l
      have hleaf₁ : ∀ x ∈ ns ++ [Safety.recordLeaf (v, word32 c0 c1 c2 c3, l)], x.isLeaf = true := by
        simpa [or_imp, forall_and] using ⟨hleaf, rfl⟩
      obtain ⟨ns', hs', hlen', hleaf', heq⟩ := ih (bytes := bs)
        (s := (s.srcSkip Config.recBytes).mapStore (Store.putRecord ns.length v (word32 c0 c1 c2 c3) l)) hs₁ hleaf₁
        (by simp only [List.length_cons] at hlen; omega)
      rw [List.length_append, List.length_singleton] at hs' hlen' heq
      refine ⟨ns', hs', by omega, hleaf', ?_⟩
      rw [loadRecords, heq, show 6 * (n + 1) = 6 + 6 * n by omega, ← Source.skip_skip]
      rfl

/-! ### Leaf creation -/

/-- The leaves that the scan of these byte values makes of a frequency table. -/
def Scratch.seenLeaves (sc : Scratch) (bs : List Byte) : List (Byte × Word) :=
  (bs.filter fun v => (sc.ftAt v).seen).map fun v => (v, (sc.ftAt v).frequency)

/-- The leaf of a value and its frequency. -/
abbrev Node.leafOf (l : Byte × Word) : Node := .leaf l.1 l.2

theorem foldl_createLeaf_lists {sc : Scratch} {bs : List Byte} {ns : List Node} {st : Store} (hs : st.Lists ns)
    (hc : st.count.val = ns.length) (hlen : ns.length + bs.length < 511) :
    (bs.foldl (Store.createLeaf sc) st).Lists (ns ++ (sc.seenLeaves bs).map Node.leafOf)
      ∧ (bs.foldl (Store.createLeaf sc) st).count.val = ns.length + (sc.seenLeaves bs).length
      ∧ (bs.foldl (Store.createLeaf sc) st).byteCount = st.byteCount
      ∧ (bs.foldl (Store.createLeaf sc) st).maxFreq = st.maxFreq := by
  induction bs generalizing ns st with
  | nil => simpa [Scratch.seenLeaves] using ⟨hs, hc⟩
  | cons v bs ih =>
    simp only [List.length_cons] at hlen
    rw [List.foldl_cons, Store.createLeaf]
    cases hv : (sc.ftAt v).seen with
    | false => simpa [Scratch.seenLeaves, hv] using ih hs hc (by omega)
    | true =>
      have hc₁ : (st.addNode (.leaf v (sc.ftAt v).frequency)).count.val = (ns ++ [Node.leaf v (sc.ftAt v).frequency]).length := by
        rw [Store.count_addNode (by omega), hc, List.length_append, List.length_singleton]
      have := ih (hs.addNode hc (.leaf v (sc.ftAt v).frequency)) hc₁ (by rw [List.length_append, List.length_singleton]; omega)
      simpa [Scratch.seenLeaves, Node.leafOf, hv, Nat.add_assoc, Nat.add_comm 1] using this

/-! ### The forest the merge loop starts from -/

/-- The sorted pool over listed leaves is a forest of which nothing is merged. -/
theorem forest_of_lists {ls : List (Byte × Word)} {st : Store} (h : st.Lists (ls.map Node.leafOf)) (hc : st.count.val = ls.length)
    (hne : ls ≠ []) (hL : ls.length ≤ 256) : Forest ls 0 (st.sortFrom 0) := by
  have hc' : st.count.val = (ls.map Node.leafOf).length := by rw [List.length_map, hc]
  have hpos := List.length_pos_iff.mpr hne
  have hleaf : ∀ n ∈ ls.map Node.leafOf, n.isLeaf = true := by
    simp only [List.mem_map]
    rintro n ⟨l, -, rfl⟩
    rfl
  have hnode : ∀ k (hk : k < ls.length), st.nodeAt (nodeId k) = Node.leafOf ls[k] := fun k hk => by
    rw [h.nodeAt (by rw [List.length_map]; omega) (by rwa [List.length_map]), List.getElem_map]
  have hperm := Store.scan_sortFrom_perm st (Nat.zero_le st.count.val)
  have hpp : (st.sortFrom 0).PoolPerm := (hperm.map _).trans (h.poolPerm hc')
  constructor
  case dense => exact (h.dense hc').sortFrom (Nat.zero_le _)
  case perm => exact hpp
  case count_eq => rw [Store.sortFrom_count, hc]; rfl
  case lt_count => rwa [Store.sortFrom_count, hc]
  case leaf =>
    intro k hk
    rw [Store.nodeAt_sortFrom, hnode k hk]
    rfl
  case inner => intro i hle hi; rw [Store.sortFrom_count] at hi; omega
  case wf => exact fun i hi => Node.nodeWf_of_isLeaf _ (h.isLeaf hc' hleaf hi)
  case children => exact h.children_nil hc' hleaf
  case short =>
    intro i hi
    rw [Store.sortFrom_count] at hi
    have hid : nodeId i.val = i := Fin.ext (nodeId_val i.isLt)
    rw [Store.nodeAt_sortFrom, ← hid, hnode i.val (by omega)]
    exact Nat.zero_le 32
  case coded => exact fun p hp0 => absurd hp0 (Nat.not_lt_zero p)
  case last =>
    intro he
    have := hpp.poolAt_lt (p := 0) (by omega)
    omega
  case last_code => exact fun _ h0 => absurd h0 (lt_irrefl 0)

end Sys2Proof.Machine
end

section
/-! PROOFS. The frequency pass against `List.count` (spec/40_frequency_table.md R121 to R127), and BUILD's lines up to the merge phase. -/

namespace Sys2Proof.Machine

open Sys2Proof.Safety

/-! ### The byte values -/

theorem mem_byteValues (v : Byte) : v ∈ byteValues :=
  List.mem_map.mpr ⟨v.toNat, List.mem_range.mpr v.isLt, by simp⟩

theorem byteValues_pairwise : byteValues.Pairwise (· < ·) := by
  rw [byteValues, List.pairwise_map]
  refine List.pairwise_lt_range.imp_of_mem fun {a b} ha hb hab => ?_
  have ha' : a < 256 := List.mem_range.mp ha
  have hb' : b < 256 := List.mem_range.mp hb
  rw [BitVec.lt_def, BitVec.toNat_ofNat, BitVec.toNat_ofNat]
  omega

theorem byteValues_nodup : byteValues.Nodup := byteValues_pairwise.imp fun h he => by
  rw [he, BitVec.lt_def] at h
  exact lt_irrefl _ h

theorem length_byteValues : byteValues.length = 256 := by simp [byteValues]

/-- The byte values that occur in an input, ascending. -/
def seenValues (input : List Byte) : List Byte := byteValues.filter fun v => decide (v ∈ input)

theorem mem_seenValues {input : List Byte} {v : Byte} : v ∈ seenValues input ↔ v ∈ input := by
  simp [seenValues, mem_byteValues]

theorem length_seenValues (input : List Byte) : (seenValues input).length = distinct input := by
  refine List.Perm.length_eq ((List.perm_ext_iff_of_nodup (byteValues_nodup.filter _) (List.nodup_dedup input)).mpr fun v => ?_)
  rw [List.mem_dedup]
  exact mem_seenValues

theorem distinct_le (input : List Byte) : distinct input ≤ 256 := by
  rw [← length_seenValues, ← length_byteValues]
  exact List.length_filter_le _ _

theorem distinct_pos_iff (input : List Byte) : 0 < distinct input ↔ input ≠ [] := by
  rw [distinct, List.length_pos_iff, ne_eq, List.dedup_eq_nil]

theorem distinct_append_singleton (pre : List Byte) (v : Byte) :
    distinct (pre ++ [v]) = if v ∈ pre then distinct pre else distinct pre + 1 := by
  have hset : (pre ++ [v]).toFinset = insert v pre.toFinset := by
    ext x
    simp
  rw [distinct, ← List.card_toFinset, hset, distinct, ← List.card_toFinset]
  split
  · rename_i hv
    rw [Finset.insert_eq_of_mem (List.mem_toFinset.mpr hv)]
  · rename_i hv
    exact Finset.card_insert_of_notMem (mt List.mem_toFinset.mp hv)

/-! ### The counting pass -/

/-- The frequency table after these bytes have been counted. -/
structure Counted (pre : List Byte) (sc : Scratch) : Prop where
  table : ∀ v, sc.ftAt v = { seen := decide (v ∈ pre), frequency := BitVec.ofNat 32 (pre.count v) }
  lcount : sc.lcount = BitVec.ofNat 9 (distinct pre)
  total : sc.total = BitVec.ofNat 33 pre.length
  ft_wf : Ram.wf Config.symbols sc.ft = true

theorem counted_clearTable (sc : Scratch) : Counted [] sc.clearTable := by
  refine ⟨fun v => ?_, rfl, rfl, sc.ftWf_clearTable⟩
  have hd : Ram.Dense 256 sc.clearTable.ft := by simp [Ram.Dense, Scratch.clearTable, Function.comp_def]
  have hmem : (v.toNat, (⟨false, 0⟩ : Symbol)) ∈ sc.clearTable.ft :=
    List.mem_map_of_mem (f := fun v => (v, (⟨false, 0⟩ : Symbol))) (List.mem_range.mpr v.isLt)
  have hread : sc.clearTable.ft.read v.toNat = some ⟨false, 0⟩ := Ram.read_eq_some_of_mem hd.pairwise hmem
  simp [Scratch.ftAt, hread]

theorem Scratch.ftAt_countByte (sc : Scratch) (u v : Byte) :
    (sc.countByte u).ftAt v = if v = u then { seen := true, frequency := (sc.ftAt u).frequency + 1 } else sc.ftAt v :=
  sc.ftAt_setFt u v _

theorem Counted.countByte {pre : List Byte} {sc : Scratch} (h : Counted pre sc) (v : Byte) : Counted (pre ++ [v]) (sc.countByte v) := by
  constructor
  case table =>
    intro u
    rw [Scratch.ftAt_countByte, h.table, h.table]
    by_cases hu : u = v
    · simp [hu, BitVec.ofNat_add]
    · have hu' : v ≠ u := fun e => hu e.symm
      simp [hu, hu']
  case lcount =>
    rw [Scratch.countByte_lcount, h.table, h.lcount, distinct_append_singleton]
    by_cases hv : v ∈ pre
    · simp [hv]
    · simp [hv, BitVec.ofNat_add]
  case total => rw [Scratch.countByte_total, h.total, List.length_append, List.length_singleton, BitVec.ofNat_add]; rfl
  case ft_wf => exact Scratch.ftWf_countByte h.ft_wf v

theorem Counted.total_eq_max_iff {pre : List Byte} {sc : Scratch} (h : Counted pre sc) (hlen : pre.length ≤ Config.maxInput) :
    sc.total = BitVec.ofNat 33 Config.maxInput ↔ pre.length = Config.maxInput := by
  rw [h.total, ← BitVec.toNat_inj, BitVec.toNat_ofNat, BitVec.toNat_ofNat]
  unfold Config.maxInput at *
  omega

/-- The pass over an input: all of it is counted, or it is too long. -/
theorem countPass_cases {pre input : List Byte} {s : State} (hc : Counted pre s.scratch) (hpre : pre.length ≤ Config.maxInput) :
    ((pre ++ input).length ≤ Config.maxInput ∧ ∃ sc, Counted (pre ++ input) sc
        ∧ countPass input s = .ok { s with source := s.source.skip input.length, scratch := sc })
      ∨ (Config.maxInput < (pre ++ input).length ∧ ∃ n sc, Ram.wf Config.symbols sc.ft = true
        ∧ countPass input s = .error (.tooLong, { s with source := s.source.skip n, scratch := sc })) := by
  induction input generalizing pre s with
  | nil => exact .inl ⟨by simpa using hpre, s.scratch, by simpa using hc, rfl⟩
  | cons v vs ih =>
    by_cases hmax : pre.length = Config.maxInput
    · refine .inr ⟨by simp [hmax], 0, s.scratch, hc.ft_wf, ?_⟩
      rw [countPass, if_pos ((hc.total_eq_max_iff hpre).mpr hmax)]
      rfl
    · have hrest : countPass (v :: vs) s = countPass vs ((s.srcSkip 1).mapScratch (Scratch.countByte v)) := by
        rw [countPass, if_neg (mt (hc.total_eq_max_iff hpre).mp hmax)]
      have happ : pre ++ v :: vs = pre ++ [v] ++ vs := by simp
      have hlen : (pre ++ [v]).length ≤ Config.maxInput := by
        rw [List.length_append, List.length_singleton]
        omega
      rw [hrest, happ]
      rcases ih (s := (s.srcSkip 1).mapScratch (Scratch.countByte v)) (hc.countByte v) hlen with
        ⟨hle, sc, hsc, heq⟩ | ⟨hlt, n, sc, hsc, heq⟩
      · refine .inl ⟨hle, sc, hsc, ?_⟩
        rw [heq, List.length_cons, Nat.add_comm, ← Source.skip_skip]
        rfl
      · refine .inr ⟨hlt, 1 + n, sc, hsc, ?_⟩
        rw [heq, ← Source.skip_skip]
        rfl

/-! ### What the table gives the store -/

theorem Counted.lcount_toNat {input : List Byte} {sc : Scratch} (h : Counted input sc) : sc.lcount.toNat = distinct input := by
  have := distinct_le input
  rw [h.lcount, BitVec.toNat_ofNat]
  omega

theorem Counted.lcount_eq_zero_iff {input : List Byte} {sc : Scratch} (h : Counted input sc) : sc.lcount = 0 ↔ input = [] := by
  have h0 := distinct_pos_iff input
  rw [← BitVec.toNat_inj, h.lcount_toNat, show (0 : BitVec 9).toNat = 0 from rfl]
  by_cases hi : input = []
  · simp [hi, distinct]
  · simp only [hi, iff_false]
    have := h0.mpr hi
    omega

/-- The leaves of an input: its byte values in ascending order, each with its number of occurrences (R124). -/
def inputLeaves (input : List Byte) : List (Byte × Word) := (seenValues input).map fun v => (v, BitVec.ofNat 32 (input.count v))

theorem length_inputLeaves (input : List Byte) : (inputLeaves input).length = distinct input := by
  rw [inputLeaves, List.length_map, length_seenValues]

theorem Counted.seenLeaves_eq {input : List Byte} {sc : Scratch} (h : Counted input sc) :
    sc.seenLeaves byteValues = inputLeaves input := by
  simp [Scratch.seenLeaves, inputLeaves, seenValues, h.table]

theorem foldl_max_toNat (f : Byte → Word) (bs : List Byte) (m : Word) :
    (bs.foldl (fun m v => if m < f v then f v else m) m).toNat = (bs.map fun v => (f v).toNat).foldl max m.toNat := by
  induction bs generalizing m with
  | nil => rfl
  | cons v bs ih =>
    rw [List.foldl_cons, ih, List.map_cons, List.foldl_cons]
    congr 1
    split
    · rename_i hlt
      have : m.toNat < (f v).toNat := hlt
      omega
    · rename_i hlt
      have : ¬ m.toNat < (f v).toNat := hlt
      omega

theorem Counted.maxFrequency_toNat {input : List Byte} {sc : Scratch} (h : Counted input sc) (hlen : input.length ≤ Config.maxInput) :
    sc.maxFrequency.toNat = maxOccurrences input := by
  have hcount : ∀ v, (sc.ftAt v).frequency.toNat = input.count v := fun v => by
    have := List.count_le_length (a := v) (l := input)
    unfold Config.maxInput at hlen
    rw [h.table, BitVec.toNat_ofNat]
    omega
  rw [Scratch.maxFrequency, foldl_max_toNat, maxOccurrences]
  simp only [hcount]
  rfl

/-! ### BUILD up to the merge phase -/

/-- BUILD's state before the counting pass (R121, R131). -/
def countStart (s : State) : State := (s.releaseStore.setPhase .count).mapScratch Scratch.clearTable

/-- BUILD's lines after the counting pass: EmptyInput, or the totals, the leaves and the merge phase (R123 to R125). -/
def afterCount (s : State) : Run :=
  if s.scratch.lcount = 0 then .error (.emptyInput, s) else mergePhase (createLeaves (recordTotals s))

theorem buildRun_eq_bind {s : State} (h : checkStreams .build s = .ok s) :
    buildRun s = (countPass s.source.unread (countStart s)).bind afterCount := by
  unfold buildRun
  rw [h]
  dsimp only [State.setPhase_source, State.releaseStore_source]
  rw [← countStart]
  cases countPass s.source.unread (countStart s) <;> rfl

/-- BUILD's state after the frequency pass has counted its input. -/
def countedState (sc : Scratch) (s : State) : State :=
  { s.releaseStore.setPhase .count with source := s.source.skip s.source.unread.length, scratch := sc }

/-- BUILD's lines: one of the three faults before a leaf is made, or the merge phase over the leaves of the counted input. -/
theorem buildRun_cases (s : State) :
    buildRun s = .error (.unreadable, s)
      ∨ (∃ n sc, Ram.wf Config.symbols sc.ft = true ∧ Config.maxInput < s.source.unread.length
        ∧ buildRun s = .error (.tooLong, { s.releaseStore.setPhase .count with source := s.source.skip n, scratch := sc }))
      ∨ ∃ sc, Counted s.source.unread sc ∧ s.source.unread.length ≤ Config.maxInput ∧
        ((s.source.unread = [] ∧ buildRun s = .error (.emptyInput, countedState sc s))
          ∨ (s.source.unread ≠ [] ∧ buildRun s = mergePhase (createLeaves (recordTotals (countedState sc s))))) := by
  rcases checkStreams_cases .build s with ⟨hcs, -⟩ | ⟨-, hk, -⟩ | ⟨hcs, -⟩
  · exact .inl (by rw [buildRun, hcs])
  · cases hk
  · right
    rw [buildRun_eq_bind hcs]
    rcases countPass_cases (pre := []) (input := s.source.unread) (s := countStart s) (counted_clearTable _) (Nat.zero_le _) with
      ⟨hle, sc, hsc, heq⟩ | ⟨hlt, n, sc, hsc, heq⟩
    · refine .inr ⟨sc, hsc, hle, ?_⟩
      rw [heq]
      by_cases hi : s.source.unread = []
      · exact .inl ⟨hi, if_pos (hsc.lcount_eq_zero_iff.mpr hi)⟩
      · exact .inr ⟨hi, if_neg (mt hsc.lcount_eq_zero_iff.mp hi)⟩
    · refine .inl ⟨n, sc, hsc, hlt, ?_⟩
      rw [heq]
      rfl

theorem createLeaves_store (s : State) : (createLeaves s).store = byteValues.foldl (Store.createLeaf s.scratch) s.store := by
  rw [createLeaves, State.mapStore_store]

@[simp] theorem recordTotals_scratch (s : State) : (recordTotals s).scratch = s.scratch := rfl
@[simp] theorem recordTotals_node (s : State) : (recordTotals s).store.node = s.store.node := rfl
@[simp] theorem recordTotals_pool (s : State) : (recordTotals s).store.pool = s.store.pool := rfl
@[simp] theorem recordTotals_count (s : State) : (recordTotals s).store.count = s.store.count := rfl
@[simp] theorem recordTotals_byteCount (s : State) : (recordTotals s).store.byteCount = s.scratch.total.truncate 32 := rfl
@[simp] theorem recordTotals_maxFreq (s : State) : (recordTotals s).store.maxFreq = s.scratch.maxFrequency := by
  rw [recordTotals, State.mapStore_store]
@[simp] theorem countedState_scratch (sc : Scratch) (s : State) : (countedState sc s).scratch = sc := rfl
@[simp] theorem countedState_store (sc : Scratch) (s : State) : (countedState sc s).store = s.store.release := rfl
@[simp] theorem countedState_source (sc : Scratch) (s : State) :
    (countedState sc s).source = s.source.skip s.source.unread.length := rfl

/-- The store the merge phase starts from: the leaves of the input, and its totals. -/
theorem createLeaves_lists {sc : Scratch} {s : State} (h : Counted s.source.unread sc) :
    let st := (createLeaves (recordTotals (countedState sc s))).store
    st.Lists ((inputLeaves s.source.unread).map Node.leafOf) ∧ st.count.val = (inputLeaves s.source.unread).length
      ∧ st.byteCount = BitVec.ofNat 32 s.source.unread.length ∧ st.maxFreq = sc.maxFrequency := by
  have htotal : sc.total.truncate 32 = BitVec.ofNat 32 s.source.unread.length := by
    rw [h.total, BitVec.truncate_eq_setWidth, BitVec.setWidth_ofNat_of_le (by decide)]
  have hnil : (recordTotals (countedState sc s)).store.Lists [] := Store.lists_nil (by simp) (by simp)
  have hlists := foldl_createLeaf_lists (sc := sc) (bs := byteValues) hnil (by simp) (by rw [length_byteValues]; decide)
  rw [h.seenLeaves_eq, List.nil_append, List.length_nil, Nat.zero_add, recordTotals_byteCount, recordTotals_maxFreq,
    countedState_scratch, htotal] at hlists
  rw [createLeaves_store, recordTotals_scratch, countedState_scratch]
  exact hlists

end Sys2Proof.Machine
end

section
/-! PROOFS. The merge phase of BUILD and the store after a BUILD that ended OK (spec/10_state.md R28, 41_tree_builder.md R143, R144,
R148). -/

namespace Sys2Proof.Machine

open Sys2Proof.Safety

/-! ### The merge phase -/

/-- The merge phase at its first test: the pool sorted, M at 0, the code of a single leaf given (R132, R134, R148). -/
def mergeStart (s : State) : State :=
  singleLeafCode (((s.setPhase .merge).mapStore (Store.sortFrom 0)).mapScratch fun sc => { sc with m := 0 })

theorem mergePhase_eq_bind (s : State) :
    mergePhase s = (mergeLoop (mergeStart s).store.count.val (mergeStart s)).bind fun u => verifyTree (setRoot u) := by
  unfold mergePhase
  dsimp only
  rw [← mergeStart]
  cases mergeLoop (mergeStart s).store.count.val (mergeStart s) <;> rfl

/-- BUILD's checks hold of a state they let pass, and do not change it. -/
theorem verifyTree_ok {s t : State} (h : verifyTree s = .ok t) :
    t = s ∧ ∃ r, s.store.root = some r ∧ (s.store.nodeAt r).frequency = s.store.byteCount := by
  unfold verifyTree at h
  cases hr : s.store.root with
  | none => rw [hr] at h; cases h
  | some r =>
    rw [hr] at h
    dsimp only at h
    split at h
    · cases h
    · rename_i hf
      split at h
      · cases h
      · cases h
        exact ⟨rfl, r, rfl, not_not.mp hf⟩

theorem mergePhase_ok_cases {s t : State} (h : mergePhase s = .ok t) :
    ∃ u, mergeLoop (mergeStart s).store.count.val (mergeStart s) = .ok u ∧ t = setRoot u
      ∧ (t.store.nodeAt (t.store.poolAt (t.store.count.val - 1))).frequency = t.store.byteCount := by
  rw [mergePhase_eq_bind] at h
  cases hu : mergeLoop (mergeStart s).store.count.val (mergeStart s) with
  | error e => rw [hu] at h; cases h
  | ok u =>
    rw [hu] at h
    obtain ⟨rfl, r, hr, hf⟩ := verifyTree_ok (show verifyTree (setRoot u) = .ok t from h)
    have hr' : u.store.poolAt (u.store.count.val - 1) = r := Option.some.inj hr
    exact ⟨u, rfl, rfl, by rw [← hf, ← hr']; rfl⟩

theorem Store.pushed_singleLeaf (st : Store) (h : (st.nodeAt 0).codeLength.toNat ≤ 1) :
    st.Pushed (st.setNode 0 { st.nodeAt 0 with code := 0, codeLength := 1 }) := by
  refine Store.pushed_setNode ⟨rfl, fun _ => ⟨h, ?_⟩⟩
  exact (by decide : (1 : BitVec 8).toNat ≤ 32)

theorem singleLeafCode_cases (s : State) :
    (s.scratch.lcount ≠ 1 ∧ singleLeafCode s = s)
      ∨ (s.scratch.lcount = 1
        ∧ singleLeafCode s = s.mapStore fun st => st.setNode 0 { st.nodeAt 0 with code := 0, codeLength := 1 }) := by
  unfold singleLeafCode
  split
  · rename_i h1; exact .inr ⟨h1, rfl⟩
  · rename_i h1; exact .inl ⟨h1, rfl⟩

@[simp] theorem singleLeafCode_scratch (s : State) : (singleLeafCode s).scratch = s.scratch := by
  rcases singleLeafCode_cases s with ⟨-, h⟩ | ⟨-, h⟩ <;> rw [h]
  rfl

theorem mergeStart_m (s : State) : (mergeStart s).scratch.m.toNat = 0 := by
  rw [mergeStart, singleLeafCode_scratch]
  rfl

/-- The loop starts from the unmerged leaves; a single leaf has its code already. -/
theorem mergeStart_forest {ls : List (Byte × Word)} {s : State} (hl : s.store.Lists (ls.map Node.leafOf))
    (hc : s.store.count.val = ls.length) (hlc : s.scratch.lcount.toNat = ls.length) (hne : ls ≠ []) (hL : ls.length ≤ 256) :
    Forest ls 0 (mergeStart s).store ∧ (mergeStart s).store.byteCount = s.store.byteCount
      ∧ (mergeStart s).store.maxFreq = s.store.maxFreq
      ∧ (ls.length = 1 → 1 ≤ ((mergeStart s).store.nodeAt 0).codeLength.toNat) := by
  have hf := forest_of_lists hl hc hne hL
  have hpos := List.length_pos_iff.mpr hne
  unfold mergeStart
  rcases singleLeafCode_cases (((s.setPhase .merge).mapStore (Store.sortFrom 0)).mapScratch fun sc => { sc with m := 0 }) with
    ⟨h1, h⟩ | ⟨h1, h⟩
  · rw [h]
    refine ⟨hf, rfl, rfl, fun hone => absurd ?_ h1⟩
    exact BitVec.eq_of_toNat_eq (hlc.trans hone)
  · rw [h]
    have hbare : ((s.store.sortFrom 0).nodeAt 0).codeLength.toNat ≤ 1 := by
      have hn : s.store.nodeAt (nodeId 0) = Node.leafOf ls[0] := by
        rw [hl.nodeAt (by rw [List.length_map]; omega) (by rwa [List.length_map]), List.getElem_map]
      rw [Store.nodeAt_sortFrom, show (0 : NodeId) = nodeId 0 from rfl, hn]
      exact Nat.zero_le 1
    refine ⟨hf.of_pushed (Store.pushed_singleLeaf _ hbare) (hf.dense.setNode ?_ _), rfl, rfl, fun _ => ?_⟩
    · rw [Store.sortFrom_count, hc]
      exact hpos
    · rw [State.mapStore_store, Store.nodeAt_setNode, if_pos rfl]
      exact le_of_eq rfl

theorem Forest.setRoot {ls : List (Byte × Word)} {m : Nat} {st : Store} (h : Forest ls m st) (r : Option NodeId) :
    Forest ls m { st with root := r } :=
  ⟨⟨h.dense.node, h.dense.pool⟩, h.perm, h.count_eq, h.lt_count, h.leaf, h.inner, h.wf, h.children, h.short, h.coded, h.last,
    h.last_code⟩

/-! ### The whole tree -/

/-- The store at the end of BUILD: one tree over the leaves `ls`, its root the node made last, every leaf with a code. -/
structure Grown (ls : List (Byte × Word)) (st : Store) : Prop where
  forest : Forest ls (st.count.val - 1) st
  root : st.root = some (st.poolAt (st.count.val - 1))
  root_frequency : (st.nodeAt (st.poolAt (st.count.val - 1))).frequency = st.byteCount
  single : ls.length = 1 → 1 ≤ (st.nodeAt 0).codeLength.toNat

theorem mergePhase_grown {ls : List (Byte × Word)} {s t : State} (hl : s.store.Lists (ls.map Node.leafOf))
    (hc : s.store.count.val = ls.length) (hlc : s.scratch.lcount.toNat = ls.length) (hne : ls ≠ []) (hL : ls.length ≤ 256)
    (h : mergePhase s = .ok t) :
    Grown ls t.store ∧ t.store.byteCount = s.store.byteCount ∧ t.store.maxFreq = s.store.maxFreq := by
  obtain ⟨u, hu, rfl, hfreq⟩ := mergePhase_ok_cases h
  obtain ⟨hf, hb, hx, hone⟩ := mergeStart_forest hl hc hlc hne hL
  have hm := mergeStart_m s
  obtain ⟨m, hfm, hme, hb', hx', hsame⟩ := mergeLoop_ok hL (by rwa [hm]) (by omega) hu
  have hm' : m = u.store.count.val - 1 := by omega
  rw [hm'] at hfm
  exact ⟨⟨hfm.setRoot _, rfl, hfreq, fun h1 => by rw [← hsame h1] at hone; exact hone h1⟩, hb'.trans hb, hx'.trans hx⟩

section Grown

variable {ls : List (Byte × Word)} {st : Store} (h : Grown ls st)
include h

theorem Grown.count_eq : st.count.val = 2 * ls.length - 1 := by
  have := h.forest.count_eq
  have := h.forest.lt_count
  omega

theorem Grown.root_val : (st.poolAt (st.count.val - 1)).val = st.count.val - 1 :=
  h.forest.last (by have := h.forest.lt_count; omega)

/-- Every leaf of the tree has a code of 1 to 32 bits. -/
theorem Grown.leaf_coded {i : NodeId} (hi : i.val < ls.length) : 1 ≤ (st.nodeAt i).codeLength.toNat := by
  have hcount := h.count_eq
  by_cases hone : ls.length = 1
  · have hi0 : i = 0 := Fin.ext (show i.val = 0 by omega)
    rw [hi0]
    exact h.single hone
  · obtain ⟨p, hp, hpv⟩ := h.forest.perm.exists_poolAt_eq (k := i.val) (by omega)
    have hpi : st.poolAt p = i := Fin.ext hpv
    have hlast := h.root_val
    have hne : p ≠ st.count.val - 1 := fun he => by rw [← he, hpv] at hlast; omega
    rw [← hpi]
    exact h.forest.coded p (by omega)

/-- The tree BUILD ends with is a well-formed store. -/
theorem Grown.storeWf : StoreWf st := by
  have hlt := h.forest.lt_count
  refine storeWf_of_dense h.forest.dense h.forest.perm h.forest.wf ?_ ?_ fun h0 => by omega
  · rw [h.forest.children]
    refine List.Nodup.sublist ?_ h.forest.perm.scan_nodup
    rw [Store.scan_eq]
    exact (List.range_sublist.mpr (by omega)).map _
  · intro r hr
    rw [h.root] at hr
    cases hr
    have := h.root_val
    omega

end Grown

/-! ### BUILD -/

/-- A BUILD that ended OK: the tree over the leaves of its input, with the input's totals. -/
theorem buildRun_ok {s t : State} (h : buildRun s = .ok t) :
    s.source.unread.length ≤ Config.maxInput ∧ Grown (inputLeaves s.source.unread) t.store
      ∧ t.store.byteCount = BitVec.ofNat 32 s.source.unread.length ∧ t.store.maxFreq.toNat = maxOccurrences s.source.unread := by
  rcases buildRun_cases s with he | ⟨n, sc, -, -, he⟩ | ⟨sc, hsc, hlen, ⟨-, he⟩ | ⟨hne, he⟩⟩
  · rw [he] at h; cases h
  · rw [he] at h; cases h
  · rw [he] at h; cases h
  · rw [he] at h
    obtain ⟨hl, hc, hb, hx⟩ := createLeaves_lists hsc
    have hlc : (createLeaves (recordTotals (countedState sc s))).scratch.lcount.toNat = (inputLeaves s.source.unread).length := by
      rw [length_inputLeaves, ← hsc.lcount_toNat]
      rfl
    have hlen' := length_inputLeaves s.source.unread
    have hpos := (distinct_pos_iff s.source.unread).mpr hne
    obtain ⟨hg, hb', hx'⟩ := mergePhase_grown hl hc hlc (List.length_pos_iff.mp (by omega)) (hlen' ▸ distinct_le _) h
    exact ⟨hlen, hg, hb'.trans hb, by rw [hx', hx, hsc.maxFrequency_toNat hlen]⟩

theorem inputLeaves_getElem {input : List Byte} {k : Nat} (hk : k < (inputLeaves input).length) :
    ∃ hk' : k < (seenValues input).length,
      (inputLeaves input)[k] = ((seenValues input)[k], BitVec.ofNat 32 (input.count (seenValues input)[k])) :=
  ⟨by simpa [inputLeaves] using hk, by simp [inputLeaves]⟩

/-- Slot `i` of the built tree, a leaf: the `i`-th byte value of the input, with its number of occurrences. -/
theorem Grown.leaf_slot {input : List Byte} {st : Store} (h : Grown (inputLeaves input) st) {i : NodeId} (hi : i.val < distinct input) :
    ∃ hk : i.val < (seenValues input).length, (st.nodeAt i).isLeaf = true ∧ (st.nodeAt i).value = (seenValues input)[i.val]
      ∧ (st.nodeAt i).frequency = BitVec.ofNat 32 (input.count (seenValues input)[i.val]) := by
  have hi' : i.val < (inputLeaves input).length := by rwa [length_inputLeaves]
  obtain ⟨hk, hleaf⟩ := inputLeaves_getElem hi'
  have hbare := h.forest.leaf i.val hi'
  rw [show nodeId i.val = i from Fin.ext (nodeId_val i.isLt), hleaf] at hbare
  have hbare' : (st.nodeAt i).bare
      = (Node.leaf (seenValues input)[i.val] (BitVec.ofNat 32 (input.count (seenValues input)[i.val]))).bare := hbare
  exact ⟨hk, Node.isLeaf_eq_of_bare hbare', Node.value_eq_of_bare hbare', Node.frequency_eq_of_bare hbare'⟩

/-- The tree over an input's leaves with the input's totals is the store of R28. -/
theorem Grown.built {input : List Byte} {st : Store} (h : Grown (inputLeaves input) st) (hlen : input.length ≤ Config.maxInput)
    (hb : st.byteCount = BitVec.ofNat 32 input.length) (hx : st.maxFreq.toNat = maxOccurrences input) : Built input st := by
  have hls := length_inputLeaves input
  have hcount := h.count_eq
  have hlt := h.forest.lt_count
  unfold Config.maxInput at hlen
  refine ⟨by rw [hcount, hls], h.root, h.root_val, h.root_frequency, ?_, hx, ?_, ?_, ?_, ?_⟩
  · rw [hb, BitVec.toNat_ofNat]
    omega
  · intro i hi
    obtain ⟨hk, hleaf, hv, hf⟩ := h.leaf_slot hi
    have hcnt := List.count_le_length (a := (seenValues input)[i.val]) (l := input)
    refine ⟨hleaf, ?_, ?_, h.leaf_coded (by rwa [hls]), h.forest.short i (by omega)⟩
    · rw [hf, hv, BitVec.toNat_ofNat]
      omega
    · rw [hv]
      exact mem_seenValues.mp (List.getElem_mem _)
  · intro i j hij hj
    obtain ⟨hki, -, hvi, -⟩ := h.leaf_slot (hij.trans hj)
    obtain ⟨hkj, -, hvj, -⟩ := h.leaf_slot hj
    rw [hvi, hvj]
    exact List.pairwise_iff_getElem.mp (byteValues_pairwise.filter _) i.val j.val hki hkj hij
  · exact fun i hle hi => h.forest.inner i (by rwa [hls]) hi
  · intro h2
    exact h.forest.last_code (by omega) (by omega)

end Sys2Proof.Machine
end

section
/-! PROOFS. What a command reads (spec/10_state.md R43, R46): a run is a function of the store, the source, the sink and PHASE. Everything
else of the state passes through it: STATUS and the host's side, and of the scratch registers those that the command has not written. Said
once as an equation between the runs on two states (`exists_runOf_carry`); the frames and the two noninterference statements follow. -/

namespace Sys2Proof.Machine

/-- A change of the state a run has come to. -/
def Run.map (φ : State → State) : Run → Run
  | .ok s => .ok (φ s)
  | .error (c, s) => .error (c, φ s)

/-- The state a run has come to. -/
def Run.state : Run → State
  | .ok s => s
  | .error (_, s) => s

/-- The state with what no command reads taken from `d`, and the scratch registers changed by `f`. -/
def carry (d : State) (f : Scratch → Scratch) (s : State) : State :=
  { s with kind := d.kind, detail := d.detail, host := d.host, readData := d.readData, draws := d.draws, scratch := f s.scratch }

@[simp] theorem Run.map_ok (φ : State → State) (s : State) : Run.map φ (.ok s) = .ok (φ s) := rfl
@[simp] theorem Run.map_error (φ : State → State) (c : Cause) (s : State) : Run.map φ (.error (c, s)) = .error (c, φ s) := rfl
@[simp] theorem Run.state_ok (s : State) : Run.state (.ok s) = s := rfl
@[simp] theorem Run.state_error (c : Cause) (s : State) : Run.state (.error (c, s)) = s := rfl
theorem Run.state_map (φ : State → State) (r : Run) : (r.map φ).state = φ r.state := by rcases r with ⟨c, s⟩ | s <;> rfl

section Carry

variable (d : State) (f : Scratch → Scratch) (s : State)

@[simp] theorem carry_store : (carry d f s).store = s.store := rfl
@[simp] theorem carry_source : (carry d f s).source = s.source := rfl
@[simp] theorem carry_sink : (carry d f s).sink = s.sink := rfl
@[simp] theorem carry_phase : (carry d f s).phase = s.phase := rfl
@[simp] theorem carry_scratch : (carry d f s).scratch = f s.scratch := rfl
@[simp] theorem carry_kind : (carry d f s).kind = d.kind := rfl
@[simp] theorem carry_detail : (carry d f s).detail = d.detail := rfl
@[simp] theorem carry_host : (carry d f s).host = d.host := rfl
@[simp] theorem carry_readData : (carry d f s).readData = d.readData := rfl
@[simp] theorem carry_draws : (carry d f s).draws = d.draws := rfl

theorem carry_srcSkip (n : Nat) : (carry d f s).srcSkip n = carry d f (s.srcSkip n) := rfl
theorem carry_sinkByte (v : Byte) : (carry d f s).sinkByte v = carry d f (s.sinkByte v) := rfl
theorem carry_setPhase (p : Phase) : (carry d f s).setPhase p = carry d f (s.setPhase p) := rfl
theorem carry_releaseStore : (carry d f s).releaseStore = carry d f s.releaseStore := rfl
theorem carry_mapStore (g : Store → Store) : (carry d f s).mapStore g = carry d f (s.mapStore g) := rfl

/-- A change of the scratch registers passes through, the registers it writes now being the run's own. -/
theorem carry_mapScratch (f' g : Scratch → Scratch) (h : ∀ x, g (f x) = f' (g x)) :
    (carry d f s).mapScratch g = carry d f' (s.mapScratch g) := by
  simp only [carry, State.mapScratch, h]

theorem checkStreams_carry (i : Instr) : checkStreams i (carry d f s) = (checkStreams i s).map (carry d f) := by
  simp only [checkStreams, apply_ite (Run.map (carry d f))]
  rfl

end Carry

/-- A run that goes on with `k` where it has not been aborted passes through what its parts pass through. -/
theorem Run.bind_map {φ : State → State} {k : State → Run} (r : Run) (hk : ∀ s, k (φ s) = (k s).map φ) :
    Except.bind (r.map φ) k = Run.map φ (Except.bind r k) := by
  rcases r with ⟨c, s⟩ | s
  · rfl
  · exact hk s

/-! ### ENCODE -/

/-- The registers `acc` and `nbits` of `x`, the others of `sc`. -/
def Scratch.keepAcc (sc x : Scratch) : Scratch := { sc with acc := x.acc, nbits := x.nbits }

section Encode

variable (d : State) (sc : Scratch)

theorem putBit_carry (s : State) (β : Bool) : putBit (carry d sc.keepAcc s) β = carry d sc.keepAcc (putBit s β) := by
  unfold putBit
  rw [carry_mapScratch d _ s sc.keepAcc (Scratch.shiftAcc β) fun _ => rfl]
  dsimp only
  rw [apply_ite (carry d sc.keepAcc)]
  rfl

theorem foldl_putBit_carry (βs : List Bool) (s : State) :
    βs.foldl putBit (carry d sc.keepAcc s) = carry d sc.keepAcc (βs.foldl putBit s) := by
  induction βs generalizing s with
  | nil => rfl
  | cons β βs ih => rw [List.foldl_cons, putBit_carry, ih, List.foldl_cons]

theorem encodeByte_carry (v : Byte) (s : State) : encodeByte v (carry d sc.keepAcc s) = (encodeByte v s).map (carry d sc.keepAcc) := by
  unfold encodeByte
  rw [carry_store]
  cases s.store.lookupValue v with
  | none => rfl
  | some i =>
    dsimp only
    rw [foldl_putBit_carry, apply_ite (Run.map (carry d sc.keepAcc))]
    rfl

theorem encodeBytes_cons (v : Byte) (vs : List Byte) (s : State) :
    encodeBytes (v :: vs) s = (encodeByte v (s.srcSkip 1)).bind (encodeBytes vs) := by
  rw [encodeBytes]
  cases encodeByte v (s.srcSkip 1) <;> rfl

theorem encodeBytes_carry (vs : List Byte) (s : State) :
    encodeBytes vs (carry d sc.keepAcc s) = (encodeBytes vs s).map (carry d sc.keepAcc) := by
  induction vs generalizing s with
  | nil => rfl
  | cons v vs ih =>
    rw [encodeBytes_cons, encodeBytes_cons, carry_srcSkip, encodeByte_carry]
    exact Run.bind_map _ ih

theorem endSegment_carry (s : State) : endSegment (carry d sc.keepAcc s) = carry d sc.keepAcc (endSegment s) := by
  have h : (if s.scratch.nbits = 0 then carry d sc.keepAcc s else (carry d sc.keepAcc s).sinkByte s.scratch.acc)
      = carry d sc.keepAcc (if s.scratch.nbits = 0 then s else s.sinkByte s.scratch.acc) := by
    rw [apply_ite (carry d sc.keepAcc), carry_sinkByte]
  exact congrArg (State.sinkByte (s.scratch.nbits.zeroExtend 8)) h

/-- ENCODE on usable streams. -/
theorem encodeRun_eq {s : State} (h : checkStreams .encode s = .ok s) :
    encodeRun s = (encodeBytes s.source.unread ((s.setPhase .encode).mapScratch Scratch.resetAcc)).bind fun u => .ok (endSegment u) := by
  unfold encodeRun
  rw [h]
  dsimp only
  cases encodeBytes s.source.unread ((s.setPhase .encode).mapScratch Scratch.resetAcc) <;> rfl

theorem encodeRun_carry {s : State} (h : checkStreams .encode s = .ok s) :
    encodeRun (carry d (fun _ => sc) s) = (encodeRun s).map (carry d sc.keepAcc) := by
  have h' : checkStreams .encode (carry d (fun _ => sc) s) = .ok (carry d (fun _ => sc) s) := by rw [checkStreams_carry, h, Run.map_ok]
  rw [encodeRun_eq h, encodeRun_eq h', carry_setPhase, carry_mapScratch d _ _ sc.keepAcc Scratch.resetAcc fun _ => rfl, carry_source,
    encodeBytes_carry]
  exact Run.bind_map _ fun u => by rw [endSegment_carry, Run.map_ok]

end Encode

/-! ### DECODE -/

/-- The register `trailer` of `x`, the others of `sc`. -/
def Scratch.keepTrailer (sc x : Scratch) : Scratch := { sc with trailer := x.trailer }

/-- The registers `dcode`, `dlen`, `trailer` and `vbits` of `x`, the others of `sc`. -/
def Scratch.keepDecode (sc x : Scratch) : Scratch := { sc with dcode := x.dcode, dlen := x.dlen, trailer := x.trailer, vbits := x.vbits }

section Decode

variable (d : State) (sc : Scratch)

theorem getBit_carry (β : Bool) (s : State) : getBit β (carry d sc.keepDecode s) = (getBit β s).map (carry d sc.keepDecode) := by
  unfold getBit
  rw [carry_mapScratch d _ s sc.keepDecode (Scratch.shiftDcode β) fun _ => rfl]
  dsimp only
  rw [apply_ite (Run.map (carry d sc.keepDecode))]
  congr 1
  dsimp only [carry_scratch, carry_store, Scratch.keepDecode]
  cases (s.mapScratch (Scratch.shiftDcode β)).store.lookupCode _ _ <;> rfl

theorem getBits_cons (β : Bool) (βs : List Bool) (s : State) : getBits (β :: βs) s = (getBit β s).bind (getBits βs) := by
  rw [getBits]
  cases getBit β s <;> rfl

theorem getBits_carry (βs : List Bool) (s : State) :
    getBits βs (carry d sc.keepDecode s) = (getBits βs s).map (carry d sc.keepDecode) := by
  induction βs generalizing s with
  | nil => rfl
  | cons β βs ih =>
    rw [getBits_cons, getBits_cons, getBit_carry]
    exact Run.bind_map _ ih

theorem decodeBytes_cons_cons (trailer b b' : Byte) (bs : List Byte) (s : State) :
    decodeBytes trailer (b :: b' :: bs) s = (getBits (byteBits 0 b) (s.srcSkip 1)).bind (decodeBytes trailer (b' :: bs)) := by
  rw [decodeBytes]
  cases getBits (byteBits 0 b) (s.srcSkip 1) <;> rfl

theorem decodeBytes_carry (trailer : Byte) (bs : List Byte) (s : State) :
    decodeBytes trailer bs (carry d sc.keepDecode s) = (decodeBytes trailer bs s).map (carry d sc.keepDecode) := by
  induction bs generalizing s with
  | nil => rfl
  | cons b bs ih =>
    cases bs with
    | nil => exact getBits_carry d sc _ (s.srcSkip 1)
    | cons b' bs =>
      rw [decodeBytes_cons_cons, decodeBytes_cons_cons, carry_srcSkip, getBits_carry]
      exact Run.bind_map _ ih

/-- The end of DECODE: the trailer read, PARTIAL_CODE where a code is still open (R190, R200). -/
def closeSegment (s : State) : Run :=
  if (s.srcSkip 1).scratch.dlen ≠ 0 then .error (.partialCode, s.srcSkip 1) else .ok (s.srcSkip 1)

theorem decodeSegment_eq (trailer : Byte) (data : List Byte) (s : State) :
    decodeSegment trailer data s
      = (decodeBytes trailer data (s.mapScratch (Scratch.openSegment (data.length + 1) trailer))).bind closeSegment := by
  unfold decodeSegment
  cases decodeBytes trailer data (s.mapScratch (Scratch.openSegment (data.length + 1) trailer)) <;> rfl

theorem closeSegment_carry (s : State) : closeSegment (carry d sc.keepDecode s) = (closeSegment s).map (carry d sc.keepDecode) := by
  unfold closeSegment
  rw [carry_srcSkip, apply_ite (Run.map (carry d sc.keepDecode))]
  rfl

theorem decodeSegment_carry (trailer : Byte) (data : List Byte) (s : State) :
    decodeSegment trailer data (carry d sc.keepTrailer s) = (decodeSegment trailer data s).map (carry d sc.keepDecode) := by
  rw [decodeSegment_eq, decodeSegment_eq, carry_mapScratch d _ s sc.keepDecode (Scratch.openSegment _ trailer) fun _ => rfl,
    decodeBytes_carry]
  exact Run.bind_map _ (closeSegment_carry d sc)

end Decode

/-! ### BUILD -/

/-- The registers `ft`, `lcount` and `total` of `x`, the others of `sc`. -/
def Scratch.keepCount (sc x : Scratch) : Scratch := { sc with ft := x.ft, lcount := x.lcount, total := x.total }

/-- The registers `ft`, `lcount`, `total` and `m` of `x`, the others of `sc`. -/
def Scratch.keepMerge (sc x : Scratch) : Scratch := { sc with ft := x.ft, lcount := x.lcount, total := x.total, m := x.m }

section Build

variable (d : State) (sc : Scratch)

theorem countPass_carry (bs : List Byte) (s : State) :
    countPass bs (carry d sc.keepCount s) = (countPass bs s).map (carry d sc.keepCount) := by
  induction bs generalizing s with
  | nil => rfl
  | cons v vs ih =>
    rw [countPass, countPass, carry_srcSkip, carry_mapScratch d _ _ sc.keepCount (Scratch.countByte v) fun _ => rfl, ih,
      apply_ite (Run.map (carry d sc.keepCount))]
    rfl

theorem recordTotals_carry (s : State) : recordTotals (carry d sc.keepCount s) = carry d sc.keepCount (recordTotals s) := by
  have hmax : (sc.keepCount s.scratch).maxFrequency = s.scratch.maxFrequency := by
    unfold Scratch.maxFrequency
    rfl
  simp only [recordTotals, carry_scratch, hmax]
  rfl

theorem createLeaf_keepCount (x : Scratch) : Store.createLeaf (sc.keepCount x) = Store.createLeaf x := rfl

theorem createLeaves_carry (s : State) : createLeaves (carry d sc.keepCount s) = carry d sc.keepCount (createLeaves s) := by
  rw [createLeaves, createLeaves, carry_scratch, createLeaf_keepCount, carry_mapStore]

theorem mergeLoop_carry (passes : Nat) (s : State) :
    mergeLoop passes (carry d sc.keepMerge s) = (mergeLoop passes s).map (carry d sc.keepMerge) := by
  induction passes generalizing s with
  | zero => rfl
  | succ passes ih =>
    unfold mergeLoop
    rw [apply_ite (Run.map (carry d sc.keepMerge))]
    congr 1
    dsimp only [carry_scratch, carry_store, Scratch.keepMerge]
    cases s.store.mergeOnce s.scratch.m.toNat with
    | none => rfl
    | some st => exact ih { s with store := st, scratch := { s.scratch with m := s.scratch.m + 2 } }

theorem verifyTree_carry (s : State) : verifyTree (carry d sc.keepMerge s) = (verifyTree s).map (carry d sc.keepMerge) := by
  unfold verifyTree
  rw [carry_store]
  cases s.store.root with
  | none => rfl
  | some r =>
    simp only [apply_ite (Run.map (carry d sc.keepMerge))]
    rfl

theorem singleLeafCode_carry (s : State) : singleLeafCode (carry d sc.keepMerge s) = carry d sc.keepMerge (singleLeafCode s) := by
  unfold singleLeafCode
  rw [apply_ite (carry d sc.keepMerge)]
  rfl

theorem mergeStart_carry (s : State) : mergeStart (carry d sc.keepCount s) = carry d sc.keepMerge (mergeStart s) := by
  rw [mergeStart, carry_setPhase, carry_mapStore, carry_mapScratch d sc.keepCount _ sc.keepMerge (fun x => { x with m := 0 }) fun _ => rfl,
    singleLeafCode_carry, ← mergeStart]

theorem mergePhase_carry (s : State) : mergePhase (carry d sc.keepCount s) = (mergePhase s).map (carry d sc.keepMerge) := by
  rw [mergePhase_eq_bind, mergePhase_eq_bind, mergeStart_carry, carry_store, mergeLoop_carry]
  exact Run.bind_map _ fun u => verifyTree_carry d sc (setRoot u)

end Build

/-! ### PERSIST and LOAD -/

/-- The register `nrec` of `x`, the others of `sc`. -/
def Scratch.keepNrec (sc x : Scratch) : Scratch := { sc with nrec := x.nrec }

/-- The records of these nodes, appended to the sink. -/
theorem foldl_records (ids : List NodeId) (s : State) :
    ids.foldl (fun s i => s.sinkBytes (s.store.nodeAt i).record) s
      = { s with sink := { s.sink with bytes := s.sink.bytes ++ ids.flatMap fun i => (s.store.nodeAt i).record } } := by
  induction ids generalizing s with
  | nil => simp
  | cons i ids ih =>
    rw [List.foldl_cons, ih, State.sinkBytes_eq]
    simp

/-- PERSIST on an available sink (R210 to R213). -/
theorem persistRun_eq {s : State} (h : checkStreams .persist s = .ok s) :
    persistRun s = .ok { s with
      phase := .persist
      scratch := { s.scratch with nrec := BitVec.ofNat 32 s.store.leaves.length }
      sink := { s.sink with bytes := s.sink.bytes ++ Safety.tableSegment s.store } } := by
  unfold persistRun
  rw [h]
  dsimp only
  rw [foldl_records, State.sinkBytes_eq]
  simp [State.mapScratch, State.setPhase, Safety.tableSegment]

theorem persistRun_carry (d : State) (sc : Scratch) {s : State} (h : checkStreams .persist s = .ok s) :
    persistRun (carry d (fun _ => sc) s) = (persistRun s).map (carry d sc.keepNrec) := by
  have h' : checkStreams .persist (carry d (fun _ => sc) s) = .ok (carry d (fun _ => sc) s) := by rw [checkStreams_carry, h, Run.map_ok]
  rw [persistRun_eq h, persistRun_eq h']
  rfl

theorem loadRecords_carry (d : State) (f : Scratch → Scratch) (n k : Nat) (bytes : List Byte) (s : State) :
    loadRecords n k bytes (carry d f s) = carry d f (loadRecords n k bytes s) := by
  induction n, k, bytes, s using loadRecords.induct with
  | case1 => rfl
  | case2 k s n v c0 c1 c2 c3 l bs ih => exact ih
  | case3 n k bytes s h => rw [loadRecords.eq_3 _ _ _ _ h, loadRecords.eq_3 _ _ _ _ h]

end Sys2Proof.Machine
end

section
/-! PROOFS. LOAD's lines, and the equation between the runs of a command on two states that differ in what it does not read. -/

namespace Sys2Proof.Machine

/-! ### LOAD -/

/-- LOAD's state with the record count `w` read (R220). -/
def loadState (w : Word) (s : State) : State := ((s.releaseStore.setPhase .load).srcSkip 4).mapScratch fun sc => { sc with nrec := w }

/-- LOAD from the record count on: the two checks of it, the records, the summary registers (R221 to R223). -/
def loadBody (records : List Byte) (s : State) : Run :=
  if Config.nodeCap < s.scratch.nrec.toNat then .error (.tableTooBig, s)
  else if records.length < Config.recBytes * s.scratch.nrec.toNat then .error (.shortTable, s)
  else .ok ((loadRecords s.scratch.nrec.toNat 0 records s).mapStore (Store.closeTable s.scratch.nrec.toNat))

theorem loadRun_of_short {s : State} (h : checkStreams .load s = .ok s) (hlen : s.source.unread.length < 4) :
    loadRun s = .error (.shortTable, s.releaseStore.setPhase .load) := by
  unfold loadRun
  rw [h]
  dsimp only [State.setPhase_source, State.releaseStore_source]
  match s.source.unread, hlen with
  | [], _ | [_], _ | [_, _], _ | [_, _, _], _ => rfl

theorem loadRun_of_count {s : State} {b0 b1 b2 b3 : Byte} {records : List Byte} (h : checkStreams .load s = .ok s)
    (hu : s.source.unread = b0 :: b1 :: b2 :: b3 :: records) :
    loadRun s = loadBody records (loadState (word32 b0 b1 b2 b3) s) := by
  unfold loadRun
  rw [h]
  dsimp only [State.setPhase_source, State.releaseStore_source]
  rw [hu]
  rfl

theorem count_of_four_le {bytes : List Byte} (h : 4 ≤ bytes.length) :
    ∃ b0 b1 b2 b3 records, bytes = b0 :: b1 :: b2 :: b3 :: records := by
  match bytes, h with
  | b0 :: b1 :: b2 :: b3 :: records, _ => exact ⟨b0, b1, b2, b3, records, rfl⟩

theorem loadBody_cases (records : List Byte) (s : State) :
    (511 < s.scratch.nrec.toNat ∧ loadBody records s = .error (.tableTooBig, s))
      ∨ (s.scratch.nrec.toNat ≤ 511 ∧ records.length < 6 * s.scratch.nrec.toNat ∧ loadBody records s = .error (.shortTable, s))
      ∨ (s.scratch.nrec.toNat ≤ 511 ∧ 6 * s.scratch.nrec.toNat ≤ records.length ∧ loadBody records s
        = .ok ((loadRecords s.scratch.nrec.toNat 0 records s).mapStore (Store.closeTable s.scratch.nrec.toNat))) := by
  by_cases hbig : 511 < s.scratch.nrec.toNat
  · exact .inl ⟨hbig, if_pos hbig⟩
  · right
    have hbody : loadBody records s = _ := if_neg hbig
    rw [hbody]
    by_cases hshort : records.length < 6 * s.scratch.nrec.toNat
    · exact .inl ⟨by omega, hshort, if_pos hshort⟩
    · exact .inr ⟨by omega, by omega, if_neg hshort⟩

theorem loadBody_carry (d : State) (sc : Scratch) (records : List Byte) (s : State) :
    loadBody records (carry d sc.keepNrec s) = (loadBody records s).map (carry d sc.keepNrec) := by
  simp only [loadBody, loadRecords_carry, carry_mapStore, apply_ite (Run.map (carry d sc.keepNrec))]
  rfl

/-! ### The stream checks before a command's other lines -/

theorem runOf_of_check_error {i : Instr} {s : State} {c : Cause} (h : checkStreams i s = .error (c, s)) :
    runOf i s = .error (c, s) := by
  cases i with
  | build => simp [runOf, buildRun, h]
  | persist => simp [runOf, persistRun, h]
  | load => simp [runOf, loadRun, h]
  | encode => simp [runOf, encodeRun, h]
  | decode => simp [runOf, decodeRun, h]
  | release => cases h

theorem checkStreams_error_or_ok (i : Instr) (s : State) :
    (∃ c, checkStreams i s = .error (c, s)) ∨ checkStreams i s = .ok s := by
  rcases checkStreams_cases i s with ⟨h, -⟩ | ⟨h, -⟩ | ⟨h, -⟩
  · exact .inl ⟨_, h⟩
  · exact .inl ⟨_, h⟩
  · exact .inr h

/-! ### What passes through a command -/

/-- Of the scratch registers, those that R45 does not name for command `i` are in `sc'` what they are in `sc`. -/
abbrev Confined (i : Instr) (sc sc' : Scratch) : Prop :=
  (i ≠ .build → sc'.ft = sc.ft ∧ sc'.lcount = sc.lcount ∧ sc'.total = sc.total ∧ sc'.m = sc.m)
    ∧ (i ≠ .encode → sc'.acc = sc.acc ∧ sc'.nbits = sc.nbits)
    ∧ (i ≠ .decode → sc'.dcode = sc.dcode ∧ sc'.dlen = sc.dlen ∧ sc'.trailer = sc.trailer ∧ sc'.vbits = sc.vbits)
    ∧ (i ≠ .load → i ≠ .persist → sc'.nrec = sc.nrec)

/-- The run of command `i` from `s` passes through what no command reads, the scratch registers at its start being `sc`. -/
def PassesThrough (i : Instr) (s : State) (sc : Scratch) : Prop :=
  ∃ f, (∀ x, Confined i sc (f x)) ∧ ∀ d, runOf i (carry d (fun _ => sc) s) = (runOf i s).map (carry d f)

theorem confined_self (i : Instr) (sc : Scratch) : Confined i sc sc := by simp [Confined]

/-! ### BUILD after its stream check -/

theorem confined_keepCount (sc x : Scratch) : Confined .build sc (sc.keepCount x) := by simp [Confined, Scratch.keepCount]

theorem confined_keepMerge (sc x : Scratch) : Confined .build sc (sc.keepMerge x) := by simp [Confined, Scratch.keepMerge]

theorem afterCount_carry (sc : Scratch) (u : State) :
    ∃ f, (∀ x, Confined .build sc (f x)) ∧ ∀ d, afterCount (carry d sc.keepCount u) = (afterCount u).map (carry d f) := by
  by_cases h0 : u.scratch.lcount = 0
  · refine ⟨sc.keepCount, confined_keepCount sc, fun d => ?_⟩
    rw [afterCount, afterCount, if_pos h0]
    exact if_pos h0
  · refine ⟨sc.keepMerge, confined_keepMerge sc, fun d => ?_⟩
    rw [afterCount, afterCount, if_neg h0, recordTotals_carry, createLeaves_carry, mergePhase_carry]
    exact if_neg h0

/-! ### DECODE after its stream check -/

/-- The trailer may not stand: it is above 7, or it counts bits where there is no data byte (R192). -/
abbrev TrailerBad (trailer : Byte) (data : List Byte) : Prop := 7 < trailer.toNat ∨ (trailer ≠ 0 ∧ data = [])

/-- DECODE's state with its trailer read (R190). -/
def trailerState (trailer : Byte) (s : State) : State := (s.setPhase .decode).mapScratch (Scratch.setTrailer trailer)

theorem usable_of_check_ok {i : Instr} {s : State} (h : checkStreams i s = .ok s) :
    (usesSource i = true → s.source.readable = true) ∧ (usesSink i = true → s.sink.available = true) := by
  rcases checkStreams_cases i s with ⟨he, -⟩ | ⟨he, -⟩ | ⟨-, hr, ha⟩
  · rw [h] at he; cases he
  · rw [h] at he; cases he
  · exact ⟨hr, ha⟩

theorem decodeRun_of_nil {s : State} (h : checkStreams .decode s = .ok s) (hu : s.source.unread = []) :
    decodeRun s = .error (.noTrailer, s.setPhase .decode) := by
  obtain ⟨hr, ha⟩ := usable_of_check_ok h
  rcases decodeRun_cases s (hr rfl) (ha rfl) with ⟨-, he⟩ | ⟨data, trailer, hd, -⟩
  · exact he
  · simp [hu] at hd

/-- DECODE of data bytes and a trailer: BAD_TRAILER, or the segment. -/
theorem decodeRun_of_trailer {s : State} {data : List Byte} {trailer : Byte} (h : checkStreams .decode s = .ok s)
    (hu : s.source.unread = data ++ [trailer]) :
    (TrailerBad trailer data → decodeRun s = .error (.badTrailer, trailerState trailer s))
      ∧ (¬ TrailerBad trailer data → decodeRun s = decodeSegment trailer data (trailerState trailer s)) := by
  obtain ⟨hr, ha⟩ := usable_of_check_ok h
  rcases decodeRun_cases s (hr rfl) (ha rfl) with ⟨hn, -⟩ | ⟨data', trailer', hd, hcases⟩
  · simp [hn] at hu
  · obtain ⟨rfl, ht⟩ := List.append_inj' (hu.symm.trans hd) rfl
    obtain rfl : trailer = trailer' := by simpa using ht
    rcases hcases with ⟨hbad, he⟩ | ⟨h7, hne, he⟩
    · exact ⟨fun _ => he, fun hgood => absurd hbad hgood⟩
    · refine ⟨?_, fun _ => he⟩
      rintro (hlt | ⟨hnz, hnil⟩)
      · omega
      · exact absurd hnil (hne hnz)

section PassesThrough

variable (s : State) (sc : Scratch)

theorem checkStreams_carry_ok {i : Instr} {s : State} (h : checkStreams i s = .ok s) (d : State) (sc : Scratch) :
    checkStreams i (carry d (fun _ => sc) s) = .ok (carry d (fun _ => sc) s) := by
  rw [checkStreams_carry, h, Run.map_ok]

theorem passesThrough_of_check_error {i : Instr} {c : Cause} (h : checkStreams i s = .error (c, s)) : PassesThrough i s sc := by
  refine ⟨fun _ => sc, fun _ => confined_self i sc, fun d => ?_⟩
  rw [runOf_of_check_error h, runOf_of_check_error (c := c) (by rw [checkStreams_carry, h, Run.map_error]), Run.map_error]

theorem build_passesThrough (h : checkStreams .build s = .ok s) : PassesThrough .build s sc := by
  have hstart : ∀ d, countStart (carry d (fun _ => sc) s) = carry d sc.keepCount (countStart s) := fun d => by
    rw [countStart, carry_releaseStore, carry_setPhase, carry_mapScratch d _ _ sc.keepCount Scratch.clearTable fun _ => rfl,
      ← countStart]
  have hpass : ∀ d, buildRun (carry d (fun _ => sc) s)
      = Except.bind ((countPass s.source.unread (countStart s)).map (carry d sc.keepCount)) afterCount := fun d => by
    rw [buildRun_eq_bind (checkStreams_carry_ok h d sc), hstart, carry_source, countPass_carry]
  cases hcount : countPass s.source.unread (countStart s) with
  | error e =>
    refine ⟨sc.keepCount, confined_keepCount sc, fun d => ?_⟩
    rw [runOf, runOf, hpass, buildRun_eq_bind h, hcount]
    rfl
  | ok u =>
    obtain ⟨f, hf, heq⟩ := afterCount_carry sc u
    refine ⟨f, hf, fun d => ?_⟩
    rw [runOf, runOf, hpass, buildRun_eq_bind h, hcount]
    exact heq d

theorem load_passesThrough (h : checkStreams .load s = .ok s) : PassesThrough .load s sc := by
  rcases Nat.lt_or_ge s.source.unread.length 4 with hlen | hlen
  · refine ⟨fun _ => sc, fun _ => confined_self .load sc, fun d => ?_⟩
    rw [runOf, loadRun_of_short (checkStreams_carry_ok h d sc) hlen, runOf, loadRun_of_short h hlen]
    rfl
  · obtain ⟨b0, b1, b2, b3, records, hu⟩ := count_of_four_le hlen
    refine ⟨sc.keepNrec, fun x => by simp [Confined, Scratch.keepNrec], fun d => ?_⟩
    rw [runOf, loadRun_of_count (checkStreams_carry_ok h d sc) hu, runOf, loadRun_of_count h hu, ← loadBody_carry]
    rfl

theorem decode_passesThrough (h : checkStreams .decode s = .ok s) : PassesThrough .decode s sc := by
  rcases List.eq_nil_or_concat s.source.unread with hu | ⟨data, trailer, hu⟩
  · refine ⟨fun _ => sc, fun _ => confined_self .decode sc, fun d => ?_⟩
    rw [runOf, decodeRun_of_nil (checkStreams_carry_ok h d sc) hu, runOf, decodeRun_of_nil h hu]
    rfl
  · rw [List.concat_eq_append] at hu
    have hs := decodeRun_of_trailer h hu
    have hd := fun d => decodeRun_of_trailer (checkStreams_carry_ok h d sc) hu
    have hstate : ∀ d, trailerState trailer (carry d (fun _ => sc) s) = carry d sc.keepTrailer (trailerState trailer s) := fun _ => rfl
    by_cases hbad : TrailerBad trailer data
    · refine ⟨sc.keepTrailer, fun x => by simp [Confined, Scratch.keepTrailer], fun d => ?_⟩
      rw [runOf, (hd d).1 hbad, runOf, hs.1 hbad, hstate, Run.map_error]
    · refine ⟨sc.keepDecode, fun x => by simp [Confined, Scratch.keepDecode], fun d => ?_⟩
      rw [runOf, (hd d).2 hbad, runOf, hs.2 hbad, hstate, decodeSegment_carry]

/-- What no command reads passes through every command. -/
theorem passesThrough (i : Instr) : PassesThrough i s sc := by
  rcases checkStreams_error_or_ok i s with ⟨c, h⟩ | h
  · exact passesThrough_of_check_error s sc h
  · cases i with
    | build => exact build_passesThrough s sc h
    | persist => exact ⟨sc.keepNrec, fun x => by simp [Confined, Scratch.keepNrec], fun d => persistRun_carry d sc h⟩
    | load => exact load_passesThrough s sc h
    | encode => exact ⟨sc.keepAcc, fun x => by simp [Confined, Scratch.keepAcc], fun d => encodeRun_carry d sc h⟩
    | decode => exact decode_passesThrough s sc h
    | release => exact ⟨fun _ => sc, fun _ => confined_self .release sc, fun _ => rfl⟩

end PassesThrough

/-! ### What a run leaves unchanged -/

/-- A run leaves STATUS, the host's moves, the read data and the model's own counter as they are, and of the scratch registers those that
are not its command's. -/
theorem runOf_frame (i : Instr) (s : State) :
    (runOf i s).state.host = s.host ∧ (runOf i s).state.readData = s.readData ∧ (runOf i s).state.draws = s.draws
      ∧ Confined i s.scratch (runOf i s).state.scratch := by
  obtain ⟨f, hf, heq⟩ := passesThrough s s.scratch i
  have hself : (runOf i s).state = carry s f (runOf i s).state := by
    rw [← Run.state_map (carry s f), ← heq s]
    rfl
  refine ⟨?_, ?_, ?_, ?_⟩
  · rw [hself, carry_host]
  · rw [hself, carry_readData]
  · rw [hself, carry_draws]
  · rw [hself, carry_scratch]
    exact hf _

end Sys2Proof.Machine
end

section
/-! PROOFS. What a command that runs to its last line does to the streams and the store, and what its abort does to them (spec/10_state.md
R31, 20_memory.md R66 to R70). -/

namespace Sys2Proof.Machine

open Sys2Proof.Safety

/-! ### The commands that leave the store -/

/-- The block has at most read on, by at most `n` bytes, and appended to the sink; the store stands. -/
structure Advances (n : Nat) (s t : State) : Prop where
  store : t.store = s.store
  source : ∃ k ≤ n, t.source = s.source.skip k
  available : t.sink.available = s.sink.available
  grows : s.sink.bytes <+: t.sink.bytes

section Advances

variable {n m : Nat} {s t u : State}

theorem Advances.trans (h : Advances n s t) (h' : Advances m t u) : Advances (n + m) s u := by
  obtain ⟨k, hk, hsk⟩ := h.source
  obtain ⟨k', hk', hsk'⟩ := h'.source
  refine ⟨h'.store.trans h.store, ⟨k + k', by omega, ?_⟩, h'.available.trans h.available, h.grows.trans h'.grows⟩
  rw [hsk', hsk, Source.skip_skip]

/-- A change that touches neither the store nor the streams. -/
theorem advances_of_eq (hstore : t.store = s.store) (hsource : t.source = s.source) (hsink : t.sink = s.sink) : Advances n s t :=
  ⟨hstore, ⟨0, Nat.zero_le n, hsource⟩, by rw [hsink], by rw [hsink]⟩

theorem advances_sinkByte (v : Byte) (s : State) : Advances 0 s (s.sinkByte v) :=
  ⟨rfl, ⟨0, le_rfl, rfl⟩, rfl, List.prefix_append _ _⟩

theorem advances_srcSkip (n : Nat) (s : State) : Advances n s (s.srcSkip n) := ⟨rfl, ⟨n, le_rfl, rfl⟩, rfl, List.prefix_rfl⟩

theorem advances_mapScratch (f : Scratch → Scratch) (s : State) : Advances 0 s (s.mapScratch f) := advances_of_eq rfl rfl rfl

theorem Advances.bind {r : Run} {k : State → Run} (h : Advances n s r.state) (hk : ∀ u, Advances m u (k u).state) :
    Advances (n + m) s (Run.state (Except.bind r k)) := by
  rcases r with ⟨c, u⟩ | u
  · exact h.trans (advances_of_eq rfl rfl rfl)
  · exact h.trans (hk u)

/-- Reading on within the source and appending to the sink is all that R66 to R70 allow. -/
theorem Advances.streamsGoForward (h : Advances s.source.unread.length s t) : StreamsGoForward s t := by
  obtain ⟨k, hk, hsk⟩ := h.source
  rw [Source.unread_length, Source.avail] at hk
  refine ⟨by rw [hsk, Source.skip_readable], by rw [hsk, Source.skip_bytes], ?_, fun _ => ?_, h.available, h.grows⟩
  · rw [hsk, Source.skip_pos]
    omega
  · rw [hsk, Source.skip_pos, Source.skip_bytes]
    omega

end Advances

theorem advances_putBit (s : State) (β : Bool) : Advances 0 s (putBit s β) := by
  unfold putBit
  dsimp only
  split
  · exact (advances_mapScratch _ s).trans ((advances_sinkByte _ _).trans (advances_mapScratch _ _))
  · exact advances_mapScratch _ s

theorem advances_foldl_putBit (βs : List Bool) (s : State) : Advances 0 s (βs.foldl putBit s) := by
  induction βs generalizing s with
  | nil => exact advances_of_eq rfl rfl rfl
  | cons β βs ih => exact (advances_putBit s β).trans (ih _)

theorem advances_encodeByte (v : Byte) (s : State) : Advances 0 s (encodeByte v s).state := by
  rcases encodeByte_cases v s with ⟨h, -⟩ | ⟨i, -, ⟨h, -⟩ | ⟨h, -⟩⟩
  · rw [h]; exact advances_of_eq rfl rfl rfl
  · rw [h]; exact advances_of_eq rfl rfl rfl
  · rw [h]; exact advances_foldl_putBit _ s

theorem advances_encodeBytes (vs : List Byte) (s : State) : Advances vs.length s (encodeBytes vs s).state := by
  induction vs generalizing s with
  | nil => exact advances_of_eq rfl rfl rfl
  | cons v vs ih =>
    rw [encodeBytes_cons, List.length_cons, Nat.add_comm]
    exact ((advances_srcSkip 1 s).trans (advances_encodeByte v _)).bind ih

theorem advances_endSegment (s : State) : Advances 0 s (endSegment s) := by
  unfold endSegment
  dsimp only
  split
  · exact advances_sinkByte _ s
  · exact (advances_sinkByte _ s).trans (advances_sinkByte _ _)

theorem advances_getBit (β : Bool) (s : State) : Advances 0 s (getBit β s).state := by
  have hshift := advances_mapScratch (Scratch.shiftDcode β) s
  rcases getBit_cases β s with ⟨h, -⟩ | ⟨-, ⟨h, -⟩ | ⟨v, h, -⟩⟩
  · rw [h]; exact hshift
  · rw [h]; exact hshift
  · rw [h]; exact hshift.trans ((advances_sinkByte v _).trans (advances_mapScratch _ _))

theorem advances_getBits (βs : List Bool) (s : State) : Advances 0 s (getBits βs s).state := by
  induction βs generalizing s with
  | nil => exact advances_of_eq rfl rfl rfl
  | cons β βs ih =>
    rw [getBits_cons]
    exact (advances_getBit β s).bind ih

theorem advances_decodeBytes (trailer : Byte) (bs : List Byte) (s : State) : Advances bs.length s (decodeBytes trailer bs s).state := by
  induction bs generalizing s with
  | nil => exact advances_of_eq rfl rfl rfl
  | cons b bs ih =>
    cases bs with
    | nil => exact (advances_srcSkip 1 s).trans (advances_getBits _ _)
    | cons b' bs =>
      rw [decodeBytes_cons_cons, List.length_cons, Nat.add_comm]
      exact ((advances_srcSkip 1 s).trans (advances_getBits _ _)).bind ih

theorem advances_closeSegment (s : State) : Advances 1 s (closeSegment s).state := by
  unfold closeSegment
  split <;> exact advances_srcSkip 1 s

theorem advances_decodeSegment (trailer : Byte) (data : List Byte) (s : State) :
    Advances (data.length + 1) s (decodeSegment trailer data s).state := by
  rw [decodeSegment_eq]
  have hbytes := (advances_mapScratch (Scratch.openSegment (data.length + 1) trailer) s).trans (advances_decodeBytes trailer data _)
  rw [Nat.zero_add] at hbytes
  exact hbytes.bind advances_closeSegment

theorem advances_decodeRun {s : State} (h : checkStreams .decode s = .ok s) :
    Advances s.source.unread.length s (decodeRun s).state := by
  rcases List.eq_nil_or_concat s.source.unread with hu | ⟨data, trailer, hu⟩
  · rw [decodeRun_of_nil h hu]
    exact advances_of_eq rfl rfl rfl
  · rw [List.concat_eq_append] at hu
    obtain ⟨hbad, hgood⟩ := decodeRun_of_trailer h hu
    by_cases ht : TrailerBad trailer data
    · rw [hbad ht]
      exact advances_of_eq rfl rfl rfl
    · have hstart : Advances 0 s (trailerState trailer s) := advances_of_eq rfl rfl rfl
      have hall := hstart.trans (advances_decodeSegment trailer data _)
      rw [hgood ht, hu, List.length_append, List.length_singleton]
      rwa [Nat.zero_add] at hall

theorem advances_encodeRun {s : State} (h : checkStreams .encode s = .ok s) :
    Advances s.source.unread.length s (encodeRun s).state := by
  have hstart : Advances 0 s ((s.setPhase .encode).mapScratch Scratch.resetAcc) := advances_of_eq rfl rfl rfl
  have hbytes := hstart.trans (advances_encodeBytes s.source.unread _)
  rw [Nat.zero_add] at hbytes
  rw [encodeRun_eq h]
  exact hbytes.bind (k := fun u => .ok (endSegment u)) advances_endSegment

theorem advances_persistRun {n : Nat} {s : State} (h : checkStreams .persist s = .ok s) : Advances n s (persistRun s).state := by
  rw [persistRun_eq h]
  exact ⟨rfl, ⟨0, Nat.zero_le n, rfl⟩, rfl, List.prefix_append _ _⟩

/-- PERSIST, ENCODE and DECODE only read the store; they read on in the source and append to the sink. -/
theorem runOf_reader_advances {i : Instr} (hi : i ∈ [Instr.persist, .encode, .decode]) (s : State) :
    Advances s.source.unread.length s (runOf i s).state := by
  rcases checkStreams_error_or_ok i s with ⟨c, h⟩ | h
  · rw [runOf_of_check_error h]
    exact advances_of_eq rfl rfl rfl
  · simp only [List.mem_cons, List.not_mem_nil, or_false] at hi
    rcases hi with rfl | rfl | rfl
    · exact advances_persistRun h
    · exact advances_encodeRun h
    · exact advances_decodeRun h

/-! ### BUILD -/

/-- The merge phase leaves the streams and the frequency table. -/
abbrev MergeFrame (s t : State) : Prop := t.source = s.source ∧ t.sink = s.sink ∧ t.scratch.ft = s.scratch.ft

theorem mergeLoop_frame (passes : Nat) (s : State) : MergeFrame s (mergeLoop passes s).state := by
  induction passes generalizing s with
  | zero => exact ⟨rfl, rfl, rfl⟩
  | succ passes ih =>
    unfold mergeLoop
    split
    · split
      · exact ⟨rfl, rfl, rfl⟩
      · exact ih _
    · exact ⟨rfl, rfl, rfl⟩

theorem verifyTree_state (s : State) : (verifyTree s).state = s := by
  unfold verifyTree
  cases s.store.root with
  | none => rfl
  | some r =>
    dsimp only
    split
    · rfl
    · split <;> rfl

theorem mergeStart_frame (s : State) : MergeFrame s (mergeStart s) := by
  unfold mergeStart
  rcases singleLeafCode_cases (((s.setPhase .merge).mapStore (Store.sortFrom 0)).mapScratch fun sc => { sc with m := 0 }) with
    ⟨-, h⟩ | ⟨-, h⟩ <;> rw [h] <;> exact ⟨rfl, rfl, rfl⟩

theorem mergePhase_frame (s : State) : MergeFrame s (mergePhase s).state := by
  obtain ⟨hsrc₀, hsink₀, hft₀⟩ := mergeStart_frame s
  have hloop := mergeLoop_frame (mergeStart s).store.count.val (mergeStart s)
  rw [mergePhase_eq_bind]
  cases hr : mergeLoop (mergeStart s).store.count.val (mergeStart s) with
  | error e =>
    rw [hr] at hloop
    obtain ⟨hsrc, hsink, hft⟩ := hloop
    exact ⟨hsrc.trans hsrc₀, hsink.trans hsink₀, hft.trans hft₀⟩
  | ok u =>
    rw [hr] at hloop
    obtain ⟨hsrc, hsink, hft⟩ := hloop
    have hv : Run.state (Except.bind (.ok u) fun u => verifyTree (setRoot u)) = setRoot u := verifyTree_state (setRoot u)
    rw [hv]
    exact ⟨hsrc.trans hsrc₀, hsink.trans hsink₀, hft.trans hft₀⟩

/-- BUILD that ended OK has read its source to the end and not touched the sink. -/
theorem buildRun_ok_streams {s t : State} (h : buildRun s = .ok t) :
    t.source = s.source.skip s.source.unread.length ∧ t.sink = s.sink := by
  rcases buildRun_cases s with he | ⟨n, sc, -, -, he⟩ | ⟨sc, -, -, ⟨-, he⟩ | ⟨-, he⟩⟩
  · rw [he] at h; cases h
  · rw [he] at h; cases h
  · rw [he] at h; cases h
  · obtain ⟨hsrc, hsink, -⟩ := mergePhase_frame (createLeaves (recordTotals (countedState sc s)))
    rw [← he, h] at hsrc hsink
    exact ⟨hsrc, hsink⟩

/-- BUILD keeps the canonical form of the frequency table, whatever its ending. -/
theorem buildRun_ft_wf {s : State} (h : Ram.wf Config.symbols s.scratch.ft = true) :
    Ram.wf Config.symbols (buildRun s).state.scratch.ft = true := by
  rcases buildRun_cases s with he | ⟨n, sc, hsc, -, he⟩ | ⟨sc, hsc, -, ⟨-, he⟩ | ⟨-, he⟩⟩
  · rw [he]; exact h
  · rw [he]; exact hsc
  · rw [he]; exact hsc.ft_wf
  · obtain ⟨-, -, hft⟩ := mergePhase_frame (createLeaves (recordTotals (countedState sc s)))
    rw [he, hft]
    exact hsc.ft_wf

/-! ### LOAD -/

/-- A LOAD that ended OK: a well-formed store, the source read on by the segment, the sink not touched. -/
theorem loadRun_ok {s t : State} (h : loadRun s = .ok t) :
    StoreWf t.store ∧ (∃ k ≤ s.source.unread.length, t.source = s.source.skip k) ∧ t.sink = s.sink := by
  rcases checkStreams_error_or_ok .load s with ⟨c, hc⟩ | hc
  · have he := runOf_of_check_error hc
    rw [runOf, h] at he
    cases he
  · rcases Nat.lt_or_ge s.source.unread.length 4 with hlen | hlen
    · rw [loadRun_of_short hc hlen] at h
      cases h
    · obtain ⟨b0, b1, b2, b3, records, hu⟩ := count_of_four_le hlen
      rw [loadRun_of_count hc hu] at h
      rcases loadBody_cases records (loadState (word32 b0 b1 b2 b3) s) with ⟨-, he⟩ | ⟨-, -, he⟩ | ⟨hn, hrec, he⟩
      · rw [h] at he; cases he
      · rw [h] at he; cases he
      · rw [h] at he
        cases he
        obtain ⟨ns, hlists, hns, hleaf, heq⟩ := loadRecords_lists (s := loadState (word32 b0 b1 b2 b3) s)
          (Store.lists_nil rfl rfl) (by simp) hrec
        rw [List.length_nil] at hlists hns heq
        refine ⟨?_, ⟨4 + 6 * (loadState (word32 b0 b1 b2 b3) s).scratch.nrec.toNat, ?_, ?_⟩, ?_⟩
        · refine Store.Lists.storeWf ⟨hlists.node, hlists.pool⟩ ?_ hleaf rfl rfl rfl
          rw [hns, Nat.zero_add]
          exact Nat.mod_eq_of_lt (by omega)
        · rw [hu]
          simp only [List.length_cons]
          omega
        · rw [State.mapStore_source, heq, ← Source.skip_skip]
          rfl
        · rw [State.mapStore_sink, heq]
          rfl

/-! ### Every command -/

theorem exec_cases {i : Instr} {s t : State} (h : exec i s = .next t) :
    (∃ u, runOf i s = .ok u ∧ t = u.finish) ∨ ∃ c u, runOf i s = .error (c, u) ∧ t = raise i c s u := by
  rw [exec_eq_complete] at h
  exact complete_cases h

/-- A command's next state holds the scratch registers its run has come to. -/
theorem exec_scratch {i : Instr} {s t : State} (h : exec i s = .next t) : t.scratch = (runOf i s).state.scratch := by
  rcases exec_cases h with ⟨u, hr, rfl⟩ | ⟨c, u, hr, rfl⟩ <;> rw [hr] <;> rfl

theorem streamsGoForward_of_skip {s t : State} {k : Nat} (hk : k ≤ s.source.unread.length) (hsource : t.source = s.source.skip k)
    (hsink : t.sink = s.sink) : StreamsGoForward s t :=
  Advances.streamsGoForward (t := { t with store := s.store }) ⟨rfl, ⟨k, hk, hsource⟩, by rw [hsink], by rw [hsink]⟩

/-- The streams after a command that ran to its last line. -/
theorem runOf_ok_streams {i : Instr} {s u : State} (h : runOf i s = .ok u) :
    StreamsGoForward s u ∧ (usesSink i = false → u.sink = s.sink) ∧ (usesSource i = false → u.source = s.source) := by
  have hreader : i ∈ [Instr.persist, .encode, .decode] → StreamsGoForward s u := fun hi => by
    have hadv := runOf_reader_advances hi s
    rw [h] at hadv
    exact hadv.streamsGoForward
  cases i with
  | build =>
    obtain ⟨hsource, hsink⟩ := buildRun_ok_streams h
    exact ⟨streamsGoForward_of_skip le_rfl hsource hsink, fun _ => hsink, (fun hn => by cases hn)⟩
  | load =>
    obtain ⟨-, ⟨k, hk, hsource⟩, hsink⟩ := loadRun_ok h
    exact ⟨streamsGoForward_of_skip hk hsource hsink, fun _ => hsink, (fun hn => by cases hn)⟩
  | persist =>
    refine ⟨hreader (by decide), (fun hn => by cases hn), fun _ => ?_⟩
    rcases checkStreams_error_or_ok .persist s with ⟨c, hc⟩ | hc
    · rw [runOf_of_check_error hc] at h
      cases h
    · rw [runOf, persistRun_eq hc] at h
      cases h
      rfl
  | encode => exact ⟨hreader (by decide), (fun hn => by cases hn), (fun hn => by cases hn)⟩
  | decode => exact ⟨hreader (by decide), (fun hn => by cases hn), (fun hn => by cases hn)⟩
  | release =>
    cases h
    exact ⟨streamsGoForward_of_skip (k := 0) (Nat.zero_le _) rfl rfl, fun _ => rfl, fun _ => rfl⟩

/-- The streams after an abort: as a cut-off command leaves them. -/
theorem raise_streams (i : Instr) (c : Cause) (s u : State) :
    StreamsGoForward s (raise i c s u) ∧ (usesSink i = false → (raise i c s u).sink = s.sink)
      ∧ (usesSource i = false → (raise i c s u).source = s.source) := by
  obtain ⟨hr, hb, hpos, hend, ha, hg, hsource, hsink⟩ := State.cutStreams_streams (some i) s
  refine ⟨⟨hr, hb, hpos, fun hle => ?_, ha, hg⟩, fun hn => hsink (by simpa using hn), fun hn => hsource (by simpa using hn)⟩
  have hbytes : (raise i c s u).source.bytes = s.source.bytes := hb
  rw [hbytes]
  exact hend hle

/-- The streams after a command, whatever its ending. -/
theorem exec_streams {i : Instr} {s t : State} (h : exec i s = .next t) :
    StreamsGoForward s t ∧ (usesSink i = false → t.sink = s.sink) ∧ (usesSource i = false → t.source = s.source) := by
  rcases exec_cases h with ⟨u, hr, rfl⟩ | ⟨c, u, -, rfl⟩
  · exact runOf_ok_streams (u := u) hr
  · exact raise_streams i c s u

/-- The store after PERSIST, ENCODE or DECODE, whatever its ending. -/
theorem exec_reader_store {i : Instr} {s t : State} (hi : i ∈ [Instr.persist, .encode, .decode]) (h : exec i s = .next t) :
    t.store = s.store := by
  have hkeep : emptiesStore i = false := by
    simp only [List.mem_cons, List.not_mem_nil, or_false] at hi
    rcases hi with rfl | rfl | rfl <;> rfl
  have hstore := (runOf_reader_advances hi s).store
  rcases exec_cases h with ⟨u, hr, rfl⟩ | ⟨c, u, hr, rfl⟩
  · rwa [hr] at hstore
  · rw [raise_store, hkeep]
    rwa [hr] at hstore

end Sys2Proof.Machine
end

section
/-! PROOFS. The statements about the state (spec/10_state.md): reset, the registers, the invariant, the frames, and what no command
reads. -/

namespace Sys2Proof.Proofs

open Sys2Proof.Machine Sys2Proof.Safety

/-! ### Registers -/

/-- The three fields side by side, read back. -/
theorem status_fields (s : State) :
    s.status.extractLsb' 0 3 = s.kind.bits ∧ s.status.extractLsb' 4 4 = s.detail.bits ∧ s.status.getLsbD 3 = s.busy := by
  unfold State.status
  generalize s.kind.bits = k
  generalize s.detail.bits = d
  generalize s.busy = b
  revert k d b
  decide

theorem busy_iff (s : State) : s.busy = true ↔ s.phase ≠ .idle := by simp [State.busy]

theorem idBits_toNat (r : Option NodeId) : (idBits r).toNat = match r with | none => 0x1FF | some i => i.val := by
  cases r with
  | none => rfl
  | some i => exact Nat.mod_eq_of_lt (by omega)

/-- The registers of a block that is not BUSY (R40). -/
theorem readReg_of_idle {s : State} (hb : s.busy = false) :
    (s.readReg 2).toNat = s.store.count.val ∧ s.readReg 3 = s.store.byteCount ∧ s.readReg 4 = s.store.maxFreq
      ∧ (s.readReg 5).toNat = (idBits s.store.root).toNat := by
  have h2 : s.readReg 2 = BitVec.ofNat 32 s.store.count.val := by simp [State.readReg, hb]
  have h5 : s.readReg 5 = (idBits s.store.root).zeroExtend 32 := by simp [State.readReg, hb]
  have hroot := (idBits s.store.root).isLt
  refine ⟨?_, by simp [State.readReg, hb], by simp [State.readReg, hb], ?_⟩
  · rw [h2, BitVec.toNat_ofNat]
    omega
  · rw [h5, BitVec.toNat_setWidth]
    omega

theorem readReg_above {s : State} {n : Nat} (h : 5 < n) : s.readReg n = 0 := by
  match n, h with
  | n + 6, _ => rfl

/-- A write to a register other than CMD is ignored (R40). -/
theorem step_write_ignored {s : State} {n : Nat} {w : Byte} {ms : List HostMove} (h : s.host = .write n w :: ms) (hn : n ≠ 0) :
    step s = .next { s with host := ms } := by
  rw [step_cons h]
  exact if_neg hn

/-! ### The invariant -/

theorem inv_reset : Inv State.reset :=
  ⟨storeWf_of_storeEmpty rfl rfl ⟨rfl, rfl, rfl, rfl⟩, rfl, Nat.zero_le _, rfl⟩

/-- The invariant speaks of the store, the frequency table, the source's position and PHASE only. -/
theorem inv_of_eq {s t : State} (h : Inv s) (hstore : t.store = s.store) (hscratch : t.scratch = s.scratch)
    (hsource : t.source = s.source) (hphase : t.phase = s.phase) : Inv t := by
  rw [Safety.Inv, hstore, hscratch, hsource, hphase]
  exact h

theorem exec_phase {i : Instr} {s t : State} (h : exec i s = .next t) : t.phase = .idle := by
  rcases exec_cases h with ⟨u, -, rfl⟩ | ⟨c, u, -, rfl⟩ <;> rfl

/-- The frequency table keeps its canonical form: only BUILD writes it. -/
theorem exec_ft_wf {i : Instr} {s t : State} (hs : Ram.wf Config.symbols s.scratch.ft = true) (h : exec i s = .next t) :
    Ram.wf Config.symbols t.scratch.ft = true := by
  rw [exec_scratch h]
  by_cases hi : i = .build
  · subst hi
    exact buildRun_ft_wf hs
  · obtain ⟨-, -, -, hcount, -⟩ := runOf_frame i s
    obtain ⟨hft, -⟩ := hcount hi
    rwa [hft]

/-- Every command leaves a well-formed store: a fault of BUILD or LOAD empties it, the others keep it, BUILD's is the tree it has grown and
LOAD's the leaves it has read. -/
theorem exec_storeWf {i : Instr} {s t : State} (hs : StoreWf s.store) (h : exec i s = .next t) : StoreWf t.store := by
  have hreader : i ∈ [Instr.persist, .encode, .decode] → StoreWf t.store := fun hi => by
    rw [exec_reader_store hi h]
    exact hs
  cases i with
  | build =>
    rcases exec_cases h with ⟨u, hr, rfl⟩ | ⟨c, u, -, rfl⟩
    · obtain ⟨-, hgrown, -, -⟩ := buildRun_ok hr
      exact hgrown.storeWf
    · exact storeWf_release u.store
  | load =>
    rcases exec_cases h with ⟨u, hr, rfl⟩ | ⟨c, u, -, rfl⟩
    · obtain ⟨hwf, -, -⟩ := loadRun_ok hr
      exact hwf
    · exact storeWf_release u.store
  | persist => exact hreader (by decide)
  | encode => exact hreader (by decide)
  | decode => exact hreader (by decide)
  | release =>
    cases h
    exact storeWf_release s.store

theorem exec_inv {i : Instr} {s t : State} (hs : Inv s) (h : exec i s = .next t) : Inv t := by
  obtain ⟨hstore, hft, hpos, -⟩ := hs
  obtain ⟨⟨-, -, -, hend, -, -⟩, -, -⟩ := exec_streams h
  exact ⟨exec_storeWf hstore h, exec_ft_wf hft h, hend hpos, exec_phase h⟩

theorem resetBlock_cutStreams_inv {s : State} (c : Option Instr) (hs : Inv s) : Inv (resetBlock (s.cutStreams c)) := by
  obtain ⟨-, -, hpos, -⟩ := hs
  obtain ⟨-, hbytes, -, hend, -⟩ := State.cutStreams_streams c s
  refine ⟨storeWf_release _, rfl, ?_, rfl⟩
  rw [resetBlock_source, hbytes]
  exact hend hpos

theorem writeCmd_inv {w : Byte} {s t : State} (hs : Inv s) (h : writeCmd w s = .next t) : Inv t := by
  rcases writeCmd_cases w s with ⟨-, he⟩ | ⟨-, ⟨i, -, he⟩ | ⟨e, -, he⟩⟩
  · rw [h] at he; cases he; exact hs
  · rw [he] at h; exact exec_inv hs h
  · rw [h] at he; cases he; exact inv_of_eq hs rfl rfl rfl rfl

/-- Every move of the host keeps the invariant. -/
theorem hostMove_inv {m : HostMove} {s t : State} (hs : Inv s) (h : hostMove m s = .next t) : Inv t := by
  cases m with
  | write reg w =>
    unfold hostMove hostWrite at h
    dsimp only at h
    split at h
    · exact writeCmd_inv hs h
    · cases h; exact hs
  | read reg => cases h; exact inv_of_eq hs rfl rfl rfl rfl
  | openSource readable past rest =>
    unfold hostMove at h
    dsimp only at h
    split at h
    · cases h
    · cases h
      obtain ⟨hstore, hft, -, hphase⟩ := hs
      exact ⟨hstore, hft, by simp, hphase⟩
  | openSink available =>
    unfold hostMove at h
    dsimp only at h
    split at h
    · cases h
    · cases h; exact inv_of_eq hs rfl rfl rfl rfl
  | reset => cases h; exact resetBlock_cutStreams_inv _ hs
  | resetDuring w => cases h; exact resetBlock_cutStreams_inv _ hs

/-! ### The commands by the streams they use -/

theorem usesSink_eq_false_iff (i : Instr) : usesSink i = false ↔ i ∈ [Instr.build, .load, .release] := by cases i <;> decide

theorem usesSource_eq_false_iff (i : Instr) : usesSource i = false ↔ i ∈ [Instr.persist, .release] := by cases i <;> decide

/-! ### The ending of a run that passed through -/

/-- STATUS is written by the ending of a command, whatever it was before. -/
theorem complete_map_carry_status (i : Instr) (s : State) (k : Kind) (d : Detail) (f : Scratch → Scratch) (r : Run) :
    complete i { s with kind := k, detail := d } (r.map (carry { s with kind := k, detail := d } f))
      = complete i s (r.map (carry s f)) := by
  rcases r with ⟨c, u⟩ | u <;> rfl

/-- The ending of a run that passed through differs in the scratch registers at most. -/
theorem complete_map_carry_scratch (i : Instr) (s : State) (sc : Scratch) (f : Scratch → Scratch) {r : Run}
    (hhost : r.state.host = s.host) (hread : r.state.readData = s.readData) (hdraws : r.state.draws = s.draws) :
    ∃ t t', complete i s r = .next t ∧ complete i { s with scratch := sc } (r.map (carry s f)) = .next t'
      ∧ { t' with scratch := t.scratch } = t := by
  rcases r with ⟨c, u⟩ | u
  · refine ⟨_, _, rfl, rfl, ?_⟩
    simp only [Run.state_error] at hhost hread
    simp [raise, carry, ← hhost, ← hread]
  · refine ⟨_, _, rfl, rfl, ?_⟩
    simp only [Run.state_ok] at hhost hread hdraws
    simp [State.finish, carry, ← hhost, ← hread, ← hdraws]

end Sys2Proof.Proofs
end

section
/-! PROOFS. The obligations of the family 10_state. -/

namespace Sys2Proof.Proofs

open Sys2Proof.Machine Sys2Proof.Safety

/-- Settles O1: the registers of the state after reset, evaluated. -/
theorem resetState : Obligations.ResetState := by
  unfold Obligations.ResetState
  exact ⟨rfl, rfl, rfl, rfl, rfl, rfl, rfl⟩

/-- Settles O2: the store after reset is empty and lists nothing. -/
theorem resetInvariant : Obligations.ResetInvariant := inv_reset

/-- Settles O8, register by register. -/
theorem hostRegisters : Obligations.HostRegisters := by
  unfold Obligations.HostRegisters
  refine ⟨rfl, fun s hb => ?_, fun s n w ms hhost hn => step_write_ignored hhost hn⟩
  obtain ⟨h2, h3, h4, h5⟩ := readReg_of_idle hb
  rw [idBits_toNat] at h5
  exact ⟨rfl, rfl, h2, h3, h4, h5, fun n hn => readReg_above hn⟩

/-- Settles O10: the fields of the concatenation, and BUSY by its definition. -/
theorem statusFields : Obligations.StatusFields := by
  unfold Obligations.StatusFields
  intro s
  obtain ⟨hkind, hdetail, hbusy⟩ := status_fields s
  exact ⟨hkind, hdetail, by rw [hbusy]; exact busy_iff s⟩

/-- Settles O21: the runs of the three commands keep the store, and so does their abort. -/
theorem readersKeepTheStore : Obligations.ReadersKeepTheStore := by
  unfold Obligations.ReadersKeepTheStore
  exact fun i s t hi h => exec_reader_store hi h

/-- Settles O23: the streams by the run or the cut-off, the rest because it passes through the run. -/
theorem commandFrames : Obligations.CommandFrames := by
  unfold Obligations.CommandFrames
  intro i s t h
  obtain ⟨hhost, hread, -, hconfined⟩ := runOf_frame i s
  obtain ⟨hstreams, hsink, hsource⟩ := exec_streams h
  rw [← exec_scratch h] at hconfined
  have hends : t.host = (runOf i s).state.host ∧ t.readData = (runOf i s).state.readData := by
    rcases exec_cases h with ⟨u, hr, rfl⟩ | ⟨c, u, hr, rfl⟩ <;> rw [hr] <;> exact ⟨rfl, rfl⟩
  refine ⟨hends.1.trans hhost, hends.2.trans hread, hstreams, fun hi => hsink ((usesSink_eq_false_iff i).mpr hi),
    fun hi => hsource ((usesSource_eq_false_iff i).mpr hi), hconfined⟩

/-- Settles O24: STATUS passes through every run, and the ending writes it. -/
theorem statusIsNotRead : Obligations.StatusIsNotRead := by
  unfold Obligations.StatusIsNotRead
  intro i s k d
  obtain ⟨f, -, heq⟩ := passesThrough s s.scratch i
  have hself : runOf i s = (runOf i s).map (carry s f) := heq s
  have hother : runOf i { s with kind := k, detail := d } = (runOf i s).map (carry { s with kind := k, detail := d } f) :=
    heq { s with kind := k, detail := d }
  rw [exec_eq_complete, exec_eq_complete, hother, complete_map_carry_status, ← hself]

/-- Settles O25: the scratch registers a command has not written pass through its run, and nothing else depends on them. -/
theorem scratchIsNotObserved : Obligations.ScratchIsNotObserved := by
  unfold Obligations.ScratchIsNotObserved
  intro i s sc
  obtain ⟨f, -, heq⟩ := passesThrough s sc i
  have hother : runOf i { s with scratch := sc } = (runOf i s).map (carry s f) := heq s
  obtain ⟨hhost, hread, hdraws, -⟩ := runOf_frame i s
  rw [exec_eq_complete, exec_eq_complete, hother]
  exact complete_map_carry_scratch i s sc f hhost hread hdraws

/-- Settles O18, by the kind of the host's move; a command by its ending. -/
theorem stepKeepsInvariant : Obligations.StepKeepsInvariant := by
  unfold Obligations.StepKeepsInvariant
  intro s t hs h
  cases hh : s.host with
  | nil =>
    have hwait : step s = .next s := by simp [step, hostStep, hh]
    rw [h] at hwait
    cases hwait
    exact hs
  | cons m ms =>
    rw [step_cons hh] at h
    exact hostMove_inv (s := { s with host := ms }) (inv_of_eq hs rfl rfl rfl rfl) h

/-- Settles O44, by the invariant of the merge loop. -/
theorem buildLeavesTheBuiltTree : Obligations.BuildLeavesTheBuiltTree := by
  unfold Obligations.BuildLeavesTheBuiltTree
  intro s t h hok
  rcases exec_cases h with ⟨u, hr, rfl⟩ | ⟨c, u, -, rfl⟩
  · obtain ⟨hlen, hgrown, hbytes, hmax⟩ := buildRun_ok hr
    obtain ⟨hsource, -⟩ := buildRun_ok_streams hr
    refine ⟨hgrown.built hlen hbytes hmax, ?_⟩
    rw [State.finish_source, hsource, Source.unread, Source.skip_bytes, Source.skip_pos, ← List.drop_drop, ← Source.unread,
      List.drop_length]
  · cases c <;> cases hok

end Sys2Proof.Proofs
end

section
/-! PROOFS. What the block does with the host's moves on registers and streams (spec/20_memory.md R66, R68, R82), what ends a command at
its stream check (R69), and the data segment against its bits (R75, R76). -/

namespace Sys2Proof.Proofs

open Sys2Proof.Machine Sys2Proof.Safety

/-! ### The host's moves -/

/-- A register's value does not depend on the host's moves to come. -/
theorem readReg_host (s : State) (ms : List HostMove) (n : Nat) : State.readReg { s with host := ms } n = s.readReg n := rfl

theorem hostRead_of_idle {s : State} (hb : s.busy = false) (n : Nat) : hostRead n s = { s with readData := s.readReg n } := by
  simp [hostRead, hb]

theorem hostMove_openSource_of_idle {s : State} (hb : s.busy = false) (readable : Bool) (past rest : List Byte) :
    hostMove (.openSource readable past rest) s
      = .next { s with source := { readable := readable, bytes := past ++ rest, pos := past.length } } := by
  simp [hostMove, hb]

theorem hostMove_openSink_of_idle {s : State} (hb : s.busy = false) (available : Bool) :
    hostMove (.openSink available) s = .next { s with sink := { available := available, bytes := [] } } := by
  simp [hostMove, hb]

/-- A source supplied as the bytes before its position and those after it has the latter unread (R66). -/
theorem unread_append (readable : Bool) (past rest : List Byte) :
    Source.unread { readable := readable, bytes := past ++ rest, pos := past.length } = rest := List.drop_left

/-! ### The stream checks -/

theorem checkStreams_of_unreadable {i : Instr} {s : State} (hi : usesSource i = true) (hr : s.source.readable = false) :
    checkStreams i s = .error (.unreadable, s) := by
  simp [checkStreams, hi, hr]

/-- NO_SINK is raised only where UNREADABLE is not (R258). -/
theorem checkStreams_of_noSink {i : Instr} {s : State} (hi : usesSink i = true) (ha : s.sink.available = false)
    (hr : usesSource i = true → s.source.readable = true) : checkStreams i s = .error (.noSink, s) := by
  cases hu : usesSource i with
  | false => simp [checkStreams, hi, ha, hu]
  | true => simp [checkStreams, hi, ha, hu, hr hu]

/-- A command whose stream check fails ends with the cause of the check. -/
theorem exec_of_check_error {i : Instr} {s : State} {c : Cause} (h : checkStreams i s = .error (c, s)) :
    ∃ t, exec i s = .next t ∧ EndsWith c t := by
  rw [exec_eq_complete, runOf_of_check_error h]
  exact ⟨_, rfl, rfl, rfl, rfl⟩

/-! ### The bits of a byte -/

theorem getLsbD_setBitIf (b : Byte) (β : Bool) (n j : Nat) :
    (if β then b ||| (1 <<< n) else b).getLsbD j = (b.getLsbD j || (β && decide (n < 8) && decide (n = j))) := by
  cases β with
  | false => simp
  | true =>
    have hone : ((1 <<< n : Nat) : Byte) = BitVec.twoPow 8 n := (BitVec.twoPow_eq 8 n).symm
    simp [hone, BitVec.getLsbD_twoPow]

/-- After the bits below `n` have been set as `f` tells, these are the byte's bits. -/
theorem getLsbD_foldl_bits (f : Nat → Bool) (n j : Nat) :
    ((List.range n).foldl (fun (b : Byte) j => if f j then b ||| (1 <<< j) else b) 0).getLsbD j
      = (decide (j < n) && decide (j < 8) && f j) := by
  induction n with
  | zero => simp
  | succ n ih =>
    rw [List.range_succ, List.foldl_append, List.foldl_cons, List.foldl_nil, getLsbD_setBitIf, ih]
    by_cases hj : n = j
    · subst hj
      simp [Bool.and_comm]
    · have hlt : j < n + 1 ↔ j < n := by omega
      simp [hj, hlt]

theorem getLsbD_bitsByte (f : Nat → Bool) {j : Nat} (hj : j < 8) : (bitsByte f).getLsbD j = f j := by
  rw [bitsByte, getLsbD_foldl_bits]
  simp [hj]

/-- The bits of a byte read from bit `lo` on are those it was made of. -/
theorem byteBits_bitsByte (lo : Nat) (f : Nat → Bool) : byteBits lo (bitsByte f) = (List.range' lo (8 - lo)).map f :=
  List.map_congr_left fun j hj => getLsbD_bitsByte f (by simp only [List.mem_range'_1] at hj; omega)

/-- A full data byte holds the next 8 bits (R75). -/
theorem byteBits_fullByte {w : List Bool} {i : Nat} (h : 8 * i + 8 ≤ w.length) :
    byteBits 0 (fullByte w i) = (w.drop (8 * i)).take 8 := by
  rw [fullByte, byteBits_bitsByte]
  refine List.ext_getElem (by simp; omega) fun j hj _ => ?_
  have hj8 : j < 8 := by simpa using hj
  simp [List.getElem?_eq_getElem (show 8 * i + j < w.length by omega)]

/-- The partial data byte holds the bits that are left, read from bit `8 - k` on (R76). -/
theorem byteBits_partialByte {w : List Bool} {q k : Nat} (hk : k ≤ 8) (h : w.length = 8 * q + k) :
    byteBits (8 - k) (partialByte w q k) = w.drop (8 * q) := by
  rw [partialByte, byteBits_bitsByte]
  refine List.ext_getElem (by simp; omega) fun j hj _ => ?_
  have hjk : j < k := by
    simp only [List.length_map, List.length_range'] at hj
    omega
  have hvalid : 8 ≤ 8 - k + j + k := by omega
  simp [hvalid, List.getElem?_eq_getElem (show 8 * q + j < w.length by omega)]

/-! ### The valid bits of a segment -/

/-- All 8 bits of every byte but the last, then the bits of the last that the trailer leaves valid (R193, R194). -/
theorem segmentBits_append_singleton (trailer : Byte) (bs : List Byte) (b : Byte) :
    segmentBits trailer (bs ++ [b]) = bs.flatMap (byteBits 0) ++ byteBits (lastLow trailer) b := by
  induction bs with
  | nil => rfl
  | cons c bs ih =>
    have hcons : segmentBits trailer (c :: bs ++ [b]) = byteBits 0 c ++ segmentBits trailer (bs ++ [b]) := by
      cases bs <;> rfl
    rw [hcons, ih, List.flatMap_cons, List.append_assoc]

/-- Under the trailer 0 every bit of every byte is valid (R194). -/
theorem segmentBits_zero (bs : List Byte) : segmentBits 0 bs = bs.flatMap (byteBits 0) := by
  rcases List.eq_nil_or_concat bs with rfl | ⟨bs, b, rfl⟩
  · rfl
  · rw [List.concat_eq_append, segmentBits_append_singleton, List.flatMap_append, List.flatMap_singleton]
    rfl

/-- The first `q` full data bytes hold the first `8 * q` bits. -/
theorem flatMap_fullByte {w : List Bool} {q : Nat} (h : 8 * q ≤ w.length) :
    ((List.range q).map (fullByte w)).flatMap (byteBits 0) = w.take (8 * q) := by
  induction q with
  | zero => rfl
  | succ q ih =>
    rw [List.range_succ, List.map_append, List.flatMap_append, ih (by omega), List.map_singleton, List.flatMap_singleton,
      byteBits_fullByte (by omega), Nat.mul_succ, List.take_add]

theorem toNat_trailer (n : Nat) : (BitVec.ofNat 8 (n % 8)).toNat = n % 8 := by
  rw [BitVec.toNat_ofNat]
  omega

/-- The lowest valid bit of the last byte, where the segment ends within it (R194). -/
theorem lastLow_trailer {n : Nat} (h : n % 8 ≠ 0) : lastLow (BitVec.ofNat 8 (n % 8)) = 8 - n % 8 := by
  have hne : BitVec.ofNat 8 (n % 8) ≠ 0 := fun h0 => h (by rw [← toNat_trailer, h0]; rfl)
  rw [lastLow, if_neg hne, toNat_trailer]

end Sys2Proof.Proofs
end

section
/-! PROOFS. The obligations of the family 20_memory. -/

namespace Sys2Proof.Proofs

open Sys2Proof.Machine Sys2Proof.Safety

/-- Settles O56: the full bytes hold the first bits, the partial byte where there is one the others. -/
theorem segmentUnpacksToItsBits : Obligations.SegmentUnpacksToItsBits := by
  unfold Obligations.SegmentUnpacksToItsBits
  intro bits
  have hlen : bits.length = 8 * (bits.length / 8) + bits.length % 8 := (Nat.div_add_mod _ _).symm
  have hfull := flatMap_fullByte (w := bits) (q := bits.length / 8) (by omega)
  refine ⟨_, _, rfl, toNat_trailer _, ?_⟩
  by_cases hrest : bits.length % 8 = 0
  · refine ⟨fun ht => absurd (by rw [hrest]; rfl) ht, ?_⟩
    rw [if_pos hrest, List.append_nil, hrest]
    exact (segmentBits_zero _).trans (hfull.trans (List.take_of_length_le (by omega)))
  · refine ⟨fun _ => by simp [hrest], ?_⟩
    rw [if_neg hrest, segmentBits_append_singleton, hfull, lastLow_trailer hrest,
      byteBits_partialByte (by omega) hlen, List.take_append_drop]

/-- Settles O9: the read leaves the idle block's own fields, and the register does not depend on the moves to come. -/
theorem registerReadHasNoSideEffect : Obligations.RegisterReadHasNoSideEffect := by
  unfold Obligations.RegisterReadHasNoSideEffect
  intro s n ms hhost hb
  have hidle : State.busy { s with host := ms } = false := hb
  rw [step_cons hhost, hostMove, hostRead_of_idle hidle, readReg_host]

/-- Settles O14: both moves replace their stream and nothing else. -/
theorem streamMoves : Obligations.StreamMoves := by
  unfold Obligations.StreamMoves
  intro s ms hb
  have hidle : State.busy { s with host := ms } = false := hb
  refine ⟨fun readable past rest hhost => ?_, fun available hhost => ?_⟩
  · rw [step_cons hhost, hostMove_openSource_of_idle hidle]
    exact ⟨_, rfl, rfl, unread_append readable past rest, rfl, rfl⟩
  · rw [step_cons hhost, hostMove_openSink_of_idle hidle]

/-- Settles O19: either check fails before the command's other lines, and that of the source is made first. -/
theorem streamChecksComeFirst : Obligations.StreamChecksComeFirst := by
  unfold Obligations.StreamChecksComeFirst
  intro s
  refine ⟨fun i hi hr => ?_, fun i hi ha hr => ?_⟩
  · have hsource : usesSource i = true := by revert hi; cases i <;> decide
    exact exec_of_check_error (checkStreams_of_unreadable hsource hr)
  · have hsink : usesSink i = true := by revert hi; cases i <;> decide
    have hreadable : usesSource i = true → s.source.readable = true := fun hsource => hr fun h => by rw [h] at hsource; cases hsource
    exact exec_of_check_error (checkStreams_of_noSink hsink ha hreadable)

end Sys2Proof.Proofs
end

section
/-! PROOFS. The decoder of command words by the fields of the word (spec/30_encoding.md R90 to R92). -/

namespace Sys2Proof.Proofs

/-- A command word is its two fields, RSV above OP (R90). -/
theorem rsvField_append_opField (w : Byte) : rsvField w ++ opField w = w := by
  refine BitVec.eq_of_getLsbD_eq fun j hj => ?_
  rw [BitVec.getLsbD_append, rsvField, opField, BitVec.getLsbD_extractLsb', BitVec.getLsbD_extractLsb']
  by_cases h : j < 3
  · simp [h]
  · simp [h, show j - 3 < 5 by omega, show 3 + (j - 3) = j by omega]

/-- The decoder answers a command exactly on RSV 0 and the command's opcode (R91). -/
theorem decode_eq_ok_iff_fields (w : Byte) (i : Instr) : decode w = .ok i ↔ rsvField w = 0 ∧ opField w = i.opcode := by
  unfold decode
  by_cases hrsv : rsvField w = 0
  · rw [if_neg (not_not.mpr hrsv), and_iff_right hrsv]
    generalize opField w = op
    revert op
    cases i <;> decide
  · rw [if_pos hrsv]
    exact ⟨(fun h => by cases h), fun ⟨h, _⟩ => absurd h hrsv⟩

/-- A word decodes to a command exactly when it is the encoder's word of it. -/
theorem decode_eq_ok_iff (w : Byte) (i : Instr) : decode w = .ok i ↔ w = encode i := by
  rw [decode_eq_ok_iff_fields]
  refine ⟨fun ⟨hrsv, hop⟩ => ?_, fun h => ?_⟩
  · rw [← rsvField_append_opField w, hrsv, hop, encode]
  · subst h
    cases i <;> decide

/-- The opcodes are the values of OP other than 0 and 7 (R92). -/
theorem forall_ne_opcode_iff (op : BitVec 3) : (∀ i : Instr, op ≠ i.opcode) ↔ op = 0 ∨ op = 7 := by
  constructor
  · intro h
    have hall : op ≠ 1 ∧ op ≠ 2 ∧ op ≠ 3 ∧ op ≠ 4 ∧ op ≠ 5 ∧ op ≠ 6 :=
      ⟨h .build, h .persist, h .load, h .encode, h .decode, h .release⟩
    clear h
    revert op
    decide
  · rintro (rfl | rfl) i <;> cases i <;> decide

end Sys2Proof.Proofs
end

section
/-! PROOFS. What ENCODE sends: the accumulator and the sink hold the data segment of the bits put so far (spec/43_bitstream_encoder.md
R174 to R180, 30_encoding.md R105). -/

namespace Sys2Proof.Proofs

open Sys2Proof.Machine Sys2Proof.Safety

/-- The bits `w` have been put since the sink held `base`: their full bytes are in the sink, the rest of them in the accumulator. -/
structure Packed (base : List Byte) (w : List Bool) (s : State) : Prop where
  sink : s.sink.bytes = base ++ (List.range (w.length / 8)).map (fullByte w)
  nbits : s.scratch.nbits = BitVec.ofNat 4 (w.length % 8)
  acc : s.scratch.acc = partialByte w (w.length / 8) (w.length % 8)

/-! ### Bytes of a bit sequence that grows by one bit -/

theorem fullByte_append {w : List Bool} {i : Nat} (h : 8 * i + 8 ≤ w.length) (v : List Bool) : fullByte (w ++ v) i = fullByte w i := by
  refine BitVec.eq_of_getLsbD_eq fun j hj => ?_
  rw [fullByte, fullByte, getLsbD_bitsByte _ hj, getLsbD_bitsByte _ hj]
  exact List.getD_append _ _ _ _ (by omega)

theorem map_fullByte_append {w : List Bool} {q : Nat} (h : 8 * q ≤ w.length) (v : List Bool) :
    (List.range q).map (fullByte (w ++ v)) = (List.range q).map (fullByte w) :=
  List.map_congr_left fun i hi => fullByte_append (by have := List.mem_range.mp hi; omega) v

/-- A partial byte of 8 valid bits is a full one. -/
theorem partialByte_eight (w : List Bool) (q : Nat) : partialByte w q 8 = fullByte w q := by
  refine BitVec.eq_of_getLsbD_eq fun j hj => ?_
  rw [partialByte, fullByte, getLsbD_bitsByte _ hj, getLsbD_bitsByte _ hj]
  simp

/-- Without valid bits the accumulator is 0 (R171). -/
theorem partialByte_zero (w : List Bool) (q : Nat) : partialByte w q 0 = 0 := by
  refine BitVec.eq_of_getLsbD_eq fun j hj => ?_
  rw [partialByte, getLsbD_bitsByte _ hj]
  simp [hj]

/-- The accumulator's shift adds the next bit to the partial byte (R175). -/
theorem shiftAcc_acc_of_partial {w : List Bool} {q k : Nat} {sc : Scratch} (hk : k < 8) (hw : w.length = 8 * q + k)
    (h : sc.acc = partialByte w q k) (β : Bool) : (sc.shiftAcc β).acc = partialByte (w ++ [β]) q (k + 1) := by
  refine BitVec.eq_of_getLsbD_eq fun j hj => ?_
  have hshift : (sc.shiftAcc β).acc = (sc.acc >>> 1) ||| (BitVec.zeroExtend 8 (BitVec.ofBool β) <<< 7) := rfl
  rw [hshift, BitVec.getLsbD_or, BitVec.getLsbD_ushiftRight, h, partialByte, partialByte, getLsbD_bitsByte _ hj]
  by_cases h7 : j = 7
  · subst h7
    have hlast : (w ++ [β]).getD (8 * q + (7 - (8 - (k + 1)))) false = β := by
      rw [show 8 * q + (7 - (8 - (k + 1))) = w.length by omega, List.getD_append_right _ _ _ _ le_rfl]
      simp
    rw [hlast, decide_eq_true (show 8 - (k + 1) ≤ 7 by omega), Bool.true_and, BitVec.getLsbD_of_ge _ _ (show 8 ≤ 1 + 7 by omega)]
    cases β <;> decide
  · have hbit : (BitVec.zeroExtend 8 (BitVec.ofBool β) <<< 7).getLsbD j = false := by
      rw [BitVec.getLsbD_shiftLeft]
      simp [show j < 7 by omega]
    rw [getLsbD_bitsByte _ (by omega), hbit, Bool.or_false]
    by_cases hv : 8 - (k + 1) ≤ j
    · rw [List.getD_append _ _ _ _ (by omega), decide_eq_true hv, decide_eq_true (show 8 - k ≤ 1 + j by omega),
        show 1 + j - (8 - k) = j - (8 - (k + 1)) by omega]
    · rw [decide_eq_false hv, decide_eq_false (show ¬ 8 - k ≤ 1 + j by omega), Bool.false_and, Bool.false_and]

/-! ### PutBit, one code, the input -/

theorem packed_resetAcc (s : State) : Packed s.sink.bytes [] (s.mapScratch Scratch.resetAcc) :=
  ⟨by simp, rfl, (partialByte_zero _ _).symm⟩

/-- PutBit through the register it shifts: the flush where the accumulator is full (R175, R176). -/
theorem putBit_eq (s : State) (β : Bool) :
    putBit s β = if (s.scratch.shiftAcc β).nbits = 8
      then ((s.mapScratch (Scratch.shiftAcc β)).sinkByte (s.scratch.shiftAcc β).acc).mapScratch Scratch.resetAcc
      else s.mapScratch (Scratch.shiftAcc β) := rfl

theorem Packed.putBit {base : List Byte} {w : List Bool} {s : State} (h : Packed base w s) (β : Bool) :
    Packed base (w ++ [β]) (putBit s β) := by
  have hlen : (w ++ [β]).length = w.length + 1 := by simp
  have hacc := shiftAcc_acc_of_partial (Nat.mod_lt w.length (by decide)) (Nat.div_add_mod w.length 8).symm h.acc β
  have hn : (s.scratch.shiftAcc β).nbits = BitVec.ofNat 4 (w.length % 8 + 1) := by
    rw [Scratch.shiftAcc_nbits, h.nbits, BitVec.ofNat_add]
    rfl
  have hsink := h.sink
  rw [← map_fullByte_append (by omega) [β]] at hsink
  rw [putBit_eq]
  by_cases h7 : w.length % 8 = 7
  · have hfull : (s.scratch.shiftAcc β).nbits = 8 := by rw [hn, h7]; rfl
    have hq : (w.length + 1) / 8 = w.length / 8 + 1 := by omega
    have hr : (w.length + 1) % 8 = 0 := by omega
    rw [if_pos hfull]
    rw [h7, partialByte_eight] at hacc
    constructor
    · rw [hlen, hq, List.range_succ, List.map_append, ← List.append_assoc, ← hsink, List.map_singleton, ← hacc]
      rfl
    · rw [hlen, hr]
      rfl
    · rw [hlen, hr, partialByte_zero]
      rfl
  · have hq : (w.length + 1) / 8 = w.length / 8 := by omega
    have hr : (w.length + 1) % 8 = w.length % 8 + 1 := by omega
    have hopen : (s.scratch.shiftAcc β).nbits ≠ 8 := fun he => by
      rw [hn, ← BitVec.toNat_inj, BitVec.toNat_ofNat, show (8 : BitVec 4).toNat = 8 from rfl] at he
      omega
    rw [if_neg hopen]
    exact ⟨by rw [hlen, hq]; exact hsink, by rw [hlen, hr]; exact hn, by rw [hlen, hq, hr]; exact hacc⟩

theorem Packed.foldl_putBit {base : List Byte} {w : List Bool} {s : State} (h : Packed base w s) (v : List Bool) :
    Packed base (w ++ v) (v.foldl Machine.putBit s) := by
  induction v generalizing w s with
  | nil => rwa [List.append_nil]
  | cons β v ih =>
    rw [List.foldl_cons, List.append_cons]
    exact ih (h.putBit β)

/-- A code that was sent: its bits are put after those before it. -/
theorem Packed.encodeByte {base : List Byte} {w : List Bool} {v : Byte} {s t : State} (h : Packed base w s)
    (hok : encodeByte v s = .ok t) : Packed base (w ++ valueBits s.store v) t := by
  rcases encodeByte_cases v s with ⟨he, -⟩ | ⟨i, hi, ⟨he, -⟩ | ⟨he, -⟩⟩
  · rw [he] at hok; cases hok
  · rw [he] at hok; cases hok
  · rw [he] at hok
    cases hok
    rw [valueBits, hi]
    exact h.foldl_putBit _

/-- The codes of an input that were all sent: its code bits in write order (R172). -/
theorem Packed.encodeBytes {base : List Byte} {w : List Bool} {vs : List Byte} {s t : State} (h : Packed base w s)
    (hok : encodeBytes vs s = .ok t) : Packed base (w ++ inputBits s.store vs) t := by
  induction vs generalizing w s with
  | nil => cases hok; rwa [inputBits, List.flatMap_nil, List.append_nil]
  | cons v vs ih =>
    have h₁ : Packed base w (s.srcSkip 1) := ⟨h.sink, h.nbits, h.acc⟩
    rw [encodeBytes_cons] at hok
    cases he : Machine.encodeByte v (s.srcSkip 1) with
    | error e => rw [he] at hok; cases hok
    | ok u =>
      rw [he] at hok
      have hstore : u.store = s.store := by
        have hadv := (advances_encodeByte v (s.srcSkip 1)).store
        rwa [he] at hadv
      have hrest := ih (h₁.encodeByte he) hok
      rw [hstore, List.append_assoc] at hrest
      exact hrest

/-- The end of the data segment: a partial byte where there is one, then the trailer (R178, R180). -/
theorem Packed.endSegment {base : List Byte} {w : List Bool} {s : State} (h : Packed base w s) :
    (endSegment s).sink.bytes = base ++ dataSegment w := by
  have htrailer : s.scratch.nbits.zeroExtend 8 = BitVec.ofNat 8 (w.length % 8) := by
    rw [h.nbits]
    refine BitVec.eq_of_toNat_eq ?_
    simp
    omega
  have hzero : s.scratch.nbits = 0 ↔ w.length % 8 = 0 := by
    rw [h.nbits, ← BitVec.toNat_inj, BitVec.toNat_ofNat, show (0 : BitVec 4).toNat = 0 from rfl]
    omega
  unfold Machine.endSegment
  dsimp only
  rw [htrailer, dataSegment]
  by_cases hr : w.length % 8 = 0
  · rw [if_pos (hzero.mpr hr), if_pos hr]
    simp [h.sink]
  · rw [if_neg (mt hzero.mp hr), if_neg hr]
    simp [h.sink, h.acc]

/-- An ENCODE that ended OK has appended the data segment of its input's code bits. -/
theorem encodeRun_ok_sink {s t : State} (h : encodeRun s = .ok t) :
    t.sink.bytes = s.sink.bytes ++ dataSegment (inputBits s.store s.source.unread) := by
  rcases checkStreams_error_or_ok .encode s with ⟨c, hc⟩ | hc
  · have he := runOf_of_check_error hc
    rw [runOf, h] at he
    cases he
  · rw [encodeRun_eq hc] at h
    cases hu : encodeBytes s.source.unread ((s.setPhase .encode).mapScratch Scratch.resetAcc) with
    | error e => rw [hu] at h; cases h
    | ok u =>
      rw [hu] at h
      cases h
      exact ((packed_resetAcc (s.setPhase .encode)).encodeBytes hu).endSegment

/-! ### Sizes -/

theorem length_valueBits (st : Store) (v : Byte) : (valueBits st v).length = codeLengthOf st v := by
  unfold valueBits codeLengthOf
  cases st.lookupValue v with
  | none => rfl
  | some i => simp [Node.codeBits]

theorem length_inputBits (st : Store) (input : List Byte) : (inputBits st input).length = codeBitCount st input := by
  rw [inputBits, List.length_flatMap, codeBitCount]
  simp only [length_valueBits]

theorem length_dataSegment (w : List Bool) : (dataSegment w).length = w.length / 8 + (if w.length % 8 = 0 then 1 else 2) := by
  unfold dataSegment
  split <;> simp

theorem getLast?_dataSegment (w : List Bool) : (dataSegment w).getLast? = some (BitVec.ofNat 8 (w.length % 8)) :=
  List.getLast?_concat

end Sys2Proof.Proofs
end

section
/-! PROOFS. BUILD of two byte values: one pass of the merge loop over two leaves (spec/30_encoding.md R113, 41_tree_builder.md R132 to
R144). -/

namespace Sys2Proof.Machine

open Sys2Proof.Safety

/-- The tree over two leaves, `x` the left one (R135, R138). -/
structure PairTree (x y : NodeId) (lx ly : Byte × Word) (st : Store) : Prop where
  count : st.count.val = 3
  last : st.poolAt 2 = 2
  left : st.nodeAt x = (Node.leafOf lx).pushBit false
  right : st.nodeAt y = (Node.leafOf ly).pushBit true
  top : st.nodeAt 2 = { value := 0, frequency := lx.2 + ly.2, code := 0, codeLength := 0, left := some x, right := some y }

/-! ### The input -/

theorem seenValues_of_two {input : List Byte} {a b : Byte} (hab : a < b) (hmem : ∀ v, v ∈ input ↔ v = a ∨ v = b) :
    seenValues input = [a, b] := by
  have hne := BitVec.ne_of_lt hab
  have hperm : (seenValues input).Perm [a, b] :=
    (List.perm_ext_iff_of_nodup (byteValues_nodup.filter _) (by simp [hne])).mpr fun v =>
      mem_seenValues.trans (by simp [hmem])
  exact hperm.eq_of_pairwise (le := (· < ·)) (fun u v _ _ huv hvu => absurd hvu (BitVec.lt_asymm huv))
    (byteValues_pairwise.filter _) (by simp [hab])

theorem inputLeaves_of_two {input : List Byte} {a b : Byte} (hab : a < b) (hmem : ∀ v, v ∈ input ↔ v = a ∨ v = b) :
    inputLeaves input = [(a, BitVec.ofNat 32 (input.count a)), (b, BitVec.ofNat 32 (input.count b))] := by
  rw [inputLeaves, seenValues_of_two hab hmem]
  rfl

theorem length_of_two {input : List Byte} {a b : Byte} (hne : a ≠ b) (hmem : ∀ v, v ∈ input → v = a ∨ v = b) :
    input.length = input.count a + input.count b := by
  induction input with
  | nil => rfl
  | cons v vs ih =>
    have ih := ih fun u hu => hmem u (List.mem_cons_of_mem v hu)
    rcases hmem v List.mem_cons_self with rfl | rfl
    · rw [List.length_cons, List.count_cons_self, List.count_cons_of_ne hne]
      omega
    · rw [List.length_cons, List.count_cons_self, List.count_cons_of_ne hne.symm]
      omega

/-! ### Two leaves merged -/

theorem pushBit_of_isLeaf {depth : Nat} {β : Bool} {i : NodeId} {st : Store} (hleaf : (st.nodeAt i).isLeaf = true)
    (hlen : (st.nodeAt i).codeLength.toNat ≠ 32) : pushBit (depth + 1) β i st = some (st.setNode i ((st.nodeAt i).pushBit β)) := by
  obtain ⟨hl, hr⟩ : (st.nodeAt i).left = none ∧ (st.nodeAt i).right = none := by simpa [Node.isLeaf] using hleaf
  unfold pushBit
  dsimp only
  rw [if_neg hlen, hl, hr]

theorem pushBit_of_leafOf {depth : Nat} {β : Bool} {i : NodeId} {st : Store} {l : Byte × Word} (h : st.nodeAt i = Node.leafOf l) :
    pushBit (depth + 1) β i st = some (st.setNode i ((Node.leafOf l).pushBit β)) := by
  rw [pushBit_of_isLeaf (by rw [h]; rfl) (by rw [h]; exact (by decide : (0 : BitVec 8).toNat ≠ 32)), h]

/-- The first bit of a new leaf is its code (R137). -/
theorem code_pushBit_leafOf (β : Bool) (l : Byte × Word) : ((Node.leafOf l).pushBit β).code = if β then 1 else 0 := by
  have h : ((Node.leafOf l).pushBit β).code = (0 <<< 1) ||| bit32 β := rfl
  rw [h]
  cases β <;> decide

/-- The two pushes of a pass over two new leaves: the first gets a 0, the second a 1. -/
def Store.pushPair (x y : NodeId) (lx ly : Byte × Word) (st : Store) : Store :=
  (st.setNode x ((Node.leafOf lx).pushBit false)).setNode y ((Node.leafOf ly).pushBit true)

@[simp] theorem Store.pushPair_count (x y : NodeId) (lx ly : Byte × Word) (st : Store) : (st.pushPair x y lx ly).count = st.count := rfl

theorem mergeOnce_of_leaves {m : Nat} {st : Store} {x y : NodeId} {lx ly : Byte × Word} (hx : st.poolAt m = x) (hy : st.poolAt (m + 1) = y)
    (hne : x ≠ y) (hlx : st.nodeAt x = Node.leafOf lx) (hly : st.nodeAt y = Node.leafOf ly) :
    st.mergeOnce m = some (((st.pushPair x y lx ly).addNode ((st.pushPair x y lx ly).mergedNode x y)).sortFrom (m + 2)) := by
  have hly₁ : (st.setNode x ((Node.leafOf lx).pushBit false)).nodeAt y = Node.leafOf ly := by
    rw [Store.nodeAt_setNode, if_neg hne.symm, hly]
  unfold Store.mergeOnce
  dsimp only
  rw [hx, hy, pushBit_of_leafOf hlx]
  dsimp only
  rw [pushBit_of_leafOf hly₁]
  rfl

/-- One pass over the forest of two leaves makes their tree. -/
theorem Forest.mergeOnce_two {ls : List (Byte × Word)} {st : Store} {x y : NodeId} {lx ly : Byte × Word} (hf : Forest ls 0 st)
    (hls : ls.length = 2) (hx : st.poolAt 0 = x) (hy : st.poolAt 1 = y) (hlx : st.nodeAt x = Node.leafOf lx)
    (hly : st.nodeAt y = Node.leafOf ly) :
    ∃ st', st.mergeOnce 0 = some st' ∧ PairTree x y lx ly st' ∧ st'.byteCount = st.byteCount := by
  have hcount : st.count.val = 2 := by have := hf.count_eq; omega
  have hxv : x.val < st.count.val := hx ▸ hf.perm.poolAt_lt (by omega)
  have hyv : y.val < st.count.val := hy ▸ hf.perm.poolAt_lt (by omega)
  have hne : x ≠ y := fun he => by
    have := hf.perm.poolAt_inj (p := 0) (q := 1) (by omega) (by omega) (by rw [hx, hy, he])
    omega
  have ho := mergeOnce_of_leaves hx hy hne hlx hly
  have hstep := mergeOnce_step hf.dense hf.closed hf.perm (by omega) (by omega) ho
  have hf' := hf.mergeOnce (by omega) (by omega) ho
  have hcount' := hstep.count_eq
  have hold : ∀ i : NodeId, i.val < st.count.val →
      (((st.pushPair x y lx ly).addNode ((st.pushPair x y lx ly).mergedNode x y)).sortFrom (0 + 2)).nodeAt i
        = (st.pushPair x y lx ly).nodeAt i := fun i hi => by
    rw [Store.nodeAt_sortFrom, Store.nodeAt_addNode, Store.pushPair_count, if_neg hi.ne]
  refine ⟨_, ho, ⟨by omega, Fin.ext (hf'.last (by omega)), ?_, ?_, ?_⟩, hstep.byteCount_eq⟩
  · rw [hold x hxv, Store.pushPair, Store.nodeAt_setNode, if_neg hne, Store.nodeAt_setNode, if_pos rfl]
  · rw [hold y hyv, Store.pushPair, Store.nodeAt_setNode, if_pos rfl]
  · have hnew : st.mergedNode x y
        = { value := 0, frequency := lx.2 + ly.2, code := 0, codeLength := 0, left := some x, right := some y } := by
      rw [Store.mergedNode, hlx, hly]
      rfl
    rw [← hnew, ← hx, ← hy, ← hstep.new_node, hcount, hx, hy]
    rfl

/-! ### The merge phase -/

theorem scanFrom_zero_of_count_two {st : Store} (h : st.count.val = 2) : st.scanFrom 0 = [st.poolAt 0, st.poolAt 1] := by
  rw [Store.scanFrom, h]
  rfl

/-- The stable sort of two ids: they change places only where the second has the smaller frequency (R133). -/
theorem stableSort_pair (st : Store) (i j : NodeId) :
    st.stableSort [i, j] = if (st.nodeAt i).frequency ≤ (st.nodeAt j).frequency then [i, j] else [j, i] := rfl

/-- The sorted pool of two ids. -/
theorem sortFrom_zero_of_count_two {st : Store} (h : st.count.val = 2) :
    ((st.nodeAt (st.poolAt 0)).frequency ≤ (st.nodeAt (st.poolAt 1)).frequency →
        (st.sortFrom 0).poolAt 0 = st.poolAt 0 ∧ (st.sortFrom 0).poolAt 1 = st.poolAt 1)
      ∧ ((st.nodeAt (st.poolAt 1)).frequency < (st.nodeAt (st.poolAt 0)).frequency →
        (st.sortFrom 0).poolAt 0 = st.poolAt 1 ∧ (st.sortFrom 0).poolAt 1 = st.poolAt 0) := by
  have hsort := st.scanFrom_sortFrom 0
  rw [scanFrom_zero_of_count_two h, scanFrom_zero_of_count_two (st := st.sortFrom 0) h, stableSort_pair] at hsort
  refine ⟨fun hle => ?_, fun hlt => ?_⟩
  · rw [if_pos hle] at hsort
    simpa using hsort
  · rw [if_neg (BitVec.not_le.mpr hlt)] at hsort
    simpa using hsort

/-- More than one leaf: the merge phase starts from the sorted pool alone. -/
theorem mergeStart_of_lcount_ne_one {s : State} (h : s.scratch.lcount ≠ 1) :
    mergeStart s = ((s.setPhase .merge).mapStore (Store.sortFrom 0)).mapScratch fun sc => { sc with m := 0 } := by
  rcases singleLeafCode_cases (((s.setPhase .merge).mapStore (Store.sortFrom 0)).mapScratch fun sc => { sc with m := 0 }) with
    ⟨-, h'⟩ | ⟨h1, -⟩
  · exact h'
  · exact absurd h1 h

/-- The loop is over when one node is left unmerged. -/
theorem mergeLoop_of_done {passes : Nat} {s : State} (h : s.store.count.val ≤ s.scratch.m.toNat + 1) : mergeLoop passes s = .ok s := by
  cases passes with
  | zero => rfl
  | succ passes => rw [mergeLoop, if_neg (by omega)]

theorem mergeLoop_of_mergeOnce {passes : Nat} {s : State} {st : Store} (h : s.scratch.m.toNat + 1 < s.store.count.val)
    (ho : s.store.mergeOnce s.scratch.m.toNat = some st) :
    mergeLoop (passes + 1) s = mergeLoop passes { s with store := st, scratch := { s.scratch with m := s.scratch.m + 2 } } := by
  rw [mergeLoop, if_pos (by omega), ho]

/-- A state that meets both of BUILD's checks passes them. -/
theorem verifyTree_of_checks {s : State} {r : NodeId} (hroot : s.store.root = some r)
    (hfreq : (s.store.nodeAt r).frequency = s.store.byteCount) (hcount : s.store.count.val = 2 * s.scratch.lcount.toNat - 1) :
    verifyTree s = .ok s := by
  unfold verifyTree
  rw [hroot]
  dsimp only
  rw [if_neg (not_not.mpr hfreq), if_neg (not_not.mpr hcount)]

section Pair

variable {ls : List (Byte × Word)} {s : State} {x y : NodeId} {lx ly : Byte × Word}

/-- The loop over two leaves is one pass. -/
theorem mergeLoop_two (hf : Forest ls 0 s.store) (hls : ls.length = 2) (hm : s.scratch.m = 0) (hx : s.store.poolAt 0 = x)
    (hy : s.store.poolAt 1 = y) (hlx : s.store.nodeAt x = Node.leafOf lx) (hly : s.store.nodeAt y = Node.leafOf ly) :
    ∃ u, mergeLoop 2 s = .ok u ∧ PairTree x y lx ly u.store ∧ u.store.byteCount = s.store.byteCount
      ∧ u.scratch.lcount = s.scratch.lcount := by
  obtain ⟨st, ho, htree, hbytes⟩ := hf.mergeOnce_two hls hx hy hlx hly
  have hcount := hf.count_eq
  have hm0 : s.scratch.m.toNat = 0 := by rw [hm]; rfl
  have hm2 : (s.scratch.m + 2).toNat = 2 := by rw [hm]; rfl
  refine ⟨{ s with store := st, scratch := { s.scratch with m := s.scratch.m + 2 } }, ?_, htree, hbytes, rfl⟩
  rw [mergeLoop_of_mergeOnce (by omega) (by rwa [hm0])]
  exact mergeLoop_of_done (le_of_eq (by rw [hm2, htree.count]))

/-- The tree over two leaves passes BUILD's checks, with its top as the root. -/
theorem verifyTree_setRoot_of_pairTree (h : PairTree x y lx ly s.store) (hlc : s.scratch.lcount.toNat = 2)
    (hbytes : lx.2 + ly.2 = s.store.byteCount) :
    verifyTree (setRoot s) = .ok (setRoot s) ∧ (setRoot s).store = { s.store with root := some 2 } := by
  have hstore : (setRoot s).store = { s.store with root := some 2 } := by
    rw [setRoot, State.mapStore_store, h.count, h.last]
  refine ⟨verifyTree_of_checks (r := 2) (by rw [hstore]) ?_ ?_, hstore⟩
  · rw [hstore]
    exact (congrArg Node.frequency h.top).trans hbytes
  · rw [hstore]
    exact h.count.trans (by rw [show (setRoot s).scratch = s.scratch from rfl, hlc])

/-- The merge phase from two leaves whose sorted order is `x`, `y`. -/
theorem mergePhase_two (hf : Forest ls 0 (s.store.sortFrom 0)) (hls : ls.length = 2) (hlc : s.scratch.lcount.toNat = 2)
    (hx : (s.store.sortFrom 0).poolAt 0 = x) (hy : (s.store.sortFrom 0).poolAt 1 = y) (hlx : s.store.nodeAt x = Node.leafOf lx)
    (hly : s.store.nodeAt y = Node.leafOf ly) (hbytes : lx.2 + ly.2 = s.store.byteCount) :
    ∃ t, mergePhase s = .ok t ∧ PairTree x y lx ly t.store ∧ t.store.root = some 2 := by
  have hcount : (s.store.sortFrom 0).count.val = 2 := by have := hf.count_eq; omega
  have hstart := mergeStart_of_lcount_ne_one (s := s) fun h => by rw [h] at hlc; cases hlc
  obtain ⟨u, hu, htree, hb, hl⟩ := mergeLoop_two
    (s := ((s.setPhase .merge).mapStore (Store.sortFrom 0)).mapScratch fun sc => { sc with m := 0 }) hf hls rfl hx hy hlx hly
  rw [← hstart] at hu hb hl
  have hlc' : u.scratch.lcount.toNat = 2 := by rw [hl, mergeStart, singleLeafCode_scratch]; exact hlc
  have hbytes' : lx.2 + ly.2 = u.store.byteCount := by rw [hb, hstart]; exact hbytes
  obtain ⟨hv, hroot⟩ := verifyTree_setRoot_of_pairTree htree hlc' hbytes'
  refine ⟨setRoot u, ?_, ?_, by rw [hroot]⟩
  · rw [mergePhase_eq_bind, show (mergeStart s).store.count.val = 2 by rw [hstart]; exact hcount, hu]
    exact hv
  · rw [hroot]
    exact ⟨htree.count, htree.last, htree.left, htree.right, htree.top⟩

end Pair

/-! ### BUILD -/

/-- BUILD of a usable input runs into the merge phase. -/
theorem buildRun_eq_mergePhase {s : State} (hr : s.source.readable = true) (hne : s.source.unread ≠ [])
    (hlen : s.source.unread.length ≤ Config.maxInput) :
    ∃ sc, Counted s.source.unread sc ∧ buildRun s = mergePhase (createLeaves (recordTotals (countedState sc s))) := by
  have hcs : checkStreams .build s = .ok s := by simp [checkStreams, usesSink, hr]
  rcases countPass_cases (pre := []) (input := s.source.unread) (s := countStart s) (counted_clearTable _) (Nat.zero_le _) with
    ⟨-, sc, hsc, heq⟩ | ⟨hlt, -⟩
  · refine ⟨sc, hsc, ?_⟩
    rw [buildRun_eq_bind hcs, heq]
    exact if_neg (mt hsc.lcount_eq_zero_iff.mp hne)
  · exact absurd hlt (not_lt.mpr hlen)

/-- BUILD of two byte values `a` and `b`, in ascending order: the tree whose left leaf is the less frequent one, or `a`. -/
theorem buildRun_two {s : State} {a b : Byte} (hr : s.source.readable = true) (hlen : s.source.unread.length ≤ Config.maxInput)
    (hab : a < b) (hmem : ∀ v, v ∈ s.source.unread ↔ v = a ∨ v = b) :
    let la := (a, BitVec.ofNat 32 (s.source.unread.count a))
    let lb := (b, BitVec.ofNat 32 (s.source.unread.count b))
    ∃ t, buildRun s = .ok t ∧ t.store.root = some 2
      ∧ (la.2 ≤ lb.2 → PairTree 0 1 la lb t.store) ∧ (lb.2 < la.2 → PairTree 1 0 lb la t.store) := by
  intro la lb
  obtain ⟨sc, hsc, hrun⟩ := buildRun_eq_mergePhase hr (List.ne_nil_of_mem ((hmem a).mpr (.inl rfl))) hlen
  obtain ⟨hl, hc, hb, -⟩ := createLeaves_lists hsc
  have hleaves : inputLeaves s.source.unread = [la, lb] := inputLeaves_of_two hab hmem
  have hlc : (createLeaves (recordTotals (countedState sc s))).scratch.lcount.toNat = 2 := by
    rw [show (createLeaves (recordTotals (countedState sc s))).scratch.lcount = sc.lcount from rfl, hsc.lcount_toNat,
      ← length_inputLeaves, hleaves]
    rfl
  have hbytes : la.2 + lb.2 = (createLeaves (recordTotals (countedState sc s))).store.byteCount := by
    rw [hb, length_of_two (BitVec.ne_of_lt hab) fun v => (hmem v).mp, BitVec.ofNat_add]
  rw [hleaves] at hl hc
  rw [hrun]
  generalize createLeaves (recordTotals (countedState sc s)) = u at *
  have hf := forest_of_lists hl hc (by simp) (by simp)
  have hp0 : u.store.poolAt 0 = 0 := hl.poolAt (by simp)
  have hp1 : u.store.poolAt 1 = 1 := hl.poolAt (by simp)
  have hna : u.store.nodeAt 0 = Node.leafOf la := hl.nodeAt (k := 0) (by simp) (by simp)
  have hnb : u.store.nodeAt 1 = Node.leafOf lb := hl.nodeAt (k := 1) (by simp) (by simp)
  obtain ⟨hsame, hswap⟩ := sortFrom_zero_of_count_two (st := u.store) hc
  rw [hp0, hp1, hna, hnb] at hsame hswap
  by_cases hle : la.2 ≤ lb.2
  · obtain ⟨hx, hy⟩ := hsame hle
    obtain ⟨t, ht, htree, hroot⟩ := mergePhase_two hf rfl hlc hx hy hna hnb hbytes
    exact ⟨t, ht, hroot, fun _ => htree, fun hlt => absurd hle (BitVec.not_le.mpr hlt)⟩
  · have hlt := BitVec.not_le.mp hle
    obtain ⟨hx, hy⟩ := hswap hlt
    obtain ⟨t, ht, htree, hroot⟩ := mergePhase_two hf rfl hlc hx hy hnb hna ((BitVec.add_comm _ _).trans hbytes)
    exact ⟨t, ht, hroot, fun h => absurd h hle, fun _ => htree⟩

end Sys2Proof.Machine
end

section
/-! PROOFS. The obligations of the family 30_encoding. -/

namespace Sys2Proof.Proofs

open Sys2Proof.Machine Sys2Proof.Safety

/-- Settles O3: each command's word is the encoder's, and no other word decodes to it. -/
theorem commandWords : Obligations.CommandWords := by
  unfold Obligations.CommandWords
  intro w i
  rw [decode_eq_ok_iff]
  cases i <;> simp [encode, Instr.opcode]

/-- Settles O4: a word selects a command by its two fields, and the opcodes are all values of OP but 0 and 7. -/
theorem decodeIsEncodeInverse : Obligations.DecodeIsEncodeInverse := by
  unfold Obligations.DecodeIsEncodeInverse
  refine ⟨fun i => (decode_eq_ok_iff _ i).mpr rfl, fun i w h => (decode_eq_ok_iff w i).mp h, fun w => ?_⟩
  have hfields : (∀ i, decode w ≠ .ok i) ↔ rsvField w ≠ 0 ∨ ∀ i : Instr, opField w ≠ i.opcode := by
    simp only [ne_eq, decode_eq_ok_iff_fields, not_and_or, forall_or_left]
  rw [hfields, forall_ne_opcode_iff]
  exact Iff.rfl

/-- Settles O57: the sizes of a segment, and that a segment is what ENCODE appends. -/
theorem compressionSize : Obligations.CompressionSize := by
  unfold Obligations.CompressionSize
  refine ⟨fun st input => ⟨length_inputBits st input, length_dataSegment _⟩, fun s t h hok => ?_⟩
  rcases exec_cases h with ⟨u, hr, rfl⟩ | ⟨c, u, -, rfl⟩
  · rw [State.finish_sink, encodeRun_ok_sink hr, ← length_inputBits, List.length_append, length_dataSegment, List.getLast?_append,
      getLast?_dataSegment]
    exact ⟨(Nat.add_assoc _ _ _).symm, rfl⟩
  · cases c <;> cases hok

/-- Settles O42: the sort puts the less frequent leaf first, and the one pass gives the first leaf a 0, the second a 1. -/
theorem twoSymbolBuild : Obligations.TwoSymbolBuild := by
  unfold Obligations.TwoSymbolBuild
  intro s a b hr hlen hab hmem
  have hca := List.count_le_length (a := a) (l := s.source.unread)
  have hcb := List.count_le_length (a := b) (l := s.source.unread)
  have hle : BitVec.ofNat 32 (s.source.unread.count a) ≤ BitVec.ofNat 32 (s.source.unread.count b)
      ↔ s.source.unread.count a ≤ s.source.unread.count b := by
    rw [BitVec.le_def, BitVec.toNat_ofNat, BitVec.toNat_ofNat]
    omega
  obtain ⟨t, ht, hroot, hfirst, hswap⟩ := buildRun_two hr hlen hab hmem
  refine ⟨t.finish, by rw [exec_eq_complete, runOf, ht]; rfl, ⟨rfl, rfl, rfl⟩, ?_⟩
  rw [State.finish_store]
  by_cases h : s.source.unread.count a ≤ s.source.unread.count b
  · obtain ⟨hcount, -, hleft, hright, htop⟩ := hfirst (hle.mpr h)
    rw [hleft, hright, htop]
    exact ⟨hcount, hroot, rfl, rfl, rfl, rfl, fun _ => ⟨code_pushBit_leafOf false _, code_pushBit_leafOf true _, rfl, rfl⟩,
      fun hlt => absurd h (not_le.mpr hlt)⟩
  · obtain ⟨hcount, -, hleft, hright, htop⟩ := hswap (BitVec.not_le.mp (mt hle.mp h))
    rw [hleft, hright, htop]
    exact ⟨hcount, hroot, rfl, rfl, rfl, rfl, fun hle' => absurd hle' h,
      fun _ => ⟨code_pushBit_leafOf true _, code_pushBit_leafOf false _, rfl, rfl⟩⟩

end Sys2Proof.Proofs
end

section
/-! PROOFS. BUILD's counters and its refusals by the input's length (spec/40_frequency_table.md R125 to R128). -/

namespace Sys2Proof.Machine

open Sys2Proof.Safety

/-- No frequency of a counted input wraps: an occurrence count is at most the input's length (R127). -/
theorem Counted.frequency_toNat {input : List Byte} {sc : Scratch} (h : Counted input sc) (hlen : input.length ≤ Config.maxInput)
    (v : Byte) : (sc.ftAt v).frequency.toNat = input.count v := by
  have hcount := List.count_le_length (a := v) (l := input)
  rw [h.table, BitVec.toNat_ofNat]
  unfold Config.maxInput at hlen
  omega

/-- TOTAL has a bit to spare over the longest input (R127). -/
theorem Counted.total_toNat {input : List Byte} {sc : Scratch} (h : Counted input sc) (hlen : input.length ≤ Config.maxInput) :
    sc.total.toNat = input.length := by
  rw [h.total, BitVec.toNat_ofNat]
  unfold Config.maxInput at hlen
  omega

/-- BUILD of a readable source counts, then goes on to the lines after the count: it uses no sink (R130). -/
theorem buildRun_of_readable {s : State} (hr : s.source.readable = true) :
    buildRun s = (countPass s.source.unread (countStart s)).bind afterCount :=
  buildRun_eq_bind (by simp [checkStreams, usesSink, hr])

/-- A source without unread bytes leaves the table cleared, with no value seen (R125). -/
theorem buildRun_of_nil {s : State} (hr : s.source.readable = true) (hu : s.source.unread = []) :
    buildRun s = .error (.emptyInput, countStart s) := by
  have hnone : (countStart s).scratch.lcount = 0 := rfl
  rw [buildRun_of_readable hr, hu, countPass, Except.bind, afterCount, if_pos hnone]

/-- An input longer than MAX_INPUT ends in the counting pass (R126). -/
theorem buildRun_of_tooLong {s : State} (hr : s.source.readable = true) (hlen : Config.maxInput < s.source.unread.length) :
    ∃ u, buildRun s = .error (.tooLong, u) := by
  rw [buildRun_of_readable hr]
  rcases countPass_cases (pre := []) (input := s.source.unread) (s := countStart s) (counted_clearTable _) (Nat.zero_le _) with
    ⟨hle, -⟩ | ⟨-, n, sc, -, heq⟩
  · exact absurd hle (not_le.mpr hlen)
  · exact ⟨_, by rw [heq]; rfl⟩

/-- A fault of a command that empties the store (BUILD, LOAD) is its next state, with the cause in STATUS and the store empty (R262). -/
theorem exec_of_error_of_emptiesStore {i : Instr} {s u : State} {c : Cause} (hi : emptiesStore i = true)
    (h : runOf i s = .error (c, u)) : ∃ t, exec i s = .next t ∧ EndsWith c t ∧ StoreEmpty t.store := by
  rw [exec_eq_complete, h]
  refine ⟨raise i c s u, rfl, ⟨rfl, rfl, rfl⟩, ?_⟩
  rw [raise_store, if_pos hi]
  exact ⟨rfl, rfl, rfl, rfl⟩

end Sys2Proof.Machine
end

section
/-! PROOFS. The obligations of the family 40_frequency_table. -/

namespace Sys2Proof.Proofs

open Sys2Proof.Machine Sys2Proof.Safety

/-- Settles O34: the pass ends in the table of the whole input, and no counter has wrapped. -/
theorem frequencyPassCounts : Obligations.FrequencyPassCounts := by
  unfold Obligations.FrequencyPassCounts
  intro s input hlen
  rcases countPass_cases (pre := []) (input := input) (s := s.mapScratch Scratch.clearTable) (counted_clearTable _) (Nat.zero_le _) with
    ⟨-, sc, hsc, heq⟩ | ⟨hlt, -⟩
  · rw [List.nil_append] at hsc
    exact ⟨_, heq, fun v => ⟨by rw [hsc.table], hsc.frequency_toNat hlen v⟩, hsc.lcount_toNat,
      hsc.total_toNat hlen, rfl, rfl⟩
  · exact absurd hlen (not_le.mpr hlt)

/-- Settles O35: no bytes are refused after the counting pass, too many within it. -/
theorem buildRefusesInputLengths : Obligations.BuildRefusesInputLengths := by
  unfold Obligations.BuildRefusesInputLengths
  intro s hr
  refine ⟨fun hu => exec_of_error_of_emptiesStore rfl (buildRun_of_nil hr hu), fun hlen => ?_⟩
  obtain ⟨u, hrun⟩ := buildRun_of_tooLong hr (Nat.lt_of_lt_of_le (by decide) hlen)
  exact exec_of_error_of_emptiesStore rfl hrun

end Sys2Proof.Proofs
end

section
/-! PROOFS. Descent in the tree store (spec/41_tree_builder.md R137, R142): where the children of the slots are linked as R21 and R137 say,
a node lies under one top only, by one path, and never under both children of a node. -/

namespace Sys2Proof.Machine

open Sys2Proof.Safety

/-- The child on the side `β`: left for 0, right for 1 (R142). -/
def Node.child (β : Bool) (n : Node) : Option NodeId := if β then n.right else n.left

theorem Node.mem_childIds_iff_child {n : Node} {c : NodeId} : c ∈ childIds n ↔ ∃ β, n.child β = some c := by
  simp [Node.mem_childIds, Node.child]

theorem Node.child_eq_of_bare {n n' : Node} (h : n'.bare = n.bare) (β : Bool) : n'.child β = n.child β := by
  simp [Node.child, Node.left_eq_of_bare h, Node.right_eq_of_bare h]

theorem Node.child_of_isLeaf {n : Node} (h : n.isLeaf = true) (β : Bool) : n.child β = none := by
  obtain ⟨hl, hr⟩ : n.left = none ∧ n.right = none := by simpa [Node.isLeaf] using h
  cases β <;> simp [Node.child, hl, hr]

/-- Two nodes that differ in their codes at most. -/
theorem Node.eq_of_bare {n n' : Node} (h : n'.bare = n.bare) : n' = { n with code := n'.code, codeLength := n'.codeLength } := by
  cases n
  cases n'
  simpa [Node.bare] using h

/-- A well-formed slot that is no leaf has two different earlier children. -/
theorem Node.children_of_nodeWf {n : Node} {slot : Nat} (hn : NodeWf slot n) (hleaf : n.isLeaf = false) :
    ∃ l r, n.left = some l ∧ n.right = some r ∧ l.val < slot ∧ r.val < slot ∧ l ≠ r := by
  rcases hn with ⟨hl, hr⟩ | ⟨l, hl, r, hr, hls, hrs, hne⟩
  · simp [Node.isLeaf, hl, hr] at hleaf
  · exact ⟨l, r, hl, hr, hls, hrs, hne⟩

/-! ### Walks -/

section Walk

variable {st st' : Store} {i j : NodeId}

@[simp] theorem walk_nil : walk st i [] = some i := rfl

theorem walk_cons (β : Bool) (βs : List Bool) : walk st i (β :: βs) = ((st.nodeAt i).child β).bind fun c => walk st c βs := by
  rw [walk, Node.child]
  cases (if β then (st.nodeAt i).right else (st.nodeAt i).left) <;> rfl

theorem walk_append (p q : List Bool) : walk st i (p ++ q) = (walk st i p).bind fun u => walk st u q := by
  induction p generalizing i with
  | nil => rfl
  | cons β p ih =>
    rw [List.cons_append, walk_cons, walk_cons]
    cases (st.nodeAt i).child β with
    | none => rfl
    | some c => exact ih

theorem walk_concat_eq_some {p : List Bool} {β : Bool} :
    walk st i (p ++ [β]) = some j ↔ ∃ u, walk st i p = some u ∧ (st.nodeAt u).child β = some j := by
  simp [walk_append, walk_cons, Option.bind_eq_some_iff]

/-- A walk of at least one bit ends in a child of a node it has passed. -/
theorem walk_eq_some_of_ne_nil {p : List Bool} (hp : p ≠ []) (h : walk st i p = some j) :
    ∃ q u, walk st i q = some u ∧ j ∈ childIds (st.nodeAt u) := by
  obtain ⟨q, β, rfl⟩ := (List.eq_nil_or_concat' p).resolve_left hp
  obtain ⟨u, hu, hc⟩ := walk_concat_eq_some.mp h
  exact ⟨q, u, hu, Node.mem_childIds_iff_child.mpr ⟨β, hc⟩⟩

/-- From a leaf no walk goes further. -/
theorem walk_of_isLeaf (hleaf : (st.nodeAt i).isLeaf = true) {p : List Bool} (h : walk st i p = some j) : p = [] := by
  cases p with
  | nil => rfl
  | cons β p =>
    rw [walk_cons, Node.child_of_isLeaf hleaf] at h
    cases h

/-- Walks that stay among slots with the same children are the same. -/
theorem walk_congr_of_closed {P : NodeId → Prop} (hi : P i) (hclosed : ∀ k, P k → ∀ c ∈ childIds (st.nodeAt k), P c)
    (hbare : ∀ k, P k → (st'.nodeAt k).bare = (st.nodeAt k).bare) (p : List Bool) : walk st' i p = walk st i p := by
  induction p generalizing i with
  | nil => rfl
  | cons β p ih =>
    rw [walk_cons, walk_cons, Node.child_eq_of_bare (hbare i hi)]
    exact Option.bind_congr fun c hc => ih (hclosed i hi c (Node.mem_childIds_iff_child.mpr ⟨β, hc⟩))

theorem walk_congr (h : ∀ k, (st'.nodeAt k).bare = (st.nodeAt k).bare) (p : List Bool) : walk st' i p = walk st i p :=
  walk_congr_of_closed (P := fun _ => True) trivial (fun _ _ _ _ => trivial) (fun k _ => h k) p

theorem inSubtree_refl (st : Store) (i : NodeId) : InSubtree st i i := ⟨[], rfl⟩

theorem inSubtree_trans {k : NodeId} (h : InSubtree st i j) (h' : InSubtree st j k) : InSubtree st i k := by
  obtain ⟨p, hp⟩ := h
  obtain ⟨q, hq⟩ := h'
  exact ⟨p ++ q, by rw [walk_append, hp]; exact hq⟩

theorem inSubtree_child {c : NodeId} (h : c ∈ childIds (st.nodeAt i)) : InSubtree st i c := by
  obtain ⟨β, hβ⟩ := Node.mem_childIds_iff_child.mp h
  exact ⟨[β], by rw [walk_cons, hβ]; rfl⟩

theorem inSubtree_congr (h : ∀ k, (st'.nodeAt k).bare = (st.nodeAt k).bare) : InSubtree st' i j ↔ InSubtree st i j := by
  simp [InSubtree, walk_congr h]

theorem inSubtree_of_isLeaf (hleaf : (st.nodeAt i).isLeaf = true) : InSubtree st i j ↔ j = i := by
  refine ⟨fun ⟨p, hp⟩ => ?_, fun h => h ▸ inSubtree_refl st i⟩
  rw [walk_of_isLeaf hleaf hp] at hp
  exact (Option.some.inj hp).symm

/-- The subtree of a node with two children: the node, and the two subtrees. -/
theorem inSubtree_of_children {l r : NodeId} (hl : (st.nodeAt i).left = some l) (hr : (st.nodeAt i).right = some r) :
    InSubtree st i j ↔ j = i ∨ InSubtree st l j ∨ InSubtree st r j := by
  constructor
  · rintro ⟨p, hp⟩
    cases p with
    | nil => exact .inl (Option.some.inj hp).symm
    | cons β p =>
      rw [walk_cons] at hp
      cases β
      · exact .inr (.inl ⟨p, by simpa [Node.child, hl] using hp⟩)
      · exact .inr (.inr ⟨p, by simpa [Node.child, hr] using hp⟩)
  · rintro (rfl | h | h)
    · exact inSubtree_refl st _
    · exact inSubtree_trans (inSubtree_child (Node.mem_childIds.mpr (.inl hl))) h
    · exact inSubtree_trans (inSubtree_child (Node.mem_childIds.mpr (.inr hr))) h

end Walk

/-! ### Linked stores -/

/-- The slots of the store are leaves or internal nodes over two different earlier slots, and no node is a child twice. -/
structure Store.Linked (st : Store) : Prop where
  wf : ∀ i : NodeId, i.val < st.count.val → NodeWf i.val (st.nodeAt i)
  children_nodup : ((List.range st.count.val).flatMap st.childrenAt).Nodup

/-- No node of the store has this one as a child. -/
def Store.Top (st : Store) (x : NodeId) : Prop := ∀ i : NodeId, i.val < st.count.val → x ∉ childIds (st.nodeAt i)

theorem linked_of_storeWf {st : Store} (h : StoreWf st) : st.Linked := by
  obtain ⟨hnode, hpool, -, hwf, hnodup, -⟩ := h
  have heq := Store.Dense.node_eq (st := st) ⟨hnode, hpool⟩
  rw [heq] at hwf hnodup
  refine ⟨fun i hi => ?_, by rwa [List.flatMap_map] at hnodup⟩
  have hid : nodeId i.val = i := Fin.ext (nodeId_val i.isLt)
  have := hwf (i.val, st.nodeAt (nodeId i.val)) (List.mem_map.mpr ⟨i.val, List.mem_range.mpr hi, rfl⟩)
  rwa [hid] at this

theorem Store.Linked.of_pushed {st st' : Store} (h : st.Linked) (hp : st.Pushed st') : st'.Linked := by
  have hchild : st'.childrenAt = st.childrenAt := funext fun k => Node.childIds_eq_of_bare (hp.bare_eq _)
  refine ⟨fun i hi => ?_, by rw [hp.count_eq, hchild]; exact h.children_nodup⟩
  rw [hp.count_eq] at hi
  exact Node.nodeWf_of_bare (hp.bare_eq i) (h.wf i hi)

section Linked

variable {st : Store} (h : st.Linked)
include h

theorem Store.Linked.child_lt {i c : NodeId} (hi : i.val < st.count.val) (hc : c ∈ childIds (st.nodeAt i)) : c.val < i.val :=
  Node.child_lt_of_nodeWf (h.wf i hi) hc

/-- A node has one parent. -/
theorem Store.Linked.parent_unique {i j c : NodeId} (hi : i.val < st.count.val) (hj : j.val < st.count.val)
    (hci : c ∈ childIds (st.nodeAt i)) (hcj : c ∈ childIds (st.nodeAt j)) : i = j := by
  have hid : ∀ k : NodeId, nodeId k.val = k := fun k => Fin.ext (nodeId_val k.isLt)
  obtain ⟨-, hpair⟩ := List.nodup_flatMap.mp h.children_nodup
  by_contra hne
  have hsymm : Std.Symm (Function.onFun List.Disjoint st.childrenAt) := ⟨fun _ _ hd => hd.symm⟩
  have hdisj : List.Disjoint (st.childrenAt i.val) (st.childrenAt j.val) :=
    hpair.forall (List.mem_range.mpr hi) (List.mem_range.mpr hj) fun he => hne (Fin.ext he)
  rw [Store.childrenAt, Store.childrenAt, hid, hid] at hdisj
  exact hdisj hci hcj

/-- A node is the child of its parent on one side. -/
theorem Store.Linked.side_unique {i c : NodeId} {β γ : Bool} (hi : i.val < st.count.val) (hβ : (st.nodeAt i).child β = some c)
    (hγ : (st.nodeAt i).child γ = some c) : β = γ := by
  rcases h.wf i hi with ⟨hl, hr⟩ | ⟨l, hl, r, hr, -, -, hne⟩
  · rw [Node.child_of_isLeaf (by simp [Node.isLeaf, hl, hr])] at hβ
    cases hβ
  · have hl : (st.nodeAt i).left = some l := hl
    have hr : (st.nodeAt i).right = some r := hr
    cases β <;> cases γ <;> simp_all [Node.child]

/-- A walk goes down: it ends at its start or before it. -/
theorem Store.Linked.walk_le {i j : NodeId} (hi : i.val < st.count.val) {p : List Bool} (hw : walk st i p = some j) : j.val ≤ i.val := by
  induction p generalizing i with
  | nil => cases hw; exact le_rfl
  | cons β p ih =>
    rw [walk_cons] at hw
    obtain ⟨c, hc, hw⟩ := Option.bind_eq_some_iff.mp hw
    have hlt := h.child_lt hi (Node.mem_childIds_iff_child.mpr ⟨β, hc⟩)
    have := ih (by omega) hw
    omega

theorem Store.Linked.inSubtree_le {i j : NodeId} (hi : i.val < st.count.val) (hj : InSubtree st i j) : j.val ≤ i.val :=
  let ⟨_, hp⟩ := hj
  h.walk_le hi hp

/-- Two walks that meet: one start lies on the other's walk. -/
theorem Store.Linked.walk_meet {x y j : NodeId} (hx : x.val < st.count.val) (hy : y.val < st.count.val) {p q : List Bool}
    (hp : walk st x p = some j) (hq : walk st y q = some j) :
    (∃ p', p = p' ++ q ∧ walk st x p' = some y) ∨ ∃ q', q = q' ++ p ∧ walk st y q' = some x := by
  induction p using List.reverseRecOn generalizing j q with
  | nil =>
    cases hp
    exact .inr ⟨q, by simp, hq⟩
  | append_singleton p β ih =>
    rcases List.eq_nil_or_concat' q with rfl | ⟨q, γ, rfl⟩
    · cases hq
      exact .inl ⟨p ++ [β], by simp, hp⟩
    · obtain ⟨u, hu, hβ⟩ := walk_concat_eq_some.mp hp
      obtain ⟨v, hv, hγ⟩ := walk_concat_eq_some.mp hq
      have hul := h.walk_le hx hu
      have hvl := h.walk_le hy hv
      have huv : u = v := h.parent_unique (by omega) (by omega) (Node.mem_childIds_iff_child.mpr ⟨β, hβ⟩)
        (Node.mem_childIds_iff_child.mpr ⟨γ, hγ⟩)
      subst huv
      have hβγ := h.side_unique (by omega) hβ hγ
      subst hβγ
      rcases ih hu hv with ⟨p', rfl, hw⟩ | ⟨q', rfl, hw⟩
      · exact .inl ⟨p', by simp, hw⟩
      · exact .inr ⟨q', by simp, hw⟩

/-- A walk that ends at a top has not moved. -/
theorem Store.Linked.walk_to_top {x y : NodeId} (hx : x.val < st.count.val) (hy : st.Top y) {p : List Bool} (hp : walk st x p = some y) :
    p = [] := by
  by_contra hne
  obtain ⟨q, u, hu, hc⟩ := walk_eq_some_of_ne_nil hne hp
  have := h.walk_le hx hu
  exact hy u (by omega) hc

/-- From the tops, a node is reached by one path. -/
theorem Store.Linked.path_unique {x y j : NodeId} (hx : x.val < st.count.val) (hy : y.val < st.count.val) (hxt : st.Top x)
    (hyt : st.Top y) {p q : List Bool} (hp : walk st x p = some j) (hq : walk st y q = some j) : x = y ∧ p = q := by
  rcases h.walk_meet hx hy hp hq with ⟨p', rfl, hw⟩ | ⟨q', rfl, hw⟩
  · obtain rfl := h.walk_to_top hx hyt hw
    exact ⟨Option.some.inj hw, rfl⟩
  · obtain rfl := h.walk_to_top hy hxt hw
    exact ⟨(Option.some.inj hw).symm, rfl⟩

/-- A child that lies under another node has its parent under that node too. -/
theorem Store.Linked.parent_inSubtree {i x c : NodeId} (hi : i.val < st.count.val) (hx : x.val < st.count.val)
    (hc : c ∈ childIds (st.nodeAt i)) (hxc : x ≠ c) (hw : InSubtree st x c) : InSubtree st x i := by
  obtain ⟨p, hp⟩ := hw
  have hne : p ≠ [] := by
    rintro rfl
    exact hxc (Option.some.inj hp)
  obtain ⟨q, u, hu, hcu⟩ := walk_eq_some_of_ne_nil hne hp
  have := h.walk_le hx hu
  rw [h.parent_unique hi (by omega) hc hcu]
  exact ⟨q, hu⟩

/-- No node lies under both children of a node. -/
theorem Store.Linked.children_disjoint {i l r : NodeId} (hi : i.val < st.count.val) (hl : (st.nodeAt i).left = some l)
    (hr : (st.nodeAt i).right = some r) (hne : l ≠ r) {j : NodeId} (hj : InSubtree st l j) : ¬ InSubtree st r j := by
  have hlm : l ∈ childIds (st.nodeAt i) := Node.mem_childIds.mpr (.inl hl)
  have hrm : r ∈ childIds (st.nodeAt i) := Node.mem_childIds.mpr (.inr hr)
  have hll := h.child_lt hi hlm
  have hrl := h.child_lt hi hrm
  rintro ⟨q, hq⟩
  obtain ⟨p, hp⟩ := hj
  rcases h.walk_meet (by omega) (by omega) hp hq with ⟨p', -, hw⟩ | ⟨q', -, hw⟩
  · have := h.inSubtree_le (by omega) (h.parent_inSubtree hi (by omega) hrm hne ⟨p', hw⟩)
    omega
  · have := h.inSubtree_le (by omega) (h.parent_inSubtree hi (by omega) hlm hne.symm ⟨q', hw⟩)
    omega

end Linked

end Sys2Proof.Machine
end

section
/-! PROOFS. PushBit on a linked store: the bit goes to the whole subtree and to nothing else, or is refused for a node of 32 bits
(spec/41_tree_builder.md R137, R140). -/

namespace Sys2Proof.Machine

open Sys2Proof.Safety

/-! ### A node that acquires a bit -/

theorem getLsbD_bit32 (β : Bool) (k : Nat) : (bit32 β).getLsbD k = (decide (k = 0) && β) := by
  rw [bit32, BitVec.getLsbD_setWidth, BitVec.getLsbD_ofBool]
  cases k <;> simp

/-- The shifted-in code as the statements write it (R137). -/
theorem Node.withBit_eq_pushBit (β : Bool) (n : Node) : withBit β n = n.pushBit β := by
  have hdisj : n.code <<< 1 &&& bit32 β = 0 := by
    refine BitVec.eq_of_getLsbD_eq fun k hk => ?_
    cases k <;> simp [getLsbD_bit32]
  have hbit : (bit32 β).toNat = β.toNat := by cases β <;> rfl
  have hcode : BitVec.ofNat 32 (2 * n.code.toNat + β.toNat) = n.code <<< 1 ||| bit32 β := by
    rw [← BitVec.add_eq_or_of_and_eq_zero _ _ hdisj]
    refine BitVec.eq_of_toNat_eq ?_
    rw [BitVec.toNat_ofNat, BitVec.toNat_add, BitVec.toNat_shiftLeft, hbit, Nat.shiftLeft_eq]
    omega
  rw [withBit, hcode, Node.pushBit]

/-- The new bit comes before the bits the node had: it is the branch taken first (R142). -/
theorem Node.codeBits_pushBit {n : Node} (β : Bool) (h : n.codeLength.toNat < 32) : (n.pushBit β).codeBits = β :: n.codeBits := by
  have hcode : (n.pushBit β).code = n.code <<< 1 ||| bit32 β := rfl
  rw [Node.codeBits, Node.pushBit_length β h, List.range_succ_eq_map, List.map_cons, List.map_map, hcode]
  congr 1
  · rw [BitVec.getLsbD_or, BitVec.getLsbD_shiftLeft, getLsbD_bit32]
    simp
  · refine List.map_congr_left fun k hk => ?_
    have hk : k < n.codeLength.toNat := List.mem_range.mp hk
    have hk1 : k + 1 < 32 := by omega
    rw [Function.comp_apply, BitVec.getLsbD_or, BitVec.getLsbD_shiftLeft, getLsbD_bit32]
    simp [hk1]

/-- No bit of the node's code is set above its length (20_memory.md R77). -/
def Node.CodeFits (n : Node) : Prop := n.code.toNat < 2 ^ n.codeLength.toNat

theorem Node.CodeFits.pushBit {n : Node} (hn : n.CodeFits) (β : Bool) (h : n.codeLength.toNat < 32) : (n.pushBit β).CodeFits := by
  have hβ : β.toNat ≤ 1 := Bool.toNat_le β
  unfold Node.CodeFits at hn ⊢
  rw [Node.pushBit_length β h, ← Node.withBit_eq_pushBit, withBit, BitVec.toNat_ofNat, pow_succ]
  refine lt_of_le_of_lt (Nat.mod_le _ _) ?_
  omega

/-! ### The descent -/

/-- The store in which the slot `i` alone has acquired the bit `β`: what PushBit makes of it before it descends. -/
def Store.giveBit (β : Bool) (i : NodeId) (st : Store) : Store := st.setNode i ((st.nodeAt i).pushBit β)

theorem Store.nodeAt_giveBit (β : Bool) (i j : NodeId) (st : Store) :
    (st.giveBit β i).nodeAt j = if j = i then (st.nodeAt i).pushBit β else st.nodeAt j := Store.nodeAt_setNode _ _ _ _

theorem Store.pushed_giveBit {β : Bool} {i : NodeId} {st : Store} (hlen : (st.nodeAt i).codeLength.toNat ≠ 32) :
    st.Pushed (st.giveBit β i) := Store.pushed_setNode (Node.pushed_pushBit β hlen)

theorem pushBit_of_full {depth : Nat} {β : Bool} {i : NodeId} {st : Store} (hlen : (st.nodeAt i).codeLength.toNat = 32) :
    pushBit (depth + 1) β i st = none := by
  unfold pushBit
  exact if_pos hlen

theorem pushBit_of_children {depth : Nat} {β : Bool} {i l r : NodeId} {st : Store} (hl : (st.nodeAt i).left = some l)
    (hr : (st.nodeAt i).right = some r) (hlen : (st.nodeAt i).codeLength.toNat ≠ 32) :
    pushBit (depth + 1) β i st = (pushBit depth β l (st.giveBit β i)).bind (pushBit depth β r) := by
  rw [pushBit, Store.giveBit]
  dsimp only
  rw [if_neg hlen, hl, hr]
  dsimp only
  cases pushBit depth β l (st.setNode i ((st.nodeAt i).pushBit β)) <;> rfl

/-- The store in which node `i` and its descendants, and no other node, have acquired the bit `β`. -/
structure Store.BitPushed (β : Bool) (i : NodeId) (st st' : Store) : Prop where
  pushed : st.Pushed st'
  inside : ∀ j, InSubtree st i j → st'.nodeAt j = (st.nodeAt j).pushBit β
  outside : ∀ j, ¬ InSubtree st i j → st'.nodeAt j = st.nodeAt j

theorem Store.bitPushed_of_isLeaf {β : Bool} {i : NodeId} {st : Store} (hleaf : (st.nodeAt i).isLeaf = true)
    (hlen : (st.nodeAt i).codeLength.toNat ≠ 32) : st.BitPushed β i (st.giveBit β i) := by
  refine ⟨Store.pushed_giveBit hlen, fun j hj => ?_, fun j hj => ?_⟩
  · rw [inSubtree_of_isLeaf hleaf] at hj
    rw [hj, Store.nodeAt_giveBit, if_pos rfl]
  · rw [inSubtree_of_isLeaf hleaf] at hj
    rw [Store.nodeAt_giveBit, if_neg hj]

section Children

variable {β : Bool} {i l r : NodeId} {st st₁ st₂ : Store}

/-- The bit given to a node is not seen below its children. -/
theorem Store.Linked.nodeAt_giveBit_of_child (h : st.Linked) (hi : i.val < st.count.val) {c j : NodeId}
    (hc : c ∈ childIds (st.nodeAt i)) (hj : InSubtree st c j) : j ≠ i ∧ (st.giveBit β i).nodeAt j = st.nodeAt j := by
  have hci := h.child_lt hi hc
  have hjc := h.inSubtree_le (by omega) hj
  have hji : j ≠ i := fun e => by rw [e] at hjc; omega
  exact ⟨hji, by rw [Store.nodeAt_giveBit, if_neg hji]⟩

/-- After the push down the left child the right child's subtree reads as before. -/
theorem Store.Linked.nodeAt_right_of_bitPushed (h : st.Linked) (hi : i.val < st.count.val) (hl : (st.nodeAt i).left = some l)
    (hr : (st.nodeAt i).right = some r) (hne : l ≠ r) (hlen : (st.nodeAt i).codeLength.toNat ≠ 32)
    (h₁ : (st.giveBit β i).BitPushed β l st₁) {j : NodeId} (hj : InSubtree st r j) : st₁.nodeAt j = st.nodeAt j := by
  have hjl : ¬ InSubtree (st.giveBit β i) l j := by
    rw [inSubtree_congr (Store.pushed_giveBit hlen).bare_eq]
    exact fun hj' => h.children_disjoint hi hl hr hne hj' hj
  rw [h₁.outside j hjl, (h.nodeAt_giveBit_of_child hi (Node.mem_childIds.mpr (.inr hr)) hj).2]

/-- The bit given to a node, then to the subtree of its left child, then to that of its right child: each node of the subtree gets it
once. -/
theorem Store.bitPushed_of_children (h : st.Linked) (hi : i.val < st.count.val) (hl : (st.nodeAt i).left = some l)
    (hr : (st.nodeAt i).right = some r) (hne : l ≠ r) (hlen : (st.nodeAt i).codeLength.toNat ≠ 32)
    (h₁ : (st.giveBit β i).BitPushed β l st₁) (h₂ : st₁.BitPushed β r st₂) : st.BitPushed β i st₂ := by
  have hgive := Store.pushed_giveBit (β := β) hlen
  have hleft : ∀ {j}, InSubtree (st.giveBit β i) l j ↔ InSubtree st l j := inSubtree_congr hgive.bare_eq
  have hright : ∀ {j}, InSubtree st₁ r j ↔ InSubtree st r j := inSubtree_congr (hgive.trans h₁.pushed).bare_eq
  have hli : ∀ {j}, InSubtree st l j → j ≠ i ∧ (st.giveBit β i).nodeAt j = st.nodeAt j :=
    h.nodeAt_giveBit_of_child hi (Node.mem_childIds.mpr (.inl hl))
  have hri : ∀ {j}, InSubtree st r j → j ≠ i ∧ (st.giveBit β i).nodeAt j = st.nodeAt j :=
    h.nodeAt_giveBit_of_child hi (Node.mem_childIds.mpr (.inr hr))
  refine ⟨hgive.trans (h₁.pushed.trans h₂.pushed), fun j hj => ?_, fun j hj => ?_⟩
  · rcases (inSubtree_of_children hl hr).mp hj with rfl | hj | hj
    · rw [h₂.outside _ fun hj => (hri (hright.mp hj)).1 rfl, h₁.outside _ fun hj => (hli (hleft.mp hj)).1 rfl,
        Store.nodeAt_giveBit, if_pos rfl]
    · rw [h₂.outside _ (mt hright.mp (h.children_disjoint hi hl hr hne hj)), h₁.inside _ (hleft.mpr hj), (hli hj).2]
    · rw [h₂.inside _ (hright.mpr hj), h.nodeAt_right_of_bitPushed hi hl hr hne hlen h₁ hj]
  · rw [inSubtree_of_children hl hr, not_or, not_or] at hj
    obtain ⟨hji, hjl, hjr⟩ := hj
    rw [h₂.outside _ (mt hright.mp hjr), h₁.outside _ (mt hleft.mp hjl), Store.nodeAt_giveBit, if_neg hji]

end Children

/-- PushBit on a node of a linked store: refused for a node of the subtree that has 32 bits, or the bit given to the whole subtree. -/
theorem pushBit_cases {depth : Nat} {β : Bool} {i : NodeId} {st : Store} (h : st.Linked) (hi : i.val < st.count.val)
    (hdepth : i.val < depth) :
    (pushBit depth β i st = none ∧ ∃ j, InSubtree st i j ∧ (st.nodeAt j).codeLength.toNat = 32)
      ∨ ∃ st', pushBit depth β i st = some st' ∧ (∀ j, InSubtree st i j → (st.nodeAt j).codeLength.toNat ≠ 32)
        ∧ st.BitPushed β i st' := by
  induction depth generalizing i st with
  | zero => omega
  | succ depth ih =>
    by_cases hlen : (st.nodeAt i).codeLength.toNat = 32
    · exact .inl ⟨pushBit_of_full hlen, i, inSubtree_refl st i, hlen⟩
    cases hleaf : (st.nodeAt i).isLeaf with
    | true =>
      refine .inr ⟨_, pushBit_of_isLeaf hleaf hlen, fun j hj => ?_, Store.bitPushed_of_isLeaf hleaf hlen⟩
      rwa [(inSubtree_of_isLeaf hleaf).mp hj]
    | false =>
      obtain ⟨l, r, hl, hr, hll, hrl, hne⟩ := Node.children_of_nodeWf (h.wf i hi) hleaf
      have hgive := Store.pushed_giveBit (β := β) hlen
      have hunder : ∀ {j}, InSubtree st i j ↔ j = i ∨ InSubtree st l j ∨ InSubtree st r j := inSubtree_of_children hl hr
      have hleft : ∀ {j}, InSubtree st l j → j ≠ i ∧ (st.giveBit β i).nodeAt j = st.nodeAt j :=
        h.nodeAt_giveBit_of_child hi (Node.mem_childIds.mpr (.inl hl))
      rw [pushBit_of_children hl hr hlen]
      rcases ih (i := l) (h.of_pushed hgive) (by rw [hgive.count_eq]; omega) (by omega) with
        ⟨hnone, j, hj, hjlen⟩ | ⟨st₁, hsome₁, hshort₁, h₁⟩
      · rw [inSubtree_congr hgive.bare_eq] at hj
        rw [(hleft hj).2] at hjlen
        exact .inl ⟨by rw [hnone]; rfl, j, hunder.mpr (.inr (.inl hj)), hjlen⟩
      have hgive₁ := hgive.trans h₁.pushed
      have hright : ∀ {j}, InSubtree st r j → st₁.nodeAt j = st.nodeAt j := h.nodeAt_right_of_bitPushed hi hl hr hne hlen h₁
      rw [hsome₁, Option.bind_some]
      rcases ih (i := r) (h.of_pushed hgive₁) (by rw [hgive₁.count_eq]; omega) (by omega) with
        ⟨hnone, j, hj, hjlen⟩ | ⟨st₂, hsome₂, hshort₂, h₂⟩
      · rw [inSubtree_congr hgive₁.bare_eq] at hj
        rw [hright hj] at hjlen
        exact .inl ⟨hnone, j, hunder.mpr (.inr (.inr hj)), hjlen⟩
      · refine .inr ⟨st₂, hsome₂, fun j hj => ?_, Store.bitPushed_of_children h hi hl hr hne hlen h₁ h₂⟩
        rcases hunder.mp hj with rfl | hj | hj
        · exact hlen
        · rw [← (hleft hj).2]
          exact hshort₁ j ((inSubtree_congr hgive.bare_eq).mpr hj)
        · rw [← hright hj]
          exact hshort₂ j ((inSubtree_congr hgive₁.bare_eq).mpr hj)

/-! ### Two disjoint subtrees -/

/-- The store in which the subtree of `a` has acquired a 0, the subtree of `b` a 1, and no other node a bit (R135, R137). -/
structure Store.PairCoded (a b : NodeId) (st st' : Store) : Prop where
  pushed : st.Pushed st'
  short : ∀ j, InSubtree st a j ∨ InSubtree st b j → (st.nodeAt j).codeLength.toNat ≠ 32
  left : ∀ j, InSubtree st a j → st'.nodeAt j = (st.nodeAt j).pushBit false
  right : ∀ j, InSubtree st b j → st'.nodeAt j = (st.nodeAt j).pushBit true
  other : ∀ j, ¬ InSubtree st a j → ¬ InSubtree st b j → st'.nodeAt j = st.nodeAt j

/-- The two pushes of a pass: refused for a node of 32 bits under one of the two nodes, or both bits given. -/
theorem pushPair_cases {a b : NodeId} {st : Store} (h : st.Linked) (ha : a.val < st.count.val) (hb : b.val < st.count.val)
    (hdisj : ∀ j, InSubtree st a j → ¬ InSubtree st b j) :
    ((pushBit Config.nodeCap false a st).bind (pushBit Config.nodeCap true b) = none
        ∧ ∃ j, (InSubtree st a j ∨ InSubtree st b j) ∧ (st.nodeAt j).codeLength.toNat = 32)
      ∨ ∃ st', (pushBit Config.nodeCap false a st).bind (pushBit Config.nodeCap true b) = some st' ∧ st.PairCoded a b st' := by
  rcases pushBit_cases (β := false) h ha a.isLt with ⟨hnone, j, hj, hlen⟩ | ⟨st₁, hsome₁, hshort₁, h₁⟩
  · exact .inl ⟨by rw [hnone]; rfl, j, .inl hj, hlen⟩
  have hunder : ∀ {j}, InSubtree st₁ b j ↔ InSubtree st b j := inSubtree_congr h₁.pushed.bare_eq
  have hsame : ∀ j, InSubtree st b j → st₁.nodeAt j = st.nodeAt j := fun j hj => h₁.outside j fun hj' => hdisj j hj' hj
  rw [hsome₁, Option.bind_some]
  rcases pushBit_cases (β := true) (h.of_pushed h₁.pushed) (by rwa [h₁.pushed.count_eq]) b.isLt with
    ⟨hnone, j, hj, hlen⟩ | ⟨st₂, hsome₂, hshort₂, h₂⟩
  · rw [hunder] at hj
    exact .inl ⟨hnone, j, .inr hj, by rwa [← hsame j hj]⟩
  refine .inr ⟨st₂, hsome₂, h₁.pushed.trans h₂.pushed, fun j hj => ?_, fun j hj => ?_, fun j hj => ?_, fun j hja hjb => ?_⟩
  · rcases hj with hj | hj
    · exact hshort₁ j hj
    · rw [← hsame j hj]
      exact hshort₂ j (hunder.mpr hj)
  · rw [h₂.outside j (mt hunder.mp (hdisj j hj)), h₁.inside j hj]
  · rw [h₂.inside j (hunder.mpr hj), hsame j hj]
  · rw [h₂.outside j (mt hunder.mp hjb), h₁.outside j hja]

end Sys2Proof.Machine
end

section
/-! PROOFS. The stable sort of the pool (spec/41_tree_builder.md R133, R136). -/

namespace Sys2Proof.Machine

/-- The sort's order on ids: by frequency alone (R133). -/
abbrev Store.NotAbove (st : Store) (a b : NodeId) : Prop := (st.nodeAt a).frequency ≤ (st.nodeAt b).frequency

section StableSort

variable (st : Store)

theorem Store.stableSort_eq (ids : List NodeId) : st.stableSort ids = ids.insertionSort st.NotAbove := rfl

theorem Store.pairwise_stableSort (ids : List NodeId) : (st.stableSort ids).Pairwise st.NotAbove := by
  have htotal : Std.Total st.NotAbove := ⟨fun _ _ => BitVec.le_total _ _⟩
  have htrans : IsTrans NodeId st.NotAbove := ⟨fun _ _ _ => BitVec.le_trans⟩
  exact List.pairwise_insertionSort _ ids

/-- An id is inserted before the first one that is not below it: among those of its own frequency it comes first. -/
theorem Store.filter_orderedInsert (f : Word) (a : NodeId) (ids : List NodeId) :
    (ids.orderedInsert st.NotAbove a).filter (fun x => (st.nodeAt x).frequency == f)
      = (a :: ids).filter fun x => (st.nodeAt x).frequency == f := by
  induction ids with
  | nil => rfl
  | cons b ids ih =>
    by_cases hle : st.NotAbove a b
    · rw [List.orderedInsert_cons_of_le st.NotAbove _ hle]
    · rw [List.orderedInsert_of_not_le st.NotAbove _ hle, List.filter_cons, ih]
      by_cases ha : (st.nodeAt a).frequency = f
      · have hb : (st.nodeAt b).frequency ≠ f := fun hb => hle (by rw [Store.NotAbove, ha, hb]; exact BitVec.le_refl f)
        simp [ha, hb]
      · simp [List.filter_cons, ha]

/-- Ids of equal frequency keep their order (R133). -/
theorem Store.filter_stableSort (f : Word) (ids : List NodeId) :
    (st.stableSort ids).filter (fun a => (st.nodeAt a).frequency == f) = ids.filter fun a => (st.nodeAt a).frequency == f := by
  induction ids with
  | nil => rfl
  | cons a ids ih =>
    rw [Store.stableSort_eq, List.insertionSort_cons, Store.filter_orderedInsert, ← Store.stableSort_eq, List.filter_cons,
      List.filter_cons, ih]

/-- The sort of a sorted list with an id at the end inserts the id after every one of at most its frequency (R136). -/
theorem Store.stableSort_append_singleton {ids : List NodeId} (n : NodeId) (h : ids.Pairwise st.NotAbove) :
    st.stableSort (ids ++ [n])
      = ids.takeWhile (fun a => decide (st.NotAbove a n)) ++ n :: ids.dropWhile fun a => decide (st.NotAbove a n) := by
  induction ids with
  | nil => rfl
  | cons x ids ih =>
    obtain ⟨hx, hids⟩ := List.pairwise_cons.mp h
    have ih := ih hids
    rw [Store.stableSort_eq] at ih
    rw [Store.stableSort_eq, List.cons_append]
    by_cases hxn : st.NotAbove x n
    · have hfirst : ∀ y ∈ ids ++ [n], st.NotAbove x y := by
        simpa [or_imp, forall_and] using ⟨hx, hxn⟩
      rw [List.insertionSort_cons_of_forall_rel st.NotAbove hfirst, ih, List.takeWhile_cons_of_pos (by simpa using hxn),
        List.dropWhile_cons_of_pos (by simpa using hxn), List.cons_append]
    · have hnone : ∀ y ∈ ids, ¬ st.NotAbove y n := fun y hy hyn => hxn (BitVec.le_trans (hx y hy) hyn)
      have htake : ids.takeWhile (fun a => decide (st.NotAbove a n)) = [] :=
        List.takeWhile_eq_nil_iff.mpr fun hpos => by simpa using hnone _ (List.getElem_mem hpos)
      have hdrop : ids.dropWhile (fun a => decide (st.NotAbove a n)) = ids :=
        List.dropWhile_eq_self_iff.mpr fun hpos => by simpa using hnone _ (List.getElem_mem hpos)
      have hfirst : ids.orderedInsert st.NotAbove x = x :: ids := by
        have hsorted := h.insertionSort_eq
        rwa [List.insertionSort_cons, hids.insertionSort_eq] at hsorted
      rw [List.insertionSort_cons, ih, htake, hdrop, List.takeWhile_cons_of_neg (by simpa using hxn),
        List.dropWhile_cons_of_neg (by simpa using hxn), List.nil_append, List.nil_append,
        List.orderedInsert_of_not_le st.NotAbove _ hxn, hfirst]

end StableSort

end Sys2Proof.Machine
end

section
/-! PROOFS. One pass of the merge loop, node by node: the subtrees of the two merged nodes get a bit each and no other code changes, and the
new node takes its place in the sorted suffix (spec/41_tree_builder.md R135 to R140). -/

namespace Sys2Proof.Machine

open Sys2Proof.Safety

/-! ### The unmerged suffix -/

theorem Store.mem_scanFrom {st : Store} {m : Nat} {x : NodeId} :
    x ∈ st.scanFrom m ↔ ∃ p, m ≤ p ∧ p < st.count.val ∧ st.poolAt p = x := by
  simp only [Store.scanFrom, List.mem_map, List.mem_range'_1]
  refine exists_congr fun p => ?_
  rw [← and_assoc]
  exact and_congr_left fun _ => by omega

theorem Store.scanFrom_eq_cons (st : Store) {m : Nat} (h : m < st.count.val) :
    st.scanFrom m = st.poolAt m :: st.scanFrom (m + 1) := by
  obtain ⟨k, hk⟩ : ∃ k, st.count.val - m = k + 1 := ⟨st.count.val - m - 1, by omega⟩
  have hk' : st.count.val - (m + 1) = k := by omega
  rw [Store.scanFrom, Store.scanFrom, hk, hk', List.range'_succ, List.map_cons]

/-- The suffix before a pass: the two nodes it merges, then the others. -/
theorem Store.scanFrom_eq_pair (st : Store) {m : Nat} (h : m + 1 < st.count.val) :
    st.scanFrom m = st.poolAt m :: st.poolAt (m + 1) :: st.scanFrom (m + 2) := by
  rw [st.scanFrom_eq_cons (by omega), st.scanFrom_eq_cons h]

theorem Store.scanFrom_addNode {st : Store} (hc : st.count.val < 511) {lo : Nat} (hlo : lo ≤ st.count.val) (n : Node) :
    (st.addNode n).scanFrom lo = st.scanFrom lo ++ [nodeId st.count.val] := by
  have hlen : st.count.val + 1 - lo = st.count.val - lo + 1 := by omega
  have hlast : lo + 1 * (st.count.val - lo) = st.count.val := by omega
  rw [Store.scanFrom, Store.count_addNode hc, hlen, List.range'_concat, hlast, List.map_append, List.map_singleton,
    Store.poolAt_addNode, if_pos rfl, Store.scanFrom]
  congr 1
  refine List.map_congr_left fun p hp => ?_
  rw [List.mem_range'_1] at hp
  rw [Store.poolAt_addNode, if_neg (by omega)]

theorem Store.scanFrom_of_pushed {st st' : Store} (h : st.Pushed st') (m : Nat) : st'.scanFrom m = st.scanFrom m := by
  rw [Store.scanFrom, Store.scanFrom, h.count_eq]
  exact List.map_congr_left fun p _ => h.poolAt_eq p

section Forest

variable {ls : List (Byte × Word)} {m : Nat} {st st' : Store}

theorem Forest.linked (h : Forest ls m st) : st.Linked := by
  refine ⟨h.wf, ?_⟩
  have hlt := h.lt_count
  rw [h.children]
  refine List.Nodup.sublist ?_ h.perm.scan_nodup
  rw [Store.scan_eq]
  exact (List.range_sublist.mpr (by omega)).map _

theorem Forest.lt_of_mem_scanFrom (h : Forest ls m st) {x : NodeId} (hx : x ∈ st.scanFrom m) : x.val < st.count.val := by
  obtain ⟨p, -, hp, rfl⟩ := Store.mem_scanFrom.mp hx
  exact h.perm.poolAt_lt hp

/-- An unmerged node is no child. -/
theorem Forest.top (h : Forest ls m st) {x : NodeId} (hx : x ∈ st.scanFrom m) : st.Top x := by
  obtain ⟨p, hmp, hp, rfl⟩ := Store.mem_scanFrom.mp hx
  have hlt := h.lt_count
  intro i hi hc
  have hid : nodeId i.val = i := Fin.ext (nodeId_val i.isLt)
  have hmem : st.poolAt p ∈ (List.range st.count.val).flatMap st.childrenAt :=
    List.mem_flatMap.mpr ⟨i.val, List.mem_range.mpr hi, by rwa [Store.childrenAt, hid]⟩
  rw [h.children] at hmem
  obtain ⟨q, hq, he⟩ := List.mem_map.mp hmem
  have hq := List.mem_range.mp hq
  have := h.perm.poolAt_inj (by omega) hp he
  omega

theorem Forest.scanFrom_nodup (h : Forest ls m st) : (st.scanFrom m).Nodup := by
  have hn := h.perm.scan_nodup
  rw [Store.scan_split st h.lt_count.le] at hn
  exact (List.nodup_append.mp hn).2.1

/-- The subtrees of two unmerged nodes are disjoint. -/
theorem Forest.tops_disjoint (h : Forest ls m st) {x y j : NodeId} (hx : x ∈ st.scanFrom m) (hy : y ∈ st.scanFrom m) (hne : x ≠ y)
    (hj : InSubtree st x j) : ¬ InSubtree st y j := by
  rintro ⟨q, hq⟩
  obtain ⟨p, hp⟩ := hj
  exact hne (h.linked.path_unique (h.lt_of_mem_scanFrom hx) (h.lt_of_mem_scanFrom hy) (h.top hx) (h.top hy) hp hq).1

/-! ### The codes after a pass -/

theorem mergeOnce_eq (m : Nat) (st : Store) :
    st.mergeOnce m
      = ((pushBit Config.nodeCap false (st.poolAt m) st).bind (pushBit Config.nodeCap true (st.poolAt (m + 1)))).map fun st₂ =>
          (st₂.addNode (st₂.mergedNode (st.poolAt m) (st.poolAt (m + 1)))).sortFrom (m + 2) := by
  unfold Store.mergeOnce
  dsimp only
  cases pushBit Config.nodeCap false (st.poolAt m) st with
  | none => rfl
  | some st₁ =>
    dsimp only [Option.bind_some]
    cases pushBit Config.nodeCap true (st.poolAt (m + 1)) st₁ <;> rfl

/-- What one pass of the merge loop makes of the codes and of the suffix. -/
structure Store.Merged (m : Nat) (st st' : Store) : Prop where
  step : st.MergeStep m st'
  suffix : st'.scanFrom (m + 2) = st'.stableSort (st.scanFrom (m + 2) ++ [nodeId st.count.val])
  short : ∀ j, InSubtree st (st.poolAt m) j ∨ InSubtree st (st.poolAt (m + 1)) j → (st.nodeAt j).codeLength.toNat ≠ 32
  left : ∀ j, InSubtree st (st.poolAt m) j → st'.nodeAt j = (st.nodeAt j).pushBit false
  right : ∀ j, InSubtree st (st.poolAt (m + 1)) j → st'.nodeAt j = (st.nodeAt j).pushBit true
  other : ∀ j : NodeId, j.val < st.count.val → ¬ InSubtree st (st.poolAt m) j → ¬ InSubtree st (st.poolAt (m + 1)) j →
    st'.nodeAt j = st.nodeAt j

theorem Forest.mem_pair (hm : m + 1 < st.count.val) : st.poolAt m ∈ st.scanFrom m ∧ st.poolAt (m + 1) ∈ st.scanFrom m := by
  rw [st.scanFrom_eq_pair hm]
  simp

/-- A pass is refused for a node of 32 bits under one of the two merged nodes, or merges them. -/
theorem mergeOnce_cases (hL : ls.length ≤ 256) (h : Forest ls m st) (hm : m + 1 < st.count.val) :
    (st.mergeOnce m = none ∧ ∃ j, (InSubtree st (st.poolAt m) j ∨ InSubtree st (st.poolAt (m + 1)) j)
        ∧ (st.nodeAt j).codeLength.toNat = 32)
      ∨ ∃ st', st.mergeOnce m = some st' ∧ st.Merged m st' := by
  have hcount := h.count_eq
  have hc : st.count.val < 511 := by omega
  obtain ⟨ha, hb⟩ := Forest.mem_pair hm
  have hat := h.lt_of_mem_scanFrom ha
  have hbt := h.lt_of_mem_scanFrom hb
  have hne : st.poolAt m ≠ st.poolAt (m + 1) := fun he => by
    have := h.perm.poolAt_inj (by omega) hm he
    omega
  have hmerge := mergeOnce_eq m st
  rcases pushPair_cases h.linked hat hbt fun j hj => h.tops_disjoint ha hb hne hj with ⟨hnone, hlong⟩ | ⟨st₂, hsome, hpair⟩
  · exact .inl ⟨by rw [hmerge, hnone]; rfl, hlong⟩
  rw [hsome, Option.map_some] at hmerge
  have hcv : st₂.count.val = st.count.val := by rw [hpair.pushed.count_eq]
  have hold : ∀ j : NodeId, j.val < st.count.val →
      ((st₂.addNode (st₂.mergedNode (st.poolAt m) (st.poolAt (m + 1)))).sortFrom (m + 2)).nodeAt j = st₂.nodeAt j := fun j hj => by
    rw [Store.nodeAt_sortFrom, Store.nodeAt_addNode, if_neg (by omega)]
  refine .inr ⟨_, hmerge, ?_⟩
  constructor
  case step => exact mergeOnce_step h.dense h.closed h.perm hm hc hmerge
  case suffix =>
    rw [Store.scanFrom_sortFrom, Store.scanFrom_addNode (by omega) (by omega), Store.scanFrom_of_pushed hpair.pushed, hcv]
    rfl
  case short => exact hpair.short
  case left =>
    intro j hj
    rw [hold j (lt_of_le_of_lt (h.linked.inSubtree_le hat hj) hat), hpair.left j hj]
  case right =>
    intro j hj
    rw [hold j (lt_of_le_of_lt (h.linked.inSubtree_le hbt hj) hbt), hpair.right j hj]
  case other =>
    intro j hj hja hjb
    rw [hold j hj, hpair.other j hja hjb]

end Forest

end Sys2Proof.Machine
end

section
/-! PROOFS. Weights and heights of the unmerged trees: a pass of the merge loop is a merge of `mergedHeight` (spec/41_tree_builder.md R134
to R138), and codes are paths from the tops (R142). -/

namespace Sys2Proof.Machine

open Sys2Proof.Safety

/-! ### Merging by weight and height -/

/-- The place of a merged tree among the waiting ones: behind every one of at most its weight (R136). -/
def placeTree (t : Nat × Nat) (rest : List (Nat × Nat)) : List (Nat × Nat) :=
  rest.takeWhile (fun c => decide (c.1 ≤ t.1)) ++ t :: rest.dropWhile fun c => decide (c.1 ≤ t.1)

theorem mergedHeight_succ (k : Nat) (a b : Nat × Nat) (rest : List (Nat × Nat)) :
    mergedHeight (k + 1) (a :: b :: rest) = mergedHeight k (placeTree (a.1 + b.1, max a.2 b.2 + 1) rest) := rfl

theorem mergedHeight_singleton (k : Nat) (a : Nat × Nat) : mergedHeight k [a] = a.2 := by cases k <;> rfl

theorem placeTree_perm (t : Nat × Nat) (rest : List (Nat × Nat)) : (placeTree t rest).Perm (t :: rest) := by
  have h := List.perm_middle (a := t) (l₁ := rest.takeWhile fun c => decide (c.1 ≤ t.1))
    (l₂ := rest.dropWhile fun c => decide (c.1 ≤ t.1))
  rwa [List.takeWhile_append_dropWhile] at h

theorem length_placeTree (t : Nat × Nat) (rest : List (Nat × Nat)) : (placeTree t rest).length = rest.length + 1 :=
  (placeTree_perm t rest).length_eq

theorem mem_placeTree {t c : Nat × Nat} {rest : List (Nat × Nat)} : c ∈ placeTree t rest ↔ c = t ∨ c ∈ rest := by
  rw [(placeTree_perm t rest).mem_iff, List.mem_cons]

/-- Each tree lies within the one that merging ends with. -/
theorem le_mergedHeight {k : Nat} {trees : List (Nat × Nat)} (hk : trees.length ≤ k + 1) {c : Nat × Nat} (hc : c ∈ trees) :
    c.2 ≤ mergedHeight k trees := by
  induction k generalizing trees c with
  | zero =>
    obtain ⟨a, rfl⟩ := List.length_eq_one_iff.mp (show trees.length = 1 by have := List.length_pos_of_mem hc; omega)
    obtain rfl := List.mem_singleton.mp hc
    exact le_rfl
  | succ k ih =>
    match trees, hk, hc with
    | [a], _, hc =>
      obtain rfl := List.mem_singleton.mp hc
      exact le_rfl
    | a :: b :: rest, hk, hc =>
      rw [mergedHeight_succ]
      have hk' : (placeTree (a.1 + b.1, max a.2 b.2 + 1) rest).length ≤ k + 1 := by
        rw [length_placeTree]
        simpa using hk
      have hnew : max a.2 b.2 + 1 ≤ mergedHeight k (placeTree (a.1 + b.1, max a.2 b.2 + 1) rest) :=
        ih hk' (mem_placeTree.mpr (.inl rfl))
      simp only [List.mem_cons] at hc
      rcases hc with rfl | rfl | hc
      · omega
      · omega
      · exact ih hk' (mem_placeTree.mpr (.inr hc))

/-- Each merge adds one to the height at most. -/
theorem mergedHeight_le {k H : Nat} {trees : List (Nat × Nat)} (h : ∀ c ∈ trees, c.2 ≤ H) :
    mergedHeight k trees ≤ H + (trees.length - 1) := by
  induction k generalizing trees H with
  | zero =>
    cases trees with
    | nil => exact Nat.zero_le _
    | cons a rest => exact (h a List.mem_cons_self).trans (Nat.le_add_right _ _)
  | succ k ih =>
    match trees, h with
    | [], _ => exact Nat.zero_le _
    | [a], h => exact h a List.mem_cons_self
    | a :: b :: rest, h =>
      rw [mergedHeight_succ]
      have ha := h a (by simp)
      have hb := h b (by simp)
      have hplaced : ∀ c ∈ placeTree (a.1 + b.1, max a.2 b.2 + 1) rest, c.2 ≤ H + 1 := by
        intro c hc
        rcases mem_placeTree.mp hc with rfl | hc
        · dsimp only
          omega
        · have := h c (by simp [hc])
          omega
      have := ih hplaced
      rw [length_placeTree] at this
      simp only [List.length_cons]
      omega

/-! ### The weight and the height of a node's tree -/

open Classical in
/-- The longest code in the subtree of a node. -/
noncomputable def Store.height (st : Store) (x : NodeId) : Nat :=
  (Finset.univ.filter fun j => InSubtree st x j).sup fun j => (st.nodeAt j).codeLength.toNat

/-- A node's tree as `mergedHeight` knows it. -/
noncomputable def Store.treeAt (st : Store) (x : NodeId) : Nat × Nat := ((st.nodeAt x).frequency.toNat, st.height x)

@[simp] theorem Store.treeAt_snd (st : Store) (x : NodeId) : (st.treeAt x).2 = st.height x := by rw [Store.treeAt]

theorem Store.height_le_iff {st : Store} {x : NodeId} {c : Nat} :
    st.height x ≤ c ↔ ∀ j, InSubtree st x j → (st.nodeAt j).codeLength.toNat ≤ c := by
  simp [Store.height, Finset.sup_le_iff]

theorem Store.le_height {st : Store} {x j : NodeId} (hj : InSubtree st x j) : (st.nodeAt j).codeLength.toNat ≤ st.height x :=
  Store.height_le_iff.mp le_rfl j hj

theorem Store.exists_length_eq_height (st : Store) (x : NodeId) :
    ∃ j, InSubtree st x j ∧ (st.nodeAt j).codeLength.toNat = st.height x := by
  classical
  obtain ⟨j, hj, he⟩ := Finset.exists_mem_eq_sup (Finset.univ.filter fun j => InSubtree st x j)
    ⟨x, by simp [inSubtree_refl]⟩ fun j => (st.nodeAt j).codeLength.toNat
  exact ⟨j, by simpa using hj, by rw [Store.height]; convert he.symm⟩

section Pass

variable {ls : List (Byte × Word)} {m : Nat} {st st' : Store}

/-! ### The subtrees after a pass -/

theorem Store.Merged.walk_old (hs : st.Merged m st') (h : Forest ls m st) {x : NodeId} (hx : x.val < st.count.val) (p : List Bool) :
    walk st' x p = walk st x p :=
  walk_congr_of_closed (P := fun k => k.val < st.count.val) hx (fun k hk => h.closed k hk)
    (fun k hk => (hs.step.old_node k hk.ne).1) p

theorem Store.Merged.inSubtree_old (hs : st.Merged m st') (h : Forest ls m st) {x j : NodeId} (hx : x.val < st.count.val) :
    InSubtree st' x j ↔ InSubtree st x j := by
  simp [InSubtree, hs.walk_old h hx]

/-- The subtree of the new node: the node, and the subtrees of the two merged ones. -/
theorem Store.Merged.inSubtree_new (hs : st.Merged m st') (h : Forest ls m st) (hm : m + 1 < st.count.val) {j : NodeId} :
    InSubtree st' (nodeId st.count.val) j
      ↔ j = nodeId st.count.val ∨ InSubtree st (st.poolAt m) j ∨ InSubtree st (st.poolAt (m + 1)) j := by
  rw [inSubtree_of_children (l := st.poolAt m) (r := st.poolAt (m + 1)) (by rw [hs.step.new_node]; rfl) (by rw [hs.step.new_node]; rfl),
    hs.inSubtree_old h (h.perm.poolAt_lt (by omega)), hs.inSubtree_old h (h.perm.poolAt_lt hm)]

/-- A node that is still waiting has kept its subtree, codes and all. -/
theorem Store.Merged.nodeAt_waiting (hs : st.Merged m st') (h : Forest ls m st) (hm : m + 1 < st.count.val) {x j : NodeId}
    (hx : x ∈ st.scanFrom (m + 2)) (hj : InSubtree st x j) : st'.nodeAt j = st.nodeAt j := by
  obtain ⟨ha, hb⟩ := Forest.mem_pair hm
  have hx' : x ∈ st.scanFrom m := by rw [st.scanFrom_eq_pair hm]; simp [hx]
  have hn := h.scanFrom_nodup
  rw [st.scanFrom_eq_pair hm] at hn
  simp only [List.nodup_cons, List.mem_cons, not_or] at hn
  obtain ⟨⟨-, hma⟩, hmb, -⟩ := hn
  have hjx := h.linked.inSubtree_le (h.lt_of_mem_scanFrom hx') hj
  have hxt := h.lt_of_mem_scanFrom hx'
  exact hs.other j (by omega) (h.tops_disjoint hx' ha (fun e => hma (e ▸ hx)) hj) (h.tops_disjoint hx' hb (fun e => hmb (e ▸ hx)) hj)

theorem Store.Merged.treeAt_waiting (hs : st.Merged m st') (h : Forest ls m st) (hm : m + 1 < st.count.val) {x : NodeId}
    (hx : x ∈ st.scanFrom (m + 2)) : st'.treeAt x = st.treeAt x := by
  have hxt : x.val < st.count.val := h.lt_of_mem_scanFrom (by rw [st.scanFrom_eq_pair hm]; simp [hx])
  have hheight : st'.height x = st.height x := eq_of_forall_ge_iff fun c => by
    simp only [Store.height_le_iff, hs.inSubtree_old h hxt]
    exact forall_congr' fun j => imp_congr_right fun hj => by rw [hs.nodeAt_waiting h hm hx hj]
  rw [Store.treeAt, Store.treeAt, hs.nodeAt_waiting h hm hx (inSubtree_refl st x), hheight]

/-- The codes below the two merged nodes become one bit longer. -/
theorem Store.Merged.length_below (hs : st.Merged m st') (h : Forest ls m st) (hm : m + 1 < st.count.val) {j : NodeId}
    (hj : InSubtree st (st.poolAt m) j ∨ InSubtree st (st.poolAt (m + 1)) j) :
    (st'.nodeAt j).codeLength.toNat = (st.nodeAt j).codeLength.toNat + 1 := by
  have hat := h.perm.poolAt_lt (p := m) (by omega)
  have hbt := h.perm.poolAt_lt hm
  have hjt : j.val < st.count.val :=
    hj.elim (fun hj => lt_of_le_of_lt (h.linked.inSubtree_le hat hj) hat) fun hj => lt_of_le_of_lt (h.linked.inSubtree_le hbt hj) hbt
  have hlt : (st.nodeAt j).codeLength.toNat < 32 := lt_of_le_of_ne (h.short j hjt) (hs.short j hj)
  rcases hj with hj | hj
  · rw [hs.left j hj, Node.pushBit_length _ hlt]
  · rw [hs.right j hj, Node.pushBit_length _ hlt]

/-- The new tree is one higher than the higher of the two it is made of. -/
theorem Store.Merged.height_new (hs : st.Merged m st') (h : Forest ls m st) (hm : m + 1 < st.count.val) :
    st'.height (nodeId st.count.val) = max (st.height (st.poolAt m)) (st.height (st.poolAt (m + 1))) + 1 := by
  have hbelow : ∀ {j}, InSubtree st (st.poolAt m) j ∨ InSubtree st (st.poolAt (m + 1)) j →
      (st.nodeAt j).codeLength.toNat + 1 ≤ st'.height (nodeId st.count.val) := fun hj => by
    rw [← hs.length_below h hm hj]
    exact Store.le_height ((hs.inSubtree_new h hm).mpr (.inr hj))
  refine le_antisymm (Store.height_le_iff.mpr fun j hj => ?_) ?_
  · rcases (hs.inSubtree_new h hm).mp hj with rfl | hj
    · rw [hs.step.new_node]
      exact Nat.zero_le _
    · rw [hs.length_below h hm hj]
      have := hj.imp Store.le_height Store.le_height
      omega
  · obtain ⟨ja, hja, hla⟩ := st.exists_length_eq_height (st.poolAt m)
    obtain ⟨jb, hjb, hlb⟩ := st.exists_length_eq_height (st.poolAt (m + 1))
    have := hbelow (.inl hja)
    have := hbelow (.inr hjb)
    omega

end Pass

/-! ### The grove -/

/-- The forest of the merge loop with what its order, its weights and its codes are: the unmerged nodes ascend by frequency, their
frequencies sum up to `total`, and every code is the path to its node from the top of its tree. -/
structure Grove (ls : List (Byte × Word)) (total m : Nat) (st : Store) : Prop where
  forest : Forest ls m st
  sorted : (st.scanFrom m).Pairwise st.NotAbove
  weight : ((st.scanFrom m).map fun x => (st.nodeAt x).frequency.toNat).sum = total
  fits : ∀ i : NodeId, i.val < st.count.val → (st.nodeAt i).CodeFits
  path : ∀ i : NodeId, i.val < st.count.val → ∃ x ∈ st.scanFrom m, walk st x (st.nodeAt i).codeBits = some i

section Grove

variable {ls : List (Byte × Word)} {total m : Nat} {st st' : Store}

/-- The frequency of a new node does not wrap (R141). -/
theorem Grove.frequency_new (h : Grove ls total m st) (htotal : total < 2 ^ 32) (hm : m + 1 < st.count.val) :
    (st.mergedNode (st.poolAt m) (st.poolAt (m + 1))).frequency.toNat
      = (st.nodeAt (st.poolAt m)).frequency.toNat + (st.nodeAt (st.poolAt (m + 1))).frequency.toNat := by
  have hweight := h.weight
  rw [st.scanFrom_eq_pair hm, List.map_cons, List.map_cons, List.sum_cons, List.sum_cons] at hweight
  rw [Store.mergedNode, BitVec.toNat_add]
  omega

/-- In terms of weights and heights a pass is a merge. -/
theorem Grove.trees_merged (h : Grove ls total m st) (htotal : total < 2 ^ 32) (hm : m + 1 < st.count.val)
    (hs : st.Merged m st') (k : Nat) :
    mergedHeight (k + 1) ((st.scanFrom m).map st.treeAt) = mergedHeight k ((st'.scanFrom (m + 2)).map st'.treeAt) := by
  have hwaiting : (st.scanFrom (m + 2)).map st.treeAt = (st.scanFrom (m + 2)).map st'.treeAt :=
    List.map_congr_left fun x hx => (hs.treeAt_waiting h.forest hm hx).symm
  have hnew : ((st.treeAt (st.poolAt m)).1 + (st.treeAt (st.poolAt (m + 1))).1,
      max (st.treeAt (st.poolAt m)).2 (st.treeAt (st.poolAt (m + 1))).2 + 1) = st'.treeAt (nodeId st.count.val) := by
    rw [Store.treeAt, Store.treeAt, Store.treeAt, hs.height_new h.forest hm, hs.step.new_node, h.frequency_new htotal hm]
  have hsorted : (st.scanFrom (m + 2)).Pairwise st'.NotAbove := by
    have hsorted := h.sorted
    rw [st.scanFrom_eq_pair hm] at hsorted
    refine hsorted.of_cons.of_cons.imp_of_mem fun {x y} hx hy hxy => ?_
    rw [Store.NotAbove, hs.nodeAt_waiting h.forest hm hx (inSubtree_refl st x), hs.nodeAt_waiting h.forest hm hy (inSubtree_refl st y)]
    exact hxy
  rw [st.scanFrom_eq_pair hm, List.map_cons, List.map_cons, mergedHeight_succ, hnew, hwaiting, hs.suffix,
    Store.stableSort_append_singleton st' _ hsorted, List.map_append, List.map_cons, placeTree, List.takeWhile_map, List.dropWhile_map]
  rfl

/-- The path to an old node after a pass: through the new node where its top was merged. -/
theorem Grove.path_merged (h : Grove ls total m st) (hm : m + 1 < st.count.val) (hs : st.Merged m st') {i : NodeId}
    (hi : i.val < st.count.val) :
    (st'.nodeAt i).CodeFits
      ∧ ∃ x, (x = nodeId st.count.val ∨ x ∈ st.scanFrom (m + 2)) ∧ walk st' x (st'.nodeAt i).codeBits = some i := by
  have hf := h.forest
  obtain ⟨x, hx, hw⟩ := h.path i hi
  have hxt := hf.lt_of_mem_scanFrom hx
  have hunder : InSubtree st x i := ⟨_, hw⟩
  have hmerged : ∀ β, (x = st.poolAt m ∨ x = st.poolAt (m + 1)) → st'.nodeAt i = (st.nodeAt i).pushBit β →
      (st.mergedNode (st.poolAt m) (st.poolAt (m + 1))).child β = some x →
      (st'.nodeAt i).CodeFits ∧ walk st' (nodeId st.count.val) (st'.nodeAt i).codeBits = some i := fun β hab hpush hchild => by
    have hne := hs.short i (by rcases hab with rfl | rfl <;> simp [hunder])
    have hlt : (st.nodeAt i).codeLength.toNat < 32 := lt_of_le_of_ne (hf.short i hi) hne
    rw [hpush, Node.codeBits_pushBit β hlt, walk_cons, hs.step.new_node, hchild, Option.bind_some, hs.walk_old hf hxt]
    exact ⟨(h.fits i hi).pushBit β hlt, hw⟩
  rw [st.scanFrom_eq_pair hm, List.mem_cons, List.mem_cons] at hx
  rcases hx with hxa | hxb | hx
  · obtain ⟨hfit, hw'⟩ := hmerged false (.inl hxa) (hs.left i (hxa ▸ hunder)) (by rw [hxa]; rfl)
    exact ⟨hfit, _, .inl rfl, hw'⟩
  · obtain ⟨hfit, hw'⟩ := hmerged true (.inr hxb) (hs.right i (hxb ▸ hunder)) (by rw [hxb]; rfl)
    exact ⟨hfit, _, .inl rfl, hw'⟩
  · rw [hs.nodeAt_waiting hf hm hx hunder]
    exact ⟨h.fits i hi, x, .inr hx, by rw [hs.walk_old hf hxt]; exact hw⟩

/-- One pass keeps the grove. -/
theorem Grove.mergeOnce (hL : ls.length ≤ 256) (h : Grove ls total m st) (htotal : total < 2 ^ 32) (hm : m + 1 < st.count.val)
    (hs : st.Merged m st') (ho : st.mergeOnce m = some st') : Grove ls total (m + 2) st' := by
  have hf := h.forest
  have hcount := hf.count_eq
  have hc : st.count.val < 511 := by omega
  have hperm : (st'.scanFrom (m + 2)).Perm (nodeId st.count.val :: st.scanFrom (m + 2)) := by
    rw [hs.suffix]
    exact (st'.perm_stableSort _).trans List.perm_append_comm
  have hpath : ∀ i : NodeId, i.val < st'.count.val → (st'.nodeAt i).CodeFits
      ∧ ∃ x, (x = nodeId st.count.val ∨ x ∈ st.scanFrom (m + 2)) ∧ walk st' x (st'.nodeAt i).codeBits = some i := fun i hi => by
    rw [hs.step.count_eq] at hi
    by_cases hin : i = nodeId st.count.val
    · rw [hin, hs.step.new_node]
      exact ⟨Nat.one_pos, _, .inl rfl, rfl⟩
    · refine h.path_merged hm hs (lt_of_le_of_ne (Nat.lt_succ_iff.mp hi) fun e => hin (Fin.ext ?_))
      rw [e, nodeId_val hc]
  refine ⟨hf.mergeOnce hL hm ho, by rw [hs.suffix]; exact st'.pairwise_stableSort _, ?_, fun i hi => (hpath i hi).1, fun i hi => ?_⟩
  · have hwaiting : (st.scanFrom (m + 2)).map (fun x => (st'.nodeAt x).frequency.toNat)
        = (st.scanFrom (m + 2)).map fun x => (st.nodeAt x).frequency.toNat :=
      List.map_congr_left fun x hx => by rw [hs.nodeAt_waiting hf hm hx (inSubtree_refl st x)]
    rw [(hperm.map _).sum_eq, List.map_cons, List.sum_cons, hwaiting, hs.step.new_node, h.frequency_new htotal hm, ← h.weight,
      st.scanFrom_eq_pair hm, List.map_cons, List.map_cons, List.sum_cons, List.sum_cons, Nat.add_assoc]
  · obtain ⟨-, x, hx, hw⟩ := hpath i hi
    exact ⟨x, hperm.mem_iff.mpr (List.mem_cons.mpr hx), hw⟩

end Grove

end Sys2Proof.Machine
end

section
/-! PROOFS. The merge phase of BUILD decided by the height of its tree: the tree with its codes, or CODE_OVERFLOW
(spec/41_tree_builder.md R134, R140, R142, R145, R148). -/

namespace Sys2Proof.Machine

open Sys2Proof.Safety

/-! ### The loop -/

theorem Forest.height_le {ls : List (Byte × Word)} {m : Nat} {st : Store} (h : Forest ls m st) {x : NodeId} (hx : x.val < st.count.val) :
    st.height x ≤ 32 :=
  Store.height_le_iff.mpr fun j hj => h.short j (lt_of_le_of_lt (h.linked.inSubtree_le hx hj) hx)

/-- The suffix once the loop is over: the one node left (R143). -/
theorem Store.scanFrom_last {st : Store} {m : Nat} (h : m + 1 = st.count.val) : st.scanFrom m = [st.poolAt m] := by
  rw [st.scanFrom_eq_cons (by omega), Store.scanFrom, h, Nat.sub_self]
  rfl

/-- The height of the tree that the loop makes of the unmerged trees of a state. -/
noncomputable abbrev finalHeight (passes : Nat) (s : State) : Nat :=
  mergedHeight passes ((s.store.scanFrom s.scratch.m.toNat).map s.store.treeAt)

/-- What the loop ends in when no code overflows: one tree. -/
structure LoopEnd (ls : List (Byte × Word)) (total : Nat) (s t : State) : Prop where
  grove : Grove ls total (t.store.count.val - 1) t.store
  byteCount_eq : t.store.byteCount = s.store.byteCount
  lcount_eq : t.scratch.lcount = s.scratch.lcount

section Loop

variable {ls : List (Byte × Word)} {total : Nat} {s : State}

/-- One tree left: the loop is over, and no code of it is too long. -/
theorem mergeLoop_of_last (passes : Nat) (h : Grove ls total s.scratch.m.toNat s.store)
    (hm : s.scratch.m.toNat + 1 = s.store.count.val) :
    finalHeight passes s ≤ 32 ∧ ∃ t, mergeLoop passes s = .ok t ∧ LoopEnd ls total s t := by
  have hm' : s.store.count.val - 1 = s.scratch.m.toNat := by omega
  refine ⟨?_, s, mergeLoop_of_done (by omega), by rwa [hm'], rfl, rfl⟩
  rw [finalHeight, Store.scanFrom_last hm, List.map_singleton, mergedHeight_singleton, Store.treeAt_snd]
  exact h.forest.height_le (h.forest.perm.poolAt_lt (by omega))

/-- A pass that is refused: one of the two trees has height 32, so that the tree over them would have 33 at least. -/
theorem mergeLoop_of_refused {passes : Nat} (hm : s.scratch.m.toNat + 1 < s.store.count.val)
    (hp : s.store.count.val ≤ s.scratch.m.toNat + (passes + 1) + 1) (hnone : s.store.mergeOnce s.scratch.m.toNat = none) {j : NodeId}
    (hj : InSubtree s.store (s.store.poolAt s.scratch.m.toNat) j ∨ InSubtree s.store (s.store.poolAt (s.scratch.m.toNat + 1)) j)
    (hlen : (s.store.nodeAt j).codeLength.toNat = 32) :
    32 < finalHeight (passes + 1) s ∧ ∃ u, mergeLoop (passes + 1) s = .error (.codeOverflow, u) := by
  refine ⟨?_, s, by rw [mergeLoop, if_pos (by omega), hnone]⟩
  have hheight : 32 ≤ max (s.store.height (s.store.poolAt s.scratch.m.toNat))
      (s.store.height (s.store.poolAt (s.scratch.m.toNat + 1))) := by
    rw [← hlen, le_max_iff]
    exact hj.imp Store.le_height Store.le_height
  rw [finalHeight, s.store.scanFrom_eq_pair hm, List.map_cons, List.map_cons, mergedHeight_succ, Store.treeAt_snd, Store.treeAt_snd]
  refine lt_of_lt_of_le (Nat.lt_succ_of_le hheight) (le_mergedHeight (c := (_, _)) ?_ (mem_placeTree.mpr (.inl rfl)))
  rw [length_placeTree, List.length_map, Store.length_scanFrom]
  omega

/-- The loop runs to its end when the height of its tree is at most 32, and overflows when it is more (R140). -/
theorem mergeLoop_cases {passes : Nat} (hL : ls.length ≤ 256) (htotal : total < 2 ^ 32) (h : Grove ls total s.scratch.m.toNat s.store)
    (hp : s.store.count.val ≤ s.scratch.m.toNat + passes + 1) :
    (finalHeight passes s ≤ 32 ∧ ∃ t, mergeLoop passes s = .ok t ∧ LoopEnd ls total s t)
      ∨ (32 < finalHeight passes s ∧ ∃ u, mergeLoop passes s = .error (.codeOverflow, u)) := by
  have hlt := h.forest.lt_count
  induction passes generalizing s with
  | zero => exact .inl (mergeLoop_of_last 0 h (by omega))
  | succ passes ih =>
    by_cases hm : s.scratch.m.toNat + 1 < s.store.count.val
    · rcases mergeOnce_cases hL h.forest hm with ⟨hnone, j, hj, hlen⟩ | ⟨st, hst, hs⟩
      · exact .inr (mergeLoop_of_refused hm hp hnone hj hlen)
      · have hcount := h.forest.count_eq
        have hcount' := hs.step.count_eq
        have hm2 : (s.scratch.m + 2).toNat = s.scratch.m.toNat + 2 := by
          have h1 : (s.scratch.m + 2).toNat = (s.scratch.m.toNat + 2) % 1024 := BitVec.toNat_add _ _
          omega
        have hg : Grove ls total (s.scratch.m + 2).toNat st := by rw [hm2]; exact h.mergeOnce hL htotal hm hs hst
        have hheight : finalHeight (passes + 1) s
            = finalHeight passes { s with store := st, scratch := { s.scratch with m := s.scratch.m + 2 } } := by
          rw [finalHeight, finalHeight, h.trees_merged htotal hm hs, hm2]
        rw [mergeLoop_of_mergeOnce hm hst, hheight]
        rcases ih (s := { s with store := st, scratch := { s.scratch with m := s.scratch.m + 2 } }) hg (by dsimp only; omega)
          hg.forest.lt_count with ⟨hle, t, ht, hend⟩ | hover
        · exact .inl ⟨hle, t, ht, hend.grove, hend.byteCount_eq.trans hs.step.byteCount_eq, hend.lcount_eq⟩
        · exact .inr hover
    · exact .inl (mergeLoop_of_last _ h (by omega))

end Loop

/-! ### The leaves -/

section Leaves

variable {ls : List (Byte × Word)} {st : Store}

theorem Store.Lists.nodeAt_leaf (h : st.Lists (ls.map Node.leafOf)) (hL : ls.length ≤ 256) {k : Nat} (hk : k < ls.length) :
    st.nodeAt (nodeId k) = Node.leafOf ls[k] := by
  rw [h.nodeAt (by rw [List.length_map]; omega) (by rwa [List.length_map]), List.getElem_map]

theorem Store.Lists.scanFrom_zero (h : st.Lists (ls.map Node.leafOf)) (hc : st.count.val = ls.length) :
    st.scanFrom 0 = (List.range ls.length).map nodeId := by
  rw [show st.scanFrom 0 = st.scan from rfl, Store.scan_eq, hc]
  exact List.map_congr_left fun k hk => h.poolAt (by rw [List.length_map]; exact List.mem_range.mp hk)

theorem Store.Lists.map_frequency (h : st.Lists (ls.map Node.leafOf)) (hc : st.count.val = ls.length) (hL : ls.length ≤ 256) :
    (st.scanFrom 0).map (fun x => (st.nodeAt x).frequency.toNat) = ls.map fun l => l.2.toNat := by
  rw [h.scanFrom_zero hc, List.map_map]
  refine List.ext_getElem (by simp) fun k hk _ => ?_
  have hk' : k < ls.length := by simpa using hk
  simp [h.nodeAt_leaf hL hk', Node.leaf]

/-- The sorted leaves are a grove of which nothing is merged. -/
theorem grove_of_lists (h : st.Lists (ls.map Node.leafOf)) (hc : st.count.val = ls.length) (hne : ls ≠ []) (hL : ls.length ≤ 256) :
    Grove ls (ls.map fun l => l.2.toNat).sum 0 (st.sortFrom 0) := by
  have hf := forest_of_lists h hc hne hL
  have hleaf : ∀ i : NodeId, i.val < st.count.val → ∃ l, (st.sortFrom 0).nodeAt i = Node.leafOf l := fun i hi => by
    refine ⟨ls[i.val]'(hc ▸ hi), ?_⟩
    rw [Store.nodeAt_sortFrom, ← h.nodeAt_leaf hL, show nodeId i.val = i from Fin.ext (nodeId_val i.isLt)]
  refine ⟨hf, ?_, ?_, fun i hi => ?_, fun i hi => ?_⟩
  · rw [Store.scanFrom_sortFrom]
    exact st.pairwise_stableSort _
  · rw [Store.scanFrom_sortFrom, ((st.perm_stableSort _).map _).sum_eq]
    exact congrArg List.sum (h.map_frequency hc hL)
  · obtain ⟨l, hl⟩ := hleaf i hi
    rw [hl]
    exact Nat.one_pos
  · obtain ⟨l, hl⟩ := hleaf i hi
    obtain ⟨p, hp, hpi⟩ := hf.perm.exists_poolAt_eq hi
    refine ⟨i, Store.mem_scanFrom.mpr ⟨p, Nat.zero_le p, hp, Fin.ext hpi⟩, ?_⟩
    rw [hl]
    rfl

/-- The sorted leaves by weight and height. -/
theorem map_treeAt_of_lists (h : st.Lists (ls.map Node.leafOf)) (hc : st.count.val = ls.length) (hL : ls.length ≤ 256) :
    ((st.sortFrom 0).scanFrom 0).map (st.sortFrom 0).treeAt
      = ((ls.map fun l => l.2.toNat).insertionSort (· ≤ ·)).map fun f => (f, 0) := by
  have htree : ∀ x ∈ st.stableSort (st.scanFrom 0), (st.sortFrom 0).treeAt x = ((st.nodeAt x).frequency.toNat, 0) := fun x hx => by
    rw [(st.perm_stableSort _).mem_iff, h.scanFrom_zero hc] at hx
    obtain ⟨k, hk, rfl⟩ := List.mem_map.mp hx
    have hn := h.nodeAt_leaf hL (List.mem_range.mp hk)
    have hheight : (st.sortFrom 0).height (nodeId k) ≤ 0 := Store.height_le_iff.mpr fun j hj => by
      rw [inSubtree_of_isLeaf (by rw [Store.nodeAt_sortFrom, hn]; rfl)] at hj
      rw [hj, Store.nodeAt_sortFrom, hn]
      exact le_rfl
    rw [Store.treeAt, Nat.le_zero.mp hheight, Store.nodeAt_sortFrom]
  rw [Store.scanFrom_sortFrom, List.map_congr_left htree, ← h.map_frequency hc hL,
    ← List.map_insertionSort st.NotAbove (· ≤ ·) _ _ fun _ _ _ _ => BitVec.le_def, List.map_map]
  rfl

end Leaves

/-! ### The merge phase -/

/-- Every code is the path to its node from `r`, with no bit set above its length (R142, 20_memory.md R77). -/
def Store.CodedFrom (r : NodeId) (st : Store) : Prop :=
  ∀ i : NodeId, i.val < st.count.val → walk st r (st.nodeAt i).codeBits = some i ∧ (st.nodeAt i).CodeFits

/-- The tree over one leaf: the leaf is the root and has the code 0 of length 1 (R148). -/
structure SingleTree (l : Byte × Word) (st : Store) : Prop where
  count : st.count.val = 1
  root : st.root = some 0
  pool : st.poolAt 0 = 0
  node : st.nodeAt 0 = { Node.leafOf l with codeLength := 1 }

section MergePhase

variable {ls : List (Byte × Word)} {s : State}

/-- The tree that the loop ends with passes BUILD's checks (R145). -/
theorem LoopEnd.verifyTree {total : Nat} {t : State} (h : LoopEnd ls total s t) (hlc : s.scratch.lcount.toNat = ls.length)
    (hbytes : s.store.byteCount.toNat = total) :
    verifyTree (setRoot t) = .ok (setRoot t) ∧ (setRoot t).store.CodedFrom (t.store.poolAt (t.store.count.val - 1)) := by
  have hlt := h.grove.forest.lt_count
  have hcount := h.grove.forest.count_eq
  have hlast : t.store.scanFrom (t.store.count.val - 1) = [t.store.poolAt (t.store.count.val - 1)] :=
    Store.scanFrom_last (by omega)
  have hweight := h.grove.weight
  rw [hlast, List.map_singleton, List.sum_singleton, ← hbytes, ← h.byteCount_eq] at hweight
  refine ⟨verifyTree_of_checks rfl (BitVec.eq_of_toNat_eq hweight) ?_, fun i hi => ⟨?_, h.grove.fits i hi⟩⟩
  · rw [show (setRoot t).scratch = t.scratch from rfl, h.lcount_eq, hlc]
    exact (by omega : t.store.count.val = 2 * ls.length - 1)
  · obtain ⟨x, hx, hw⟩ := h.grove.path i hi
    rw [hlast, List.mem_singleton] at hx
    rw [← hx]
    exact (walk_congr (st := t.store) (st' := (setRoot t).store) (fun _ => rfl) _).trans hw

/-- The merge phase over two or more leaves: the coded tree, or CODE_OVERFLOW, by the height of the tree (R140). -/
theorem mergePhase_cases (hl : s.store.Lists (ls.map Node.leafOf)) (hc : s.store.count.val = ls.length)
    (hlc : s.scratch.lcount.toNat = ls.length) (htwo : 2 ≤ ls.length) (hL : ls.length ≤ 256)
    (hbytes : s.store.byteCount.toNat = (ls.map fun l => l.2.toNat).sum) :
    (treeHeight (ls.map fun l => l.2.toNat) ≤ 32
        ∧ ∃ t, mergePhase s = .ok t ∧ t.store.CodedFrom (t.store.poolAt (t.store.count.val - 1)))
      ∨ (32 < treeHeight (ls.map fun l => l.2.toNat) ∧ ∃ u, mergePhase s = .error (.codeOverflow, u)) := by
  have hstart := mergeStart_of_lcount_ne_one (s := s) fun h => by
    rw [h] at hlc
    exact absurd hlc (by rw [show (1 : BitVec 9).toNat = 1 from rfl]; omega)
  have hm := mergeStart_m s
  have hstore : (mergeStart s).store = s.store.sortFrom 0 := by rw [hstart]; rfl
  have hcount : (mergeStart s).store.count.val = ls.length := by rw [hstore, Store.sortFrom_count, hc]
  have hg : Grove ls (ls.map fun l => l.2.toNat).sum (mergeStart s).scratch.m.toNat (mergeStart s).store := by
    rw [hm, hstore]
    exact grove_of_lists hl hc (List.length_pos_iff.mp (by omega)) hL
  have hheight : finalHeight (mergeStart s).store.count.val (mergeStart s) = treeHeight (ls.map fun l => l.2.toNat) := by
    rw [finalHeight, hm, hcount, hstore, map_treeAt_of_lists hl hc hL, treeHeight, List.length_map]
  rw [mergePhase_eq_bind, ← hheight]
  rcases mergeLoop_cases (passes := (mergeStart s).store.count.val) hL (hbytes ▸ s.store.byteCount.isLt) hg (by omega) with
    ⟨hle, t, ht, hend⟩ | ⟨hlt, u, hu⟩
  · obtain ⟨hv, hcoded⟩ := hend.verifyTree (by rw [hstart]; exact hlc) (by rw [hstore]; exact hbytes)
    exact .inl ⟨hle, setRoot t, by rw [ht]; exact hv, hcoded⟩
  · exact .inr ⟨hlt, u, by rw [hu]; rfl⟩

/-- The one leaf at the first test of the loop (R148). -/
theorem mergeStart_single {l : Byte × Word} (hl : s.store.Lists [Node.leafOf l]) (hc : s.store.count.val = 1)
    (hlc : s.scratch.lcount = 1) :
    (mergeStart s).store.count.val = 1 ∧ (mergeStart s).store.poolAt 0 = 0
      ∧ (mergeStart s).store.nodeAt 0 = { Node.leafOf l with codeLength := 1 }
      ∧ (mergeStart s).store.byteCount = s.store.byteCount ∧ (mergeStart s).scratch.lcount = 1 := by
  have hf := forest_of_lists (ls := [l]) hl hc (by simp) (by simp)
  have hp := hf.perm.poolAt_lt hf.lt_count
  rw [Store.sortFrom_count, hc] at hp
  have hn : (s.store.sortFrom 0).nodeAt 0 = Node.leafOf l := hl.nodeAt (k := 0) (by simp) (by simp)
  unfold mergeStart
  rcases singleLeafCode_cases (((s.setPhase .merge).mapStore (Store.sortFrom 0)).mapScratch fun sc => { sc with m := 0 }) with
    ⟨h1, -⟩ | ⟨-, h⟩
  · exact absurd hlc h1
  · rw [h]
    refine ⟨hc, Fin.ext (Nat.lt_one_iff.mp hp), ?_, rfl, hlc⟩
    rw [State.mapStore_store, Store.nodeAt_setNode, if_pos rfl]
    exact congrArg (fun n : Node => { n with code := 0, codeLength := 1 }) hn

/-- The merge phase over one leaf: no pass, and the code of R148. -/
theorem mergePhase_single {l : Byte × Word} (hl : s.store.Lists [Node.leafOf l]) (hc : s.store.count.val = 1)
    (hlc : s.scratch.lcount = 1) (hbytes : s.store.byteCount = l.2) : ∃ t, mergePhase s = .ok t ∧ SingleTree l t.store := by
  obtain ⟨hcount, hpool, hnode, hb, hlc'⟩ := mergeStart_single hl hc hlc
  have hroot : (setRoot (mergeStart s)).store.root = some 0 := by
    rw [setRoot, State.mapStore_store, hcount, hpool]
  have hv : verifyTree (setRoot (mergeStart s)) = .ok (setRoot (mergeStart s)) := by
    refine verifyTree_of_checks hroot ?_ ?_
    · exact (congrArg Node.frequency hnode).trans (hbytes.symm.trans hb.symm)
    · rw [show (setRoot (mergeStart s)).scratch = (mergeStart s).scratch from rfl, hlc']
      exact hcount
  refine ⟨setRoot (mergeStart s), ?_, hcount, hroot, hpool, hnode⟩
  rw [mergePhase_eq_bind, mergeLoop_of_done (by omega)]
  exact hv

end MergePhase

end Sys2Proof.Machine
end

section
/-! PROOFS. BUILD by the depth of its tree, and the codes of a tree it has built (spec/41_tree_builder.md R140, R142, R145, R148, R150). -/

namespace Sys2Proof.Machine

open Sys2Proof.Safety

/-! ### The frequencies of an input -/

theorem seenValues_perm_dedup (input : List Byte) : (seenValues input).Perm input.dedup :=
  (List.perm_ext_iff_of_nodup (byteValues_nodup.filter _) (List.nodup_dedup input)).mpr fun v => by
    rw [List.mem_dedup]
    exact mem_seenValues

/-- The frequencies above 0 are those of the byte values that occur. -/
theorem filter_counts_eq (input : List Byte) :
    (byteValues.map fun v => input.count v).filter (0 < ·) = (seenValues input).map fun v => input.count v := by
  rw [List.filter_map, seenValues]
  congr 2
  funext v
  simp [List.count_pos_iff]

theorem sum_counts (input : List Byte) : ((seenValues input).map fun v => input.count v).sum = input.length := by
  rw [((seenValues_perm_dedup input).map _).sum_eq]
  exact List.sum_map_count_dedup_eq_length input

theorem map_frequency_inputLeaves {input : List Byte} (hlen : input.length ≤ Config.maxInput) :
    (inputLeaves input).map (fun l => l.2.toNat) = (seenValues input).map fun v => input.count v := by
  rw [inputLeaves, List.map_map]
  refine List.map_congr_left fun v _ => ?_
  have hcount := List.count_le_length (a := v) (l := input)
  unfold Config.maxInput at hlen
  rw [Function.comp_apply, BitVec.toNat_ofNat, Nat.mod_eq_of_lt (by omega)]

/-- 33 leaves are not enough for a depth above 32 (R151). -/
theorem codeDepth_le_of_distinct_le {input : List Byte} (h : distinct input ≤ 33) : codeDepth input ≤ 32 := by
  have hheight := mergedHeight_le (k := ((seenValues input).map fun v => input.count v).length) (H := 0)
    (trees := (((seenValues input).map fun v => input.count v).insertionSort (· ≤ ·)).map fun f => (f, 0)) (by simp)
  simp only [List.length_map, List.length_insertionSort, length_seenValues] at hheight
  rw [codeDepth, filter_counts_eq, treeHeight, List.length_map, length_seenValues]
  omega

/-! ### BUILD from its leaves on -/

/-- The codes of the tree that BUILD makes of an input. -/
structure BuiltCodes (input : List Byte) (st : Store) : Prop where
  coded : 2 ≤ distinct input → st.CodedFrom (st.poolAt (st.count.val - 1))
  single : ∀ l, inputLeaves input = [l] → SingleTree l st

/-- BUILD of a counted input: the coded tree, or CODE_OVERFLOW, by the depth of the tree (R140). -/
theorem leavesRun_cases {sc : Scratch} {s : State} (hsc : Counted s.source.unread sc) (hne : s.source.unread ≠ [])
    (hlen : s.source.unread.length ≤ Config.maxInput) :
    (codeDepth s.source.unread ≤ 32
        ∧ ∃ t, mergePhase (createLeaves (recordTotals (countedState sc s))) = .ok t ∧ BuiltCodes s.source.unread t.store)
      ∨ (32 < codeDepth s.source.unread
        ∧ ∃ u, mergePhase (createLeaves (recordTotals (countedState sc s))) = .error (.codeOverflow, u)) := by
  obtain ⟨hl, hc, hb, -⟩ := createLeaves_lists hsc
  have hlc : (createLeaves (recordTotals (countedState sc s))).scratch.lcount.toNat = distinct s.source.unread := hsc.lcount_toNat
  have hls := length_inputLeaves s.source.unread
  have hpos := (distinct_pos_iff s.source.unread).mpr hne
  have hfreq := map_frequency_inputLeaves hlen
  have hbytes : (createLeaves (recordTotals (countedState sc s))).store.byteCount.toNat
      = ((inputLeaves s.source.unread).map fun l => l.2.toNat).sum := by
    unfold Config.maxInput at hlen
    rw [hfreq, sum_counts, hb, BitVec.toNat_ofNat, Nat.mod_eq_of_lt (by omega)]
  by_cases htwo : 2 ≤ distinct s.source.unread
  · have hcases := mergePhase_cases hl hc (hlc.trans hls.symm) (by omega) (hls ▸ distinct_le _) hbytes
    rw [hfreq, ← filter_counts_eq, ← codeDepth] at hcases
    exact hcases.imp_left fun ⟨hle, t, ht, hcoded⟩ => ⟨hle, t, ht, fun _ => hcoded, fun l h1 => by
      rw [h1, List.length_singleton] at hls
      omega⟩
  · obtain ⟨l, h1⟩ := List.length_eq_one_iff.mp (show (inputLeaves s.source.unread).length = 1 by omega)
    rw [h1] at hl hc hbytes
    have hone : distinct s.source.unread = (1 : BitVec 9).toNat := (by omega : distinct s.source.unread = 1)
    obtain ⟨t, ht, htree⟩ := mergePhase_single hl hc (BitVec.eq_of_toNat_eq (hlc.trans hone))
      (BitVec.eq_of_toNat_eq (hbytes.trans (by simp)))
    refine .inl ⟨codeDepth_le_of_distinct_le (by omega), t, ht, fun h2 => absurd h2 htwo, fun l' h1' => ?_⟩
    rw [h1] at h1'
    exact List.head_eq_of_cons_eq h1' ▸ htree

/-- BUILD of a usable input, decided by the depth of its tree. -/
theorem buildRun_depth_cases {s : State} (hr : s.source.readable = true) (hne : s.source.unread ≠ [])
    (hlen : s.source.unread.length ≤ Config.maxInput) :
    (codeDepth s.source.unread ≤ 32 ∧ ∃ t, buildRun s = .ok t)
      ∨ (32 < codeDepth s.source.unread ∧ ∃ u, buildRun s = .error (.codeOverflow, u)) := by
  obtain ⟨sc, hsc, hrun⟩ := buildRun_eq_mergePhase hr hne hlen
  rw [hrun]
  exact (leavesRun_cases hsc hne hlen).imp_left fun ⟨hle, t, ht, _⟩ => ⟨hle, t, ht⟩

theorem buildRun_ok_codes {s t : State} (h : buildRun s = .ok t) : BuiltCodes s.source.unread t.store := by
  rcases buildRun_cases s with he | ⟨n, sc, -, -, he⟩ | ⟨sc, hsc, hlen, ⟨-, he⟩ | ⟨hne, he⟩⟩
  · rw [he] at h; cases h
  · rw [he] at h; cases h
  · rw [he] at h; cases h
  · rw [he] at h
    rcases leavesRun_cases hsc hne hlen with ⟨-, t', ht, hcodes⟩ | ⟨-, u, hu⟩
    · rw [h] at ht
      cases ht
      exact hcodes
    · rw [h] at hu
      cases hu

/-- The causes a BUILD can be aborted for: those of its two checks are not among them (R145). -/
theorem buildRun_error_cause {s u : State} {c : Cause} (h : buildRun s = .error (c, u)) :
    c ∈ [Cause.unreadable, .tooLong, .emptyInput, .codeOverflow] := by
  rcases buildRun_cases s with he | ⟨n, sc, -, -, he⟩ | ⟨sc, hsc, hlen, ⟨-, he⟩ | ⟨hne, he⟩⟩
  · rw [he] at h; cases h; decide
  · rw [he] at h; cases h; decide
  · rw [he] at h; cases h; decide
  · rw [he] at h
    rcases leavesRun_cases hsc hne hlen with ⟨-, t, ht, -⟩ | ⟨-, u', hu⟩
    · rw [h] at ht; cases ht
    · rw [h] at hu; cases hu; decide

/-- A BUILD with the status OK has run to its last line. -/
theorem buildRun_of_exec_ok {s t : State} (h : exec .build s = .next t) (hok : t.kind = .ok) :
    ∃ u, buildRun s = .ok u ∧ t.store = u.store := by
  rcases exec_cases h with ⟨u, hu, rfl⟩ | ⟨c, u, -, rfl⟩
  · exact ⟨u, hu, rfl⟩
  · cases c <;> cases hok

/-! ### The codes of a grown tree -/

theorem getLsbD_codeWord (bits : List Bool) {k : Nat} (hk : k < 32) : (codeWord bits).getLsbD k = bits.getD k false := by
  induction bits generalizing k with
  | nil => simp [codeWord]
  | cons β bits ih =>
    rw [codeWord, BitVec.getLsbD_or, BitVec.getLsbD_shiftLeft, getLsbD_bit32]
    cases k with
    | zero => simp
    | succ k => simp [hk, ih (show k < 32 by omega)]

theorem Node.length_codeBits (n : Node) : n.codeBits.length = n.codeLength.toNat := by simp [Node.codeBits]

/-- The integer of the bits of a code is the code (R142, 44_bitstream_decoder.md R196). -/
theorem Node.codeWord_codeBits {n : Node} (h : n.CodeFits) : codeWord n.codeBits = n.code := by
  refine BitVec.eq_of_getLsbD_eq fun k hk => ?_
  rw [getLsbD_codeWord _ hk]
  by_cases hlen : k < n.codeLength.toNat
  · simp [Node.codeBits, hlen]
  · have hzero : n.code.getLsbD k = false :=
      Nat.testBit_lt_two_pow (lt_of_lt_of_le h (Nat.pow_le_pow_right (by decide) (by omega)))
    rw [hzero]
    simp [Node.codeBits, hlen]

/-- A leaf whose bits begin the bits of a node is that node. -/
theorem Store.CodedFrom.eq_of_codeBits_prefix {st : Store} {r i j : NodeId} (h : st.CodedFrom r) (hi : i.val < st.count.val)
    (hj : j.val < st.count.val) (hleaf : (st.nodeAt i).isLeaf = true) (hpre : (st.nodeAt i).codeBits <+: (st.nodeAt j).codeBits) :
    i = j := by
  obtain ⟨q, hq⟩ := hpre
  obtain ⟨hwi, -⟩ := h i hi
  obtain ⟨hwj, -⟩ := h j hj
  rw [← hq, walk_append, hwi, Option.bind_some] at hwj
  obtain rfl := walk_of_isLeaf hleaf hwj
  exact Option.some.inj hwj

section Coded

variable {ls : List (Byte × Word)} {st : Store} (h : Grown ls st) (hcoded : st.CodedFrom (st.poolAt (st.count.val - 1)))
include h

theorem Grown.mem_scan {i : NodeId} (hi : i.val < st.count.val) : i ∈ st.scan := by
  obtain ⟨p, hp, hpi⟩ := h.forest.perm.exists_poolAt_eq hi
  exact Store.mem_scanFrom.mpr ⟨p, Nat.zero_le p, hp, Fin.ext hpi⟩

theorem Grown.root_lt : (st.poolAt (st.count.val - 1)).val < st.count.val := by
  have := h.root_val
  have := h.forest.lt_count
  omega

theorem Grown.inner_root (htwo : 2 ≤ ls.length) : (st.nodeAt (st.poolAt (st.count.val - 1))).isLeaf = false := by
  have := h.count_eq
  have := h.root_val
  exact h.forest.inner _ (by omega) h.root_lt

include hcoded

/-- The path from the root to a node is the code of the node. -/
theorem Grown.codeBits_of_walk {p : List Bool} {i : NodeId} (hw : walk st (st.poolAt (st.count.val - 1)) p = some i) :
    i.val < st.count.val ∧ (st.nodeAt i).codeBits = p := by
  have hr := h.root_lt
  have hi : i.val < st.count.val := lt_of_le_of_lt (h.forest.linked.walk_le hr hw) hr
  have hlast : st.poolAt (st.count.val - 1) ∈ st.scanFrom (st.count.val - 1) :=
    Store.mem_scanFrom.mpr ⟨_, le_rfl, by have := h.forest.lt_count; omega, rfl⟩
  have htop := h.forest.top hlast
  exact ⟨hi, (h.forest.linked.path_unique hr hr htop htop (hcoded i hi).1 hw).2⟩

/-- `LookupCode` finds a leaf by the path to it. -/
theorem Grown.lookupCode_ne_none {p : List Bool} {i : NodeId} (hw : walk st (st.poolAt (st.count.val - 1)) p = some i)
    (hleaf : (st.nodeAt i).isLeaf = true) : st.lookupCode (codeWord p) p.length ≠ none := by
  obtain ⟨hi, rfl⟩ := h.codeBits_of_walk hcoded hw
  rw [Node.codeWord_codeBits (hcoded i hi).2, Node.length_codeBits, Store.lookupCode, ne_eq, Option.map_eq_none_iff,
    List.find?_eq_none]
  exact fun hnone => hnone i (h.mem_scan hi) (by simp [Store.isLeaf, hleaf])

/-- From an internal node each bit leads to a node. -/
theorem Grown.walk_concat {p : List Bool} {i : NodeId} (hw : walk st (st.poolAt (st.count.val - 1)) p = some i)
    (hinner : (st.nodeAt i).isLeaf = false) (β : Bool) : ∃ j, walk st (st.poolAt (st.count.val - 1)) (p ++ [β]) = some j := by
  obtain ⟨hi, -⟩ := h.codeBits_of_walk hcoded hw
  obtain ⟨l, r, hl, hr, -⟩ := Node.children_of_nodeWf (h.forest.wf i hi) hinner
  cases β
  · exact ⟨l, walk_concat_eq_some.mpr ⟨i, hw, hl⟩⟩
  · exact ⟨r, walk_concat_eq_some.mpr ⟨i, hw, hr⟩⟩

/-- Bits read from an internal node on never run out of matches: they go down the tree to a leaf, and start again at the root (R150). -/
theorem Grown.parseBits_ne_codeAbsent (htwo : 2 ≤ ls.length) (bits : List Bool) {p : List Bool} {i : NodeId}
    (hw : walk st (st.poolAt (st.count.val - 1)) p = some i) (hinner : (st.nodeAt i).isLeaf = false) :
    parseBits st p bits ≠ .error .codeAbsent := by
  induction bits generalizing p i with
  | nil =>
    rw [parseBits]
    split <;> simp
  | cons β bits ih =>
    obtain ⟨j, hwj⟩ := h.walk_concat hcoded hw hinner β
    obtain ⟨hj, hbits⟩ := h.codeBits_of_walk hcoded hwj
    have hlen : ¬ 32 < (p ++ [β]).length := by
      have := h.forest.short j hj
      rw [← hbits, Node.length_codeBits]
      omega
    rw [parseBits, if_neg hlen]
    cases hv : st.lookupCode (codeWord (p ++ [β])) (p ++ [β]).length with
    | none => exact ih hwj (Bool.not_eq_true _ ▸ fun hleaf => h.lookupCode_ne_none hcoded hwj hleaf hv)
    | some v =>
      have hrest := ih (p := []) rfl (h.inner_root htwo)
      dsimp only
      cases hparse : parseBits st [] bits with
      | ok out => simp
      | error c =>
        rw [hparse] at hrest
        simpa using hrest

end Coded

end Sys2Proof.Machine
end

section
/-! PROOFS. BUILD on two inputs of the same bytes in another order (spec/41_tree_builder.md R149): the tables say the same, and from the
tables on the runs agree in the store and the outcome. -/

namespace Sys2Proof.Machine

open Sys2Proof.Safety

/-- Two runs that have come to the same store with the same outcome, LCOUNT alike where they go on. -/
inductive Run.Alike : Run → Run → Prop
  | ok {s s' : State} (hstore : s'.store = s.store) (hlcount : s'.scratch.lcount = s.scratch.lcount) : Run.Alike (.ok s) (.ok s')
  | error {s s' : State} (c : Cause) (hstore : s'.store = s.store) : Run.Alike (.error (c, s)) (.error (c, s'))

theorem Run.Alike.bind {r r' : Run} {k : State → Run} (h : Run.Alike r r')
    (hk : ∀ s s' : State, s'.store = s.store → s'.scratch.lcount = s.scratch.lcount → Run.Alike (k s) (k s')) :
    Run.Alike (r.bind k) (r'.bind k) := by
  cases h with
  | ok hstore hlcount => exact hk _ _ hstore hlcount
  | error c hstore => exact .error c hstore

/-- Runs that agree end their commands in the same store and the same STATUS. -/
theorem Run.Alike.complete (i : Instr) {r r' : Run} (h : Run.Alike r r') (s s' : State) :
    ∃ t t', complete i s r = .next t ∧ complete i s' r' = .next t' ∧ t'.store = t.store ∧ t'.status = t.status := by
  cases h with
  | ok hstore _ => exact ⟨_, _, rfl, rfl, hstore, rfl⟩
  | error c hstore => exact ⟨_, _, rfl, rfl, by rw [raise_store, raise_store, hstore], rfl⟩

/-! ### The merge phase -/

section MergePhase

variable {s s' : State} (hstore : s'.store = s.store) (hlcount : s'.scratch.lcount = s.scratch.lcount)
include hstore hlcount

theorem mergeLoop_alike (hm : s'.scratch.m = s.scratch.m) (passes : Nat) : Run.Alike (mergeLoop passes s) (mergeLoop passes s') := by
  induction passes generalizing s s' with
  | zero => exact .ok hstore hlcount
  | succ passes ih =>
    rw [mergeLoop, mergeLoop, hstore, hm]
    split
    · cases s.store.mergeOnce s.scratch.m.toNat with
      | none => exact .error _ hstore
      | some st => exact ih rfl hlcount rfl
    · exact .ok hstore hlcount

theorem verifyTree_setRoot_alike : Run.Alike (verifyTree (setRoot s)) (verifyTree (setRoot s')) := by
  have hroot : (setRoot s').store = (setRoot s).store := by rw [setRoot, setRoot, State.mapStore_store, State.mapStore_store, hstore]
  have hlc : (setRoot s').scratch.lcount = (setRoot s).scratch.lcount := hlcount
  unfold verifyTree
  rw [hroot, hlc]
  cases (setRoot s).store.root with
  | none => exact .error _ hroot
  | some r =>
    dsimp only
    split
    · exact .error _ hroot
    · split
      · exact .error _ hroot
      · exact .ok hroot hlc

theorem singleLeafCode_store_eq : (singleLeafCode s').store = (singleLeafCode s).store := by
  unfold singleLeafCode
  rw [hlcount]
  split
  · rw [State.mapStore_store, State.mapStore_store, hstore]
  · exact hstore

theorem mergeStart_store_eq : (mergeStart s').store = (mergeStart s).store :=
  singleLeafCode_store_eq (congrArg (Store.sortFrom 0) hstore) hlcount

theorem mergePhase_alike : Run.Alike (mergePhase s) (mergePhase s') := by
  have hstart := mergeStart_store_eq hstore hlcount
  have hlc : (mergeStart s').scratch.lcount = (mergeStart s).scratch.lcount := by
    rw [mergeStart, mergeStart, singleLeafCode_scratch, singleLeafCode_scratch]
    exact hlcount
  have hm : (mergeStart s').scratch.m = (mergeStart s).scratch.m :=
    BitVec.eq_of_toNat_eq ((mergeStart_m s').trans (mergeStart_m s).symm)
  rw [mergePhase_eq_bind, mergePhase_eq_bind, hstart]
  exact (mergeLoop_alike hstart hlc hm _).bind fun _ _ => verifyTree_setRoot_alike

end MergePhase

/-! ### The frequency pass -/

theorem distinct_eq_of_perm {input input' : List Byte} (h : input'.Perm input) : distinct input' = distinct input :=
  h.dedup.length_eq

/-- The lines after the count read the table and its two totals only. -/
theorem afterCount_alike {input input' : List Byte} {s s' : State} (hp : input'.Perm input) (hc : Counted input s.scratch)
    (hc' : Counted input' s'.scratch) (hstore : s'.store = s.store) : Run.Alike (afterCount s) (afterCount s') := by
  have htable : ∀ v, s'.scratch.ftAt v = s.scratch.ftAt v := fun v => by
    rw [hc.table, hc'.table, hp.count_eq]
    simp [hp.mem_iff]
  have hlcount : s'.scratch.lcount = s.scratch.lcount := by rw [hc.lcount, hc'.lcount, distinct_eq_of_perm hp]
  have htotal : s'.scratch.total = s.scratch.total := by rw [hc.total, hc'.total, hp.length_eq]
  have hmax : s'.scratch.maxFrequency = s.scratch.maxFrequency := by simp only [Scratch.maxFrequency, htable]
  have hleaf : Store.createLeaf s'.scratch = Store.createLeaf s.scratch := by
    funext st v
    rw [Store.createLeaf, Store.createLeaf, htable]
  have htotals : (recordTotals s').store = (recordTotals s).store := by
    rw [recordTotals, recordTotals, State.mapStore_store, State.mapStore_store, htotal, hmax, hstore]
  have hleaves : (createLeaves (recordTotals s')).store = (createLeaves (recordTotals s)).store := by
    rw [createLeaves_store, createLeaves_store, recordTotals_scratch, recordTotals_scratch, hleaf, htotals]
  unfold afterCount
  rw [hlcount]
  split
  · exact .error _ hstore
  · exact mergePhase_alike hleaves hlcount

theorem buildRun_alike {s s' : State} (hstore : s'.store = s.store) (hread : s'.source.readable = s.source.readable)
    (hp : s'.source.unread.Perm s.source.unread) : Run.Alike (buildRun s) (buildRun s') := by
  cases hr : s.source.readable with
  | false =>
    have hfault : ∀ u : State, u.source.readable = false → buildRun u = .error (.unreadable, u) := fun u hu => by
      rw [buildRun, checkStreams, if_pos (by simp [usesSource, hu])]
    rw [hfault s hr, hfault s' (hread.trans hr)]
    exact .error _ hstore
  | true =>
    have hrelease : (countStart s').store = (countStart s).store := congrArg Store.release hstore
    rw [buildRun_of_readable hr, buildRun_of_readable (hread.trans hr)]
    rcases countPass_cases (input := s.source.unread) (counted_clearTable _) (Nat.zero_le _) (s := countStart s) with
      ⟨hle, sc, hsc, he⟩ | ⟨hlt, n, sc, -, he⟩ <;>
    rcases countPass_cases (input := s'.source.unread) (counted_clearTable _) (Nat.zero_le _) (s := countStart s') with
      ⟨hle', sc', hsc', he'⟩ | ⟨hlt', n', sc', -, he'⟩
    · rw [he, he']
      exact afterCount_alike hp hsc hsc' hrelease
    · exact absurd hlt' (by simpa [hp.length_eq] using hle)
    · exact absurd hlt (by simpa [hp.length_eq] using hle')
    · rw [he, he']
      exact .error _ hrelease

end Sys2Proof.Machine
end

section
/-! PROOFS. The code table of a built tree (spec/41_tree_builder.md R150), and BUILD of one repeated byte value (R148). -/

namespace Sys2Proof.Machine

open Sys2Proof.Safety

/-! ### The code table -/

/-- A leaf in the collection of a built tree is one of the leaves of its input. -/
theorem lt_distinct_of_mem_leaves {input : List Byte} {ls : List (Byte × Word)} {st : Store} (hg : Grown ls st) (hb : Built input st)
    {i : NodeId} (hi : i ∈ st.leaves) : i.val < st.count.val ∧ i.val < distinct input ∧ (st.nodeAt i).isLeaf = true := by
  obtain ⟨hscan, hleaf⟩ := List.mem_filter.mp hi
  obtain ⟨p, -, hp, rfl⟩ := Store.mem_scanFrom.mp hscan
  have hlt := hg.forest.perm.poolAt_lt hp
  obtain ⟨-, -, -, -, -, -, -, -, hinner, -⟩ := hb
  refine ⟨hlt, ?_, hleaf⟩
  by_contra hge
  have hno : st.isLeaf (st.poolAt p) = false := hinner _ (by omega) hlt
  rw [hno] at hleaf
  cases hleaf

theorem BuiltCodes.coded_or_single {input : List Byte} {st : Store} (h : BuiltCodes input st) (hpos : 0 < distinct input) :
    st.CodedFrom (st.poolAt (st.count.val - 1)) ∨ ∃ l, SingleTree l st := by
  by_cases htwo : 2 ≤ distinct input
  · exact .inl (h.coded htwo)
  · obtain ⟨l, hl⟩ := List.length_eq_one_iff.mp (show (inputLeaves input).length = 1 by rw [length_inputLeaves]; omega)
    exact .inr ⟨l, h.single l hl⟩

theorem SingleTree.eq_zero {l : Byte × Word} {st : Store} (h : SingleTree l st) {i : NodeId} (hi : i.val < st.count.val) : i = 0 := by
  have := h.count
  exact Fin.ext (show i.val = 0 by omega)

/-- The leaves of a built tree are a table that can be decoded. -/
theorem BuiltCodes.prefixCode {input : List Byte} {st : Store} (h : BuiltCodes input st) (hg : Grown (inputLeaves input) st)
    (hb : Built input st) : PrefixCode st := by
  have hmem : ∀ i ∈ st.leaves, i.val < st.count.val ∧ i.val < distinct input ∧ (st.nodeAt i).isLeaf = true := fun i hi =>
    lt_distinct_of_mem_leaves hg hb hi
  obtain ⟨-, -, -, -, -, -, hleaf, hvalue, -⟩ := hb
  refine ⟨fun i hi => ?_, fun i hi j hj he => ?_, fun i hi j hj hpre => ?_⟩
  · obtain ⟨hic, hid, -⟩ := hmem i hi
    obtain ⟨-, -, -, hlow, hhigh⟩ := hleaf i hid
    refine ⟨hlow, hhigh, ?_⟩
    rcases h.coded_or_single (by omega) with hcoded | ⟨l, hl⟩
    · exact (hcoded i hic).2
    · rw [hl.eq_zero hic, hl.node]
      exact (by decide : (0 : Word).toNat < 2 ^ (1 : BitVec 8).toNat)
  · obtain ⟨-, hid, -⟩ := hmem i hi
    obtain ⟨-, hjd, -⟩ := hmem j hj
    rcases lt_trichotomy i.val j.val with hlt | heq | hlt
    · exact absurd he (BitVec.ne_of_lt (hvalue i j hlt hjd))
    · exact Fin.ext heq
    · exact absurd he.symm (BitVec.ne_of_lt (hvalue j i hlt hid))
  · obtain ⟨hic, hid, hil⟩ := hmem i hi
    obtain ⟨hjc, -, -⟩ := hmem j hj
    rcases h.coded_or_single (by omega) with hcoded | ⟨l, hl⟩
    · exact hcoded.eq_of_codeBits_prefix hic hjc hil hpre
    · rw [hl.eq_zero hic, hl.eq_zero hjc]

/-! ### One byte value -/

theorem inputLeaves_replicate {n : Nat} (hn : 1 ≤ n) (v : Byte) : inputLeaves (List.replicate n v) = [(v, BitVec.ofNat 32 n)] := by
  have hmem : ∀ u, u ∈ seenValues (List.replicate n v) ↔ u ∈ [v] := fun u => by
    rw [mem_seenValues, List.mem_replicate, List.mem_singleton]
    exact and_iff_right (by omega)
  have hseen : seenValues (List.replicate n v) = [v] :=
    List.perm_singleton.mp ((List.perm_ext_iff_of_nodup (byteValues_nodup.filter _) (List.nodup_singleton v)).mpr hmem)
  rw [inputLeaves, hseen, List.map_singleton, List.count_replicate_self]

theorem maxOccurrences_replicate (n : Nat) (v : Byte) : maxOccurrences (List.replicate n v) = n := by
  have hfold : maxOccurrences (List.replicate n v) = (byteValues.map fun u => (List.replicate n v).count u).foldr max ⊥ :=
    List.foldl_eq_foldr
  rw [hfold]
  refine le_antisymm (List.max_le_of_forall_le _ _ fun c hc => ?_) (List.le_max_of_le (List.mem_map_of_mem (mem_byteValues v)) ?_)
  · obtain ⟨u, -, rfl⟩ := List.mem_map.mp hc
    exact List.count_le_length.trans (List.length_replicate).le
  · exact List.count_replicate_self.ge

end Sys2Proof.Machine
end

section
/-! PROOFS. The obligations of the family 41_tree_builder. -/

namespace Sys2Proof.Proofs

open Sys2Proof.Machine Sys2Proof.Safety

/-- Settles O36: an insertion sort by frequency is stable, and the sort refills the positions from `lo` on. -/
theorem stableSortOfThePool : Obligations.StableSortOfThePool := by
  unfold Obligations.StableSortOfThePool
  intro st ids lo _
  refine ⟨st.perm_stableSort ids, st.pairwise_stableSort ids, fun f => st.filter_stableSort f ids, st.scanFrom_sortFrom lo,
    fun p hp => ?_, st.nodeAt_sortFrom lo⟩
  rw [Store.poolAt_sortFrom, if_neg (by omega)]

/-- Settles O37: by induction on the sorted suffix. -/
theorem suffixSortIsInsertion : Obligations.SuffixSortIsInsertion := by
  unfold Obligations.SuffixSortIsInsertion
  exact fun st _ n h => st.stableSort_append_singleton n h

/-- Settles O38: the two subtrees of a node are disjoint, so that a descent reads and writes each node once. -/
theorem pushBitOnASubtree : Obligations.PushBitOnASubtree := by
  unfold Obligations.PushBitOnASubtree
  have hfull : ∀ n : Node, n.codeLength = 32 ↔ n.codeLength.toNat = 32 := fun n => by rw [← BitVec.toNat_inj]; rfl
  refine ⟨fun st i β hst hi => ?_, fun st i β hleaf => ?_⟩
  · simp only [hfull, Node.withBit_eq_pushBit]
    rcases pushBit_cases (β := β) (linked_of_storeWf hst) hi i.isLt with ⟨hnone, hlong⟩ | ⟨st₁, hsome, hshort, hpush⟩
    · exact ⟨iff_of_true hnone hlong, fun st' h => by rw [hnone] at h; cases h⟩
    · refine ⟨iff_of_false (by simp [hsome]) fun ⟨j, hj, hlen⟩ => hshort j hj hlen, fun st' h j => ?_⟩
      rw [hsome] at h
      cases h
      exact ⟨hpush.inside j, hpush.outside j⟩
  · rw [hfull, ne_eq, hfull, Node.withBit_eq_pushBit]
    refine ⟨pushBit_of_full, fun hlen => ⟨_, pushBit_of_isLeaf hleaf hlen, ?_, fun j hj => ?_⟩⟩
    · rw [Store.nodeAt_setNode, if_pos rfl]
    · rw [Store.nodeAt_setNode, if_neg hj]

/-- Settles O39: pushes leave a node's other fields. -/
theorem pushBitChangesCodesOnly : Obligations.PushBitChangesCodesOnly := by
  unfold Obligations.PushBitChangesCodesOnly
  intro depth st st' i β h
  have hpush := pushBit_pushed h
  exact ⟨hpush.1, fun j => Node.eq_of_bare (hpush.bare_eq j)⟩

/-- Settles O40: the pushes of a pass change codes only, and the sort leaves the merged positions. -/
theorem mergeCreatesTheInternalNode : Obligations.MergeCreatesTheInternalNode := by
  unfold Obligations.MergeCreatesTheInternalNode
  intro st st' m hm hc h
  obtain ⟨st₁, st₂, ha, hb, rfl⟩ := mergeOnce_some h
  have hpush := (pushBit_pushed ha).trans (pushBit_pushed hb)
  have hcount : st₂.count.val = st.count.val := by rw [hpush.count_eq]
  refine ⟨?_, ?_, fun p hp => ?_⟩
  · rw [Store.sortFrom_count, Store.count_addNode (by omega), hcount]
  · rw [Store.nodeAt_sortFrom, Store.nodeAt_addNode, if_pos (by rw [nodeId_val hc, hcount]), Store.mergedNode_of_pushed hpush,
      Store.mergedNode]
  · rw [Store.poolAt_sortFrom_lt _ hp, Store.poolAt_addNode, if_neg (by omega), hpush.poolAt_eq]

/-- Settles O41: of one byte value there is one leaf, and it is the tree. -/
theorem singleSymbolBuild : Obligations.SingleSymbolBuild := by
  unfold Obligations.SingleSymbolBuild
  intro s v n hr hpos hlen hu
  have hinput : s.source.unread.length = n := by rw [hu, List.length_replicate]
  have hleaves : inputLeaves s.source.unread = [(v, BitVec.ofNat 32 n)] := by rw [hu, inputLeaves_replicate hpos]
  have hdistinct : distinct s.source.unread = 1 := by rw [← length_inputLeaves, hleaves, List.length_singleton]
  rcases buildRun_depth_cases hr (List.ne_nil_of_length_pos (by omega)) (hinput ▸ hlen) with ⟨-, t, ht⟩ | ⟨hdeep, -⟩
  · obtain ⟨hcount, hroot, hpool, hnode⟩ := (buildRun_ok_codes ht).single _ hleaves
    obtain ⟨-, -, hbytes, hmax⟩ := buildRun_ok ht
    refine ⟨t.finish, by rw [exec_eq_complete, runOf, ht]; rfl, ⟨rfl, rfl, rfl⟩, hcount, hroot, hpool, hinput ▸ hbytes, ?_, hnode⟩
    refine BitVec.eq_of_toNat_eq (hmax.trans ?_)
    rw [hu, maxOccurrences_replicate, BitVec.toNat_ofNat, Nat.mod_eq_of_lt (by omega)]
  · exact absurd hdeep (not_lt.mpr (codeDepth_le_of_distinct_le (by omega)))

/-- Settles O43: the loop's trees, by weight and height, are merged as `mergedHeight` merges them. -/
theorem buildCompletes : Obligations.BuildCompletes := by
  unfold Obligations.BuildCompletes
  intro s hr hne hlen
  have hcases := buildRun_depth_cases hr hne hlen
  refine ⟨fun hle => ?_, fun hlt => ?_, codeDepth_le_of_distinct_le⟩
  · obtain ⟨-, t, ht⟩ := hcases.resolve_right fun h => absurd h.1 (not_lt.mpr hle)
    have hexec : exec .build s = .next t.finish := by rw [exec_eq_complete, runOf, ht]; rfl
    exact ⟨t.finish, hexec, ⟨rfl, rfl, rfl⟩, buildLeavesTheBuiltTree s t.finish hexec rfl⟩
  · obtain ⟨-, u, hu⟩ := hcases.resolve_left fun h => absurd h.1 (not_le.mpr hlt)
    exact exec_of_error_of_emptiesStore rfl hu

/-- Settles O45: the checks are not among the causes of BUILD's aborts. -/
theorem buildChecksNeverFail : Obligations.BuildChecksNeverFail := by
  unfold Obligations.BuildChecksNeverFail
  intro s t h
  rcases exec_cases h with ⟨u, -, rfl⟩ | ⟨c, u, hu, rfl⟩
  · rw [State.finish_detail]
    decide
  · have hc := buildRun_error_cause hu
    simp only [List.mem_cons, List.not_mem_nil, or_false] at hc
    rw [raise_detail]
    rcases hc with rfl | rfl | rfl | rfl <;> decide

/-- Settles O46: the table of a permuted input says the same, and BUILD reads the table only. -/
theorem buildIgnoresArrivalOrder : Obligations.BuildIgnoresArrivalOrder := by
  unfold Obligations.BuildIgnoresArrivalOrder
  intro s src hread hp
  rw [exec_eq_complete, exec_eq_complete]
  exact (buildRun_alike (s := s) (s' := { s with source := src }) rfl hread hp).complete .build _ _

/-- Settles O47: each merge puts its bit before the bits of the codes below it. -/
theorem builtCodesAreRootToLeafPaths : Obligations.BuiltCodesAreRootToLeafPaths := by
  unfold Obligations.BuiltCodesAreRootToLeafPaths
  intro s t h hok htwo r hroot i hi
  obtain ⟨u, hu, hstore⟩ := buildRun_of_exec_ok h hok
  obtain ⟨-, hgrown, -⟩ := buildRun_ok hu
  rw [hstore, hgrown.root] at hroot
  rw [hstore] at hi ⊢
  cases hroot
  exact (buildRun_ok_codes hu).coded htwo i hi

/-- Settles O48: a leaf's path ends at the leaf, so that it does not begin another one's. -/
theorem builtCodesArePrefixFree : Obligations.BuiltCodesArePrefixFree := by
  unfold Obligations.BuiltCodesArePrefixFree
  intro s t h hok
  obtain ⟨hbuilt, -⟩ := buildLeavesTheBuiltTree s t h hok
  obtain ⟨u, hu, hstore⟩ := buildRun_of_exec_ok h hok
  rw [hstore] at hbuilt ⊢
  exact (buildRun_ok_codes hu).prefixCode (buildRun_ok hu).2.1 hbuilt

/-- Settles O49: from the root each bit leads on until a leaf is reached. -/
theorem builtCodesAreComplete : Obligations.BuiltCodesAreComplete := by
  unfold Obligations.BuiltCodesAreComplete
  intro s t h hok htwo bits
  obtain ⟨u, hu, hstore⟩ := buildRun_of_exec_ok h hok
  obtain ⟨-, hgrown, -⟩ := buildRun_ok hu
  have hls := length_inputLeaves s.source.unread
  rw [hstore]
  exact hgrown.parseBits_ne_codeAbsent ((buildRun_ok_codes hu).coded htwo) (by omega) bits rfl (hgrown.inner_root (by omega))

end Sys2Proof.Proofs
end

section
/-! PROOFS. The linear scans of the collection that stop at the first match (spec/42_code_table.md R161, R162, R164). -/

namespace Sys2Proof.Machine

/-- A search of the collection is a search of its positions. -/
theorem Store.find?_scan (st : Store) (P : NodeId → Bool) :
    st.scan.find? P = ((List.range st.count.val).find? (P ∘ st.poolAt)).map st.poolAt := by
  rw [Store.scan_eq, List.find?_map]

/-- A search of the collection finds the match at the lowest position (R164). -/
theorem Store.find?_scan_eq_some {st : Store} {P : NodeId → Bool} {i : NodeId} :
    st.scan.find? P = some i ↔
      ∃ p, p < st.count.val ∧ st.poolAt p = i ∧ P i = true ∧ ∀ q, q < p → ¬ P (st.poolAt q) = true := by
  simp only [st.find?_scan, Option.map_eq_some_iff, List.find?_range_eq_some, List.mem_range, Bool.not_eq_true',
    Function.comp_apply, Bool.not_eq_true]
  constructor
  · rintro ⟨p, ⟨hmatch, hp, hfirst⟩, rfl⟩
    exact ⟨p, hp, rfl, hmatch, hfirst⟩
  · rintro ⟨p, hp, rfl, hmatch, hfirst⟩
    exact ⟨p, ⟨hmatch, hp, hfirst⟩, rfl⟩

/-- A search of the collection is absent when no position matches. -/
theorem Store.find?_scan_eq_none {st : Store} {P : NodeId → Bool} :
    st.scan.find? P = none ↔ ∀ p, p < st.count.val → ¬ P (st.poolAt p) = true := by
  simp only [st.scan_eq, List.find?_eq_none, List.forall_mem_map, List.mem_range]

end Sys2Proof.Machine
end

section
/-! PROOFS. The obligations of the family 42_code_table. -/

namespace Sys2Proof.Proofs

open Sys2Proof.Machine

/-- Settles O32: the scan stops at the first leaf with the value. -/
theorem lookupValueFindsTheFirst : Obligations.LookupValueFindsTheFirst := by
  unfold Obligations.LookupValueFindsTheFirst
  intro st v
  constructor
  · intro i
    simp only [Store.lookupValue, Store.find?_scan_eq_some, Bool.and_eq_true, beq_iff_eq, and_assoc]
  · simp only [Store.lookupValue, Store.find?_scan_eq_none, Bool.and_eq_true, beq_iff_eq]

/-- Settles O33: the scan stops at the first leaf with the pair, and the value is read from that leaf. -/
theorem lookupCodeFindsTheFirst : Obligations.LookupCodeFindsTheFirst := by
  unfold Obligations.LookupCodeFindsTheFirst
  intro st c n
  constructor
  · intro v
    simp only [Store.lookupCode, Option.map_eq_some_iff, Store.find?_scan_eq_some, Bool.and_eq_true, beq_iff_eq, and_assoc]
    constructor
    · rintro ⟨i, ⟨p, hp, rfl, hleaf, hcode, hlen, hfirst⟩, hvalue⟩
      exact ⟨p, hp, hleaf, hcode, hlen, hvalue, hfirst⟩
    · rintro ⟨p, hp, hleaf, hcode, hlen, hvalue, hfirst⟩
      exact ⟨_, ⟨p, hp, rfl, hleaf, hcode, hlen, hfirst⟩, hvalue⟩
  · simp only [Store.lookupCode, Option.map_eq_none_iff, Store.find?_scan_eq_none, Bool.and_eq_true, beq_iff_eq, and_assoc]

end Sys2Proof.Proofs
end

section
/-! PROOFS. How ENCODE ends: one code by what the table says of its byte, the input by its first byte that cannot be sent
(spec/43_bitstream_encoder.md R170 to R173). -/

namespace Sys2Proof.Proofs

open Sys2Proof.Machine Sys2Proof.Safety

theorem checkStreams_of_usable (i : Instr) {s : State} (hr : s.source.readable = true) (ha : s.sink.available = true) :
    checkStreams i s = .ok s := by
  simp [checkStreams, hr, ha]

/-- A source read on to its end has nothing unread (R66). -/
theorem unread_skip_length (src : Source) : (src.skip src.unread.length).unread = [] := by
  rw [Source.unread, Source.skip_bytes, Source.skip_pos, ← List.drop_drop, ← Source.unread, List.drop_length]

/-- A command aborted in its lines ends with the cause of its abort (R250). -/
theorem exec_of_run_error {i : Instr} {s u : State} {c : Cause} (h : runOf i s = .error (c, u)) :
    ∃ t, exec i s = .next t ∧ EndsWith c t := by
  rw [exec_eq_complete, h]
  exact ⟨_, rfl, rfl, rfl, rfl⟩

/-- Where a run has read on by 0 bytes, the source stands. -/
theorem source_eq_of_advances_zero {s t : State} (h : Advances 0 s t) : t.source = s.source := by
  obtain ⟨k, hk, hsource⟩ := h.source
  rwa [Nat.le_zero.mp hk] at hsource

/-! ### One code -/

theorem encodeByte_of_absent {v : Byte} {s : State} (h : s.store.lookupValue v = none) : encodeByte v s = .error (.valueAbsent, s) := by
  rcases encodeByte_cases v s with ⟨he, -⟩ | ⟨i, hi, -⟩
  · exact he
  · rw [h] at hi
    cases hi

theorem encodeByte_of_badLength {v : Byte} {s : State} {i : NodeId} (h : s.store.lookupValue v = some i)
    (hlen : (s.store.nodeAt i).codeLength.toNat = 0 ∨ 32 < (s.store.nodeAt i).codeLength.toNat) :
    encodeByte v s = .error (.badLength, s) := by
  rcases encodeByte_cases v s with ⟨-, hn⟩ | ⟨j, hj, ⟨he, -⟩ | ⟨-, hlow, hhigh⟩⟩
  · rw [h] at hn
    cases hn
  · exact he
  · obtain rfl : i = j := Option.some.inj (h.symm.trans hj)
    omega

/-- The code of an encodable byte is sent, which neither reads on in the source nor touches the store. -/
theorem encodeByte_of_encodable {v : Byte} {s : State} (h : Encodable s.store v) :
    ∃ t, encodeByte v s = .ok t ∧ t.store = s.store ∧ t.source = s.source := by
  obtain ⟨i, hi, hlow, hhigh⟩ := h
  have hadv := advances_encodeByte v s
  rcases encodeByte_cases v s with ⟨-, hn⟩ | ⟨j, hj, ⟨-, hbad⟩ | ⟨he, -⟩⟩
  · rw [hn] at hi
    cases hi
  · obtain rfl : i = j := Option.some.inj (hi.symm.trans hj)
    omega
  · rw [he] at hadv
    exact ⟨_, he, hadv.store, source_eq_of_advances_zero hadv⟩

/-! ### The input -/

/-- Encodable bytes are all sent, the source read on by one byte for each (R172). -/
theorem encodeBytes_of_encodable {vs : List Byte} {s : State} (h : ∀ v ∈ vs, Encodable s.store v) :
    ∃ t, encodeBytes vs s = .ok t ∧ t.store = s.store ∧ t.source = s.source.skip vs.length := by
  induction vs generalizing s with
  | nil => exact ⟨s, rfl, rfl, rfl⟩
  | cons v vs ih =>
    obtain ⟨u, hu, hustore, husource⟩ := encodeByte_of_encodable (s := s.srcSkip 1) (h v List.mem_cons_self)
    obtain ⟨t, ht, htstore, htsource⟩ := ih (s := u) fun w hw => by
      rw [hustore]
      exact h w (List.mem_cons_of_mem v hw)
    refine ⟨t, ?_, htstore.trans hustore, ?_⟩
    · rw [encodeBytes_cons, hu]
      exact ht
    · rw [htsource, husource, State.srcSkip_source, Source.skip_skip, List.length_cons, Nat.add_comm]

theorem encodeBytes_append (vs ws : List Byte) (s : State) :
    encodeBytes (vs ++ ws) s = (encodeBytes vs s).bind (encodeBytes ws) := by
  induction vs generalizing s with
  | nil => rfl
  | cons v vs ih =>
    rw [List.cons_append, encodeBytes_cons, encodeBytes_cons]
    cases encodeByte v (s.srcSkip 1) with
    | error e => rfl
    | ok u => exact ih u

/-- After encodable bytes, a byte whose code is refused aborts the input with its cause (R173). -/
theorem encodeBytes_of_first_refused {before after : List Byte} {v : Byte} {s : State} {c : Cause}
    (hbefore : ∀ u ∈ before, Encodable s.store u)
    (hv : ∀ u : State, u.store = s.store → encodeByte v u = .error (c, u)) :
    ∃ u, encodeBytes (before ++ v :: after) s = .error (c, u) := by
  obtain ⟨u, hu, hstore, -⟩ := encodeBytes_of_encodable hbefore
  refine ⟨u.srcSkip 1, ?_⟩
  rw [encodeBytes_append, hu]
  change encodeBytes (v :: after) u = _
  rw [encodeBytes_cons, hv (u.srcSkip 1) hstore]
  rfl

/-! ### The command -/

/-- ENCODE of an encodable input runs to its last line, with the source read to its end and the store as it was. -/
theorem encodeRun_of_encodable {s : State} (hr : s.source.readable = true) (ha : s.sink.available = true)
    (h : ∀ v ∈ s.source.unread, Encodable s.store v) :
    ∃ t, encodeRun s = .ok t ∧ t.store = s.store ∧ t.source = s.source.skip s.source.unread.length := by
  obtain ⟨u, hu, hstore, hsource⟩ :=
    encodeBytes_of_encodable (s := (s.setPhase .encode).mapScratch Scratch.resetAcc) h
  have hend := advances_endSegment u
  refine ⟨endSegment u, ?_, hend.store.trans hstore, (source_eq_of_advances_zero hend).trans hsource⟩
  rw [encodeRun_eq (checkStreams_of_usable .encode hr ha), hu]
  rfl

/-- ENCODE ends with the cause of the first byte whose code is refused. -/
theorem exec_encode_of_first_refused {s : State} {before after : List Byte} {v : Byte} {c : Cause}
    (hr : s.source.readable = true) (ha : s.sink.available = true) (hinput : s.source.unread = before ++ v :: after)
    (hbefore : ∀ u ∈ before, Encodable s.store u)
    (hv : ∀ u : State, u.store = s.store → encodeByte v u = .error (c, u)) :
    ∃ t, exec .encode s = .next t ∧ EndsWith c t := by
  obtain ⟨u, hu⟩ := encodeBytes_of_first_refused (after := after)
    (s := (s.setPhase .encode).mapScratch Scratch.resetAcc) hbefore hv
  have hrun : runOf .encode s = .error (c, u) := by
    rw [runOf, encodeRun_eq (checkStreams_of_usable .encode hr ha), hinput, hu]
    rfl
  exact exec_of_run_error hrun

end Sys2Proof.Proofs
end

section
/-! PROOFS. The obligations of the family 43_bitstream_encoder. -/

namespace Sys2Proof.Proofs

open Sys2Proof.Machine Sys2Proof.Safety

/-- Settles O50: every code of the input is sent, and the sink and the accumulator hold the segment of the bits sent. -/
theorem encodeWritesTheSegment : Obligations.EncodeWritesTheSegment := by
  unfold Obligations.EncodeWritesTheSegment
  intro s hr ha h
  obtain ⟨t, ht, hstore, hsource⟩ := encodeRun_of_encodable hr ha h
  refine ⟨t.finish, by rw [exec_eq_complete, runOf, ht]; rfl, ⟨rfl, rfl, rfl⟩, ?_, ?_, hstore⟩
  · rw [State.finish_sink, encodeRun_ok_sink ht]
  · rw [State.finish_source, hsource, unread_skip_length]

/-- Settles O51: the codes before the first bad byte are sent, and its own is refused by the test it fails. -/
theorem encodeFaultsAtTheFirstBadByte : Obligations.EncodeFaultsAtTheFirstBadByte := by
  unfold Obligations.EncodeFaultsAtTheFirstBadByte
  intro s before after v hr ha hinput hbefore
  refine ⟨fun hnone => ?_, fun i hi hlen => ?_⟩
  · refine exec_encode_of_first_refused hr ha hinput hbefore fun u hu => encodeByte_of_absent ?_
    rw [hu, hnone]
  · refine exec_encode_of_first_refused hr ha hinput hbefore fun u hu => encodeByte_of_badLength (i := i) ?_ ?_
    · rw [hu, hi]
    · rwa [hu]

end Sys2Proof.Proofs
end

section
/-! PROOFS. The decoder's accumulator and its reversal (spec/44_bitstream_decoder.md R195, R196). -/

namespace Sys2Proof.Machine

open Sys2Proof.Safety

theorem shiftedIn_concat (bits : List Bool) (β : Bool) : shiftedIn (bits ++ [β]) = (shiftedIn bits <<< 1) ||| bit32 β := by
  rw [shiftedIn, List.foldl_append]
  rfl

/-- The bit read last is the lowest of DCODE (R196). -/
theorem getLsbD_shiftedIn (bits : List Bool) {k : Nat} (hk : k < 32) : (shiftedIn bits).getLsbD k = bits.reverse.getD k false := by
  induction bits using List.reverseRecOn generalizing k with
  | nil => simp [shiftedIn]
  | append_singleton bits β ih =>
    rw [shiftedIn_concat, BitVec.getLsbD_or, BitVec.getLsbD_shiftLeft, getLsbD_bit32, List.reverse_append]
    cases k with
    | zero => simp
    | succ k => simp [hk, ih (show k < 32 by omega)]

/-- After the low `m` bits of `c` have been carried over, these are the bits of the reversal. -/
theorem getLsbD_foldl_rev {n : Nat} (hn : n ≤ 32) (c : Word) {m : Nat} (hm : m ≤ n) {k : Nat} (hk : k < n) :
    ((List.range m).foldl (fun r i => r ||| (bit32 (c.getLsbD i) <<< (n - 1 - i))) (0 : Word)).getLsbD k
      = (decide (n - 1 - k < m) && c.getLsbD (n - 1 - k)) := by
  induction m with
  | zero => simp
  | succ m ih =>
    rw [List.range_succ, List.foldl_append, List.foldl_cons, List.foldl_nil, BitVec.getLsbD_or, ih (by omega),
      BitVec.getLsbD_shiftLeft, getLsbD_bit32]
    rcases lt_trichotomy (n - 1 - k) m with hlt | heq | hgt
    · simp [hlt, show n - 1 - k < m + 1 by omega, show k - (n - 1 - m) ≠ 0 by omega]
    · subst heq
      simp [show k < 32 by omega, show n - 1 - (n - 1 - k) = k by omega]
    · simp [show ¬ n - 1 - k < m by omega, show ¬ n - 1 - k < m + 1 by omega, show k < n - 1 - m by omega]

theorem getLsbD_rev {n : Nat} (hn : n ≤ 32) (c : Word) {k : Nat} (hk : k < n) : (rev n c).getLsbD k = c.getLsbD (n - 1 - k) := by
  rw [rev, getLsbD_foldl_rev hn c le_rfl hk, decide_eq_true (show n - 1 - k < n by omega), Bool.true_and]

/-- The reversal has no bit at or above its width. -/
theorem getLsbD_rev_of_le {n : Nat} (c : Word) {k : Nat} (hk : n ≤ k) : (rev n c).getLsbD k = false := by
  rw [rev]
  refine List.foldlRecOn (motive := fun r : Word => r.getLsbD k = false) (List.range n) _ (by simp) fun r hr i hi => ?_
  have hi := List.mem_range.mp hi
  rw [BitVec.getLsbD_or, hr, BitVec.getLsbD_shiftLeft, getLsbD_bit32]
  simp [show k - (n - 1 - i) ≠ 0 by omega]

/-- The reversed accumulator is the integer of the bits in stream order (R196). -/
theorem rev_shiftedIn {bits : List Bool} (h : bits.length ≤ 32) : rev bits.length (shiftedIn bits) = codeWord bits := by
  refine BitVec.eq_of_getLsbD_eq fun k hk => ?_
  rw [getLsbD_codeWord bits hk]
  by_cases hlen : k < bits.length
  · rw [getLsbD_rev h _ hlen, getLsbD_shiftedIn bits (by omega), List.getD_reverse _ (by omega)]
    congr 1
    omega
  · rw [getLsbD_rev_of_le _ (by omega), List.getD_eq_default _ _ (by omega)]

end Sys2Proof.Machine
end

section
/-! PROOFS. DECODE against the parse of its bits: at every point of the run, what the bits still to be read parse to after those read so
far is what the whole segment parses to (spec/44_bitstream_decoder.md R190 to R200). -/

namespace Sys2Proof.Machine

open Sys2Proof.Safety

/-! ### The parse -/

/-- A bit that leaves the open code within 32 bits either ends it with a match or leaves it open (R196). -/
theorem parseBits_cons {st : Store} {pre : List Bool} {β : Bool} (bits : List Bool) (h : (pre ++ [β]).length ≤ 32) :
    (st.lookupCode (codeWord (pre ++ [β])) (pre ++ [β]).length = none → parseBits st pre (β :: bits) = parseBits st (pre ++ [β]) bits)
      ∧ ∀ v, st.lookupCode (codeWord (pre ++ [β])) (pre ++ [β]).length = some v →
        parseBits st pre (β :: bits) = (parseBits st [] bits).map (v :: ·) := by
  rw [parseBits, if_neg (not_lt.mpr h)]
  refine ⟨fun hv => by rw [hv], fun v hv => ?_⟩
  rw [hv]
  cases parseBits st [] bits <;> rfl

theorem parseBits_cons_of_long {st : Store} {pre : List Bool} {β : Bool} (bits : List Bool) (h : 32 < (pre ++ [β]).length) :
    parseBits st pre (β :: bits) = .error .codeAbsent := by
  rw [parseBits, if_pos h]

/-- The parse fails for one of two causes (R198, R200). -/
theorem parseBits_error_cause {st : Store} {pre bits : List Bool} {c : Cause} (h : parseBits st pre bits = .error c) :
    c = .codeAbsent ∨ c = .partialCode := by
  induction bits generalizing pre with
  | nil =>
    rw [parseBits] at h
    split at h <;> cases h
    exact .inr rfl
  | cons β bits ih =>
    by_cases hlen : 32 < (pre ++ [β]).length
    · rw [parseBits_cons_of_long bits hlen] at h
      cases h
      exact .inl rfl
    · obtain ⟨hnone, hsome⟩ := parseBits_cons (st := st) bits (not_lt.mp hlen)
      cases hv : st.lookupCode (codeWord (pre ++ [β])) (pre ++ [β]).length with
      | none => exact ih ((hnone hv).symm.trans h)
      | some v =>
        rw [hsome v hv] at h
        cases hp : parseBits st [] bits with
        | ok out => rw [hp] at h; cases h
        | error c' =>
          rw [hp] at h
          cases h
          exact ih hp

/-- The parse is a function of what `LookupCode` answers. -/
theorem parseBits_congr {st st' : Store} (h : ∀ c n, st.lookupCode c n = st'.lookupCode c n) (pre bits : List Bool) :
    parseBits st pre bits = parseBits st' pre bits := by
  induction bits generalizing pre with
  | nil => rfl
  | cons β bits ih => rw [parseBits, parseBits, h, ih, ih]

/-! ### The bits still to be read -/

/-- The decoder has the bits `rest` still to read: with the bits of the open code, in DCODE, and after the bytes sent since the sink held
`base`, they parse to `outcome`. -/
def Owes (base : List Byte) (outcome : Except Cause (List Byte)) (rest : List Bool) (s : State) : Prop :=
  ∃ pre out, pre.length ≤ 32 ∧ s.scratch.dcode = shiftedIn pre ∧ s.scratch.dlen = BitVec.ofNat 6 pre.length
    ∧ s.sink.bytes = base ++ out ∧ outcome = (parseBits s.store pre rest).map (out ++ ·)

/-- A run leaves `rest` to be read, or was aborted for the cause that the parse gives. -/
def Run.Owes (base : List Byte) (outcome : Except Cause (List Byte)) (rest : List Bool) : Run → Prop
  | .ok s => Machine.Owes base outcome rest s
  | .error (c, _) => outcome = .error c

section Owes

variable {base : List Byte} {outcome : Except Cause (List Byte)}

/-- A run goes on where its first part has stopped reading. -/
theorem Run.Owes.bind {rest rest' : List Bool} {r : Run} {k : State → Run} (h : r.Owes base outcome rest)
    (hk : ∀ s, Machine.Owes base outcome rest s → (k s).Owes base outcome rest') : Run.Owes base outcome rest' (Except.bind r k) := by
  rcases r with ⟨c, s⟩ | s
  · exact h
  · exact hk s h

/-- GetBit takes the first of the bits that are left (R196, R198). -/
theorem Owes.getBit {β : Bool} {rest : List Bool} {s : State} (h : Owes base outcome (β :: rest) s) :
    (getBit β s).Owes base outcome rest := by
  obtain ⟨pre, out, hlen, hcode, hdlen, hsink, rfl⟩ := h
  have hcode₁ : (s.mapScratch (Scratch.shiftDcode β)).scratch.dcode = shiftedIn (pre ++ [β]) := by
    rw [shiftedIn_concat, ← hcode]
    rfl
  have hdlen₁ : (s.mapScratch (Scratch.shiftDcode β)).scratch.dlen = BitVec.ofNat 6 (pre ++ [β]).length := by
    rw [List.length_append, BitVec.ofNat_add, ← hdlen]
    rfl
  have hlen₁ : (pre ++ [β]).length = pre.length + 1 := by simp
  have hnat : (s.mapScratch (Scratch.shiftDcode β)).scratch.dlen.toNat = (pre ++ [β]).length := by
    rw [hdlen₁, BitVec.toNat_ofNat]
    omega
  have hcases := getBit_cases β s
  dsimp only at hcases
  rw [hnat, hcode₁] at hcases
  rcases hcases with ⟨hget, hlong⟩ | ⟨hshort, hcases⟩
  · rw [hget, parseBits_cons_of_long rest hlong]
    rfl
  · rw [rev_shiftedIn hshort] at hcases
    obtain ⟨hnone, hsome⟩ := parseBits_cons (st := s.store) rest hshort
    rcases hcases with ⟨hget, hv⟩ | ⟨v, hget, hv⟩
    · rw [hget, hnone hv]
      exact ⟨pre ++ [β], out, hshort, hcode₁, hdlen₁, hsink, rfl⟩
    · rw [hget, hsome v hv]
      refine ⟨[], out ++ [v], Nat.zero_le _, rfl, rfl, ?_, ?_⟩
      · simp [hsink]
      · simp only [State.mapScratch_store, State.sinkByte_store]
        cases parseBits s.store [] rest <;> simp [Except.map]

theorem Owes.getBits {bits rest : List Bool} {s : State} (h : Owes base outcome (bits ++ rest) s) :
    (getBits bits s).Owes base outcome rest := by
  induction bits generalizing s with
  | nil => exact h
  | cons β bits ih =>
    rw [getBits_cons]
    exact Run.Owes.bind (Owes.getBit h) fun _ => ih

/-- The data bytes are their valid bits (R193, R194). -/
theorem Owes.decodeBytes {trailer : Byte} {data : List Byte} {s : State} (h : Owes base outcome (segmentBits trailer data) s) :
    (decodeBytes trailer data s).Owes base outcome [] := by
  induction data generalizing s with
  | nil => exact h
  | cons b data ih =>
    cases data with
    | nil => exact Owes.getBits (s := s.srcSkip 1) (by rw [List.append_nil]; exact h)
    | cons b' data =>
      rw [decodeBytes_cons_cons]
      exact Run.Owes.bind (Owes.getBits (s := s.srcSkip 1) h) fun _ => ih

/-- With no bit left the segment ends OK, or within a code (R190, R200). -/
theorem Owes.closeSegment {s : State} (h : Owes base outcome [] s) :
    (∃ out, outcome = .ok out ∧ closeSegment s = .ok (s.srcSkip 1) ∧ s.sink.bytes = base ++ out)
      ∨ (outcome = .error .partialCode ∧ closeSegment s = .error (.partialCode, s.srcSkip 1)) := by
  obtain ⟨pre, out, hlen, -, hdlen, hsink, rfl⟩ := h
  unfold Machine.closeSegment
  rw [State.srcSkip_scratch, hdlen, parseBits]
  by_cases hpre : pre = []
  · subst hpre
    exact .inl ⟨out, by simp [Except.map], by simp, hsink⟩
  · have hpos := List.length_pos_iff.mpr hpre
    have hne : BitVec.ofNat 6 pre.length ≠ 0 := fun he => by
      rw [← BitVec.toNat_inj, BitVec.toNat_ofNat, show (0 : BitVec 6).toNat = 0 from rfl] at he
      omega
    exact .inr ⟨by rw [if_neg hpre]; rfl, by rw [if_pos hne]⟩

/-- The segment's lines end as the parse of its valid bits does. -/
theorem decodeSegment_cases (trailer : Byte) (data : List Byte) (s : State) :
    (∃ out u, parseBits s.store [] (segmentBits trailer data) = .ok out ∧ decodeSegment trailer data s = .ok u
        ∧ u.sink.bytes = s.sink.bytes ++ out)
      ∨ ∃ c u, parseBits s.store [] (segmentBits trailer data) = .error c ∧ decodeSegment trailer data s = .error (c, u) := by
  have hstart : Owes s.sink.bytes (parseBits s.store [] (segmentBits trailer data)) (segmentBits trailer data)
      (s.mapScratch (Scratch.openSegment (data.length + 1) trailer)) := by
    refine ⟨[], [], Nat.zero_le _, rfl, rfl, (List.append_nil _).symm, ?_⟩
    rw [State.mapScratch_store]
    cases parseBits s.store [] (segmentBits trailer data) <;> rfl
  have hbytes := Owes.decodeBytes hstart
  rw [decodeSegment_eq]
  generalize decodeBytes trailer data (s.mapScratch (Scratch.openSegment (data.length + 1) trailer)) = r at hbytes ⊢
  rcases r with ⟨c, u⟩ | u
  · exact .inr ⟨c, u, hbytes, rfl⟩
  · rcases Owes.closeSegment hbytes with ⟨out, hparse, hclose, hsink⟩ | ⟨hparse, hclose⟩
    · exact .inl ⟨out, u.srcSkip 1, hparse, hclose, hsink⟩
    · exact .inr ⟨_, _, hparse, hclose⟩

end Owes

/-! ### The end of the source -/

theorem getBits_ok_source {bits : List Bool} {s t : State} (h : getBits bits s = .ok t) : t.source = s.source := by
  have hadv := advances_getBits bits s
  rw [h] at hadv
  obtain ⟨k, hk, hsource⟩ := hadv.source
  rwa [Nat.le_zero.mp hk] at hsource

theorem decodeBytes_ok_source {trailer : Byte} {data : List Byte} {s t : State} (h : decodeBytes trailer data s = .ok t) :
    t.source = s.source.skip data.length := by
  induction data generalizing s with
  | nil => cases h; rfl
  | cons b data ih =>
    cases data with
    | nil => exact getBits_ok_source (s := s.srcSkip 1) h
    | cons b' data =>
      rw [decodeBytes_cons_cons] at h
      cases hu : getBits (byteBits 0 b) (s.srcSkip 1) with
      | error e => rw [hu] at h; cases h
      | ok u =>
        rw [hu] at h
        rw [ih h, getBits_ok_source hu, State.srcSkip_source, Source.skip_skip, Nat.add_comm]
        rfl

/-- A segment decoded to its end has been read with its trailer. -/
theorem decodeSegment_ok_source {trailer : Byte} {data : List Byte} {s t : State} (h : decodeSegment trailer data s = .ok t) :
    t.source = s.source.skip (data.length + 1) := by
  rw [decodeSegment_eq] at h
  cases hu : decodeBytes trailer data (s.mapScratch (Scratch.openSegment (data.length + 1) trailer)) with
  | error e => rw [hu] at h; cases h
  | ok u =>
    rw [hu] at h
    have hclose : t = u.srcSkip 1 := by
      have h' : closeSegment u = .ok t := h
      unfold closeSegment at h'
      split at h' <;> cases h'
      rfl
    rw [hclose, State.srcSkip_source, decodeBytes_ok_source hu, State.mapScratch_source, Source.skip_skip]

end Sys2Proof.Machine
end

section
/-! PROOFS. DECODE by the framing of its source and by the parse of the segment's valid bits (spec/44_bitstream_decoder.md R190 to R203). -/

namespace Sys2Proof.Proofs

open Sys2Proof.Machine Sys2Proof.Safety

/-- A command that runs to its last line ends as `finish` leaves the state. -/
theorem exec_of_run_ok {i : Instr} {s u : State} (h : runOf i s = .ok u) : exec i s = .next u.finish := by
  rw [exec_eq_complete, h]
  rfl

/-- DECODE of a source with nothing unread (R192). -/
theorem exec_decode_of_nil {s : State} (hr : s.source.readable = true) (ha : s.sink.available = true) (hu : s.source.unread = []) :
    ∃ t, exec .decode s = .next t ∧ EndsWith .noTrailer t :=
  exec_of_run_error (decodeRun_of_nil (checkStreams_of_usable .decode hr ha) hu)

/-- DECODE of a segment whose trailer may not stand (R192). -/
theorem exec_decode_of_trailerBad {s : State} {data : List Byte} {trailer : Byte} (hr : s.source.readable = true)
    (ha : s.sink.available = true) (hu : s.source.unread = data ++ [trailer]) (hbad : TrailerBad trailer data) :
    ∃ t, exec .decode s = .next t ∧ EndsWith .badTrailer t :=
  exec_of_run_error ((decodeRun_of_trailer (checkStreams_of_usable .decode hr ha) hu).1 hbad)

theorem not_trailerBad {trailer : Byte} {data : List Byte} (h7 : trailer.toNat ≤ 7) (hdata : trailer ≠ 0 → data ≠ []) :
    ¬ TrailerBad trailer data := by
  rintro (hlt | ⟨hne, hnil⟩)
  · exact absurd hlt (not_lt.mpr h7)
  · exact hdata hne hnil

/-- DECODE of a well-framed segment ends as the parse of its valid bits does: OK with the bytes of the parse sent and the source at its
end, or with the cause of the parse. -/
theorem exec_decode_cases {s : State} {data : List Byte} {trailer : Byte} (hr : s.source.readable = true)
    (ha : s.sink.available = true) (hu : s.source.unread = data ++ [trailer]) (hgood : ¬ TrailerBad trailer data) :
    (∃ out t, parseBits s.store [] (segmentBits trailer data) = .ok out ∧ exec .decode s = .next t ∧ EndsOk t
        ∧ t.sink.bytes = s.sink.bytes ++ out ∧ t.source.unread = [])
      ∨ ∃ c t, parseBits s.store [] (segmentBits trailer data) = .error c ∧ exec .decode s = .next t ∧ EndsWith c t := by
  have hrun : runOf .decode s = decodeSegment trailer data (trailerState trailer s) :=
    (decodeRun_of_trailer (checkStreams_of_usable .decode hr ha) hu).2 hgood
  rcases decodeSegment_cases trailer data (trailerState trailer s) with ⟨out, u, hparse, hok, hsink⟩ | ⟨c, u, hparse, herror⟩
  · refine .inl ⟨out, u.finish, hparse, exec_of_run_ok (hrun.trans hok), ⟨rfl, rfl, rfl⟩, hsink, ?_⟩
    have hend : data.length + 1 = s.source.unread.length := by rw [hu, List.length_append, List.length_singleton]
    have hsource : u.source = s.source.skip (data.length + 1) := by simpa [trailerState] using decodeSegment_ok_source hok
    rw [State.finish_source, hsource, hend, unread_skip_length]
  · obtain ⟨t, ht, hends⟩ := exec_of_run_error (hrun.trans herror)
    exact .inr ⟨c, t, hparse, ht, hends⟩

end Sys2Proof.Proofs
end

section
/-! PROOFS. The obligations of the family 44_bitstream_decoder on one DECODE. -/

namespace Sys2Proof.Proofs

open Sys2Proof.Machine Sys2Proof.Safety

/-- Settles O52: an empty source has no trailer, and the trailer is tested before the data. -/
theorem decodeChecksTheFraming : Obligations.DecodeChecksTheFraming := by
  unfold Obligations.DecodeChecksTheFraming
  intro s hr ha
  exact ⟨exec_decode_of_nil hr ha, fun data trailer hu h7 => exec_decode_of_trailerBad hr ha hu (.inl h7),
    fun trailer hu hne => exec_decode_of_trailerBad (data := []) hr ha hu (.inr ⟨hne, rfl⟩)⟩

/-- Settles O53: DECODE follows the parse bit by bit. -/
theorem decodeEmitsTheParsedBytes : Obligations.DecodeEmitsTheParsedBytes := by
  unfold Obligations.DecodeEmitsTheParsedBytes
  intro s data trailer out hr ha hu h7 hdata hparse
  rcases exec_decode_cases hr ha hu (not_trailerBad h7 hdata) with ⟨out', t, hparse', h⟩ | ⟨c, t, hparse', -⟩
  · rw [hparse] at hparse'
    cases hparse'
    exact ⟨t, h⟩
  · rw [hparse] at hparse'
    cases hparse'

/-- Settles O54: where the parse fails, DECODE has followed it to its cause. -/
theorem decodeFaultsAsTheParse : Obligations.DecodeFaultsAsTheParse := by
  unfold Obligations.DecodeFaultsAsTheParse
  intro s data trailer c hr ha hu h7 hdata hparse
  refine ⟨parseBits_error_cause hparse, ?_⟩
  rcases exec_decode_cases hr ha hu (not_trailerBad h7 hdata) with ⟨out, t, hparse', -⟩ | ⟨c', t, hparse', h⟩
  · rw [hparse] at hparse'
    cases hparse'
  · rw [hparse] at hparse'
    cases hparse'
    exact ⟨t, h⟩

/-- Settles O55: both have the bit read first at bit 0. -/
theorem reversalGivesTheStoredOrder : Obligations.ReversalGivesTheStoredOrder := by
  unfold Obligations.ReversalGivesTheStoredOrder
  exact fun bits h => rev_shiftedIn h

end Sys2Proof.Proofs
end

section
/-! PROOFS. A table that can be decoded: the code bits of an input parse to the input (spec/41_tree_builder.md R150,
43_bitstream_encoder.md R174, 44_bitstream_decoder.md R196, R201). -/

namespace Sys2Proof.Machine

open Sys2Proof.Safety

theorem Store.mem_leaves {st : Store} {i : NodeId} : i ∈ st.leaves ↔ i ∈ st.scan ∧ (st.nodeAt i).isLeaf = true := List.mem_filter

/-- A value found is that of a leaf (R161). -/
theorem Store.leaf_of_lookupValue {st : Store} {v : Byte} {i : NodeId} (h : st.lookupValue v = some i) :
    i ∈ st.leaves ∧ (st.nodeAt i).value = v := by
  have hmatch := List.find?_some h
  rw [Bool.and_eq_true, beq_iff_eq] at hmatch
  exact ⟨Store.mem_leaves.mpr ⟨List.mem_of_find?_eq_some h, hmatch.1⟩, hmatch.2⟩

/-- A value that a leaf has is found (R161). -/
theorem Store.exists_lookupValue {st : Store} {i : NodeId} (hi : i ∈ st.leaves) : ∃ j, st.lookupValue (st.nodeAt i).value = some j := by
  obtain ⟨hscan, hleaf⟩ := Store.mem_leaves.mp hi
  refine Option.isSome_iff_exists.mp (List.find?_isSome.mpr ⟨i, hscan, ?_⟩)
  rw [Bool.and_eq_true, beq_iff_eq]
  exact ⟨hleaf, rfl⟩

/-- In a table that can be decoded the value of every leaf can be sent. -/
theorem encodable_of_mem_leaves {st : Store} (h : PrefixCode st) {i : NodeId} (hi : i ∈ st.leaves) :
    Encodable st (st.nodeAt i).value := by
  obtain ⟨hcode, -, -⟩ := h
  obtain ⟨j, hj⟩ := Store.exists_lookupValue hi
  obtain ⟨hlow, hhigh, -⟩ := hcode j (Store.leaf_of_lookupValue hj).1
  exact ⟨j, hj, hlow, hhigh⟩

/-- A code found by its bits is that of a leaf with these bits (R162). -/
theorem Store.leaf_of_lookupCode {st : Store} {bits : List Bool} {v : Byte} (hlen : bits.length ≤ 32)
    (h : st.lookupCode (codeWord bits) bits.length = some v) :
    ∃ i ∈ st.leaves, (st.nodeAt i).codeBits = bits ∧ (st.nodeAt i).value = v := by
  obtain ⟨i, hi, hvalue⟩ := Option.map_eq_some_iff.mp h
  have hmatch := List.find?_some hi
  simp only [Bool.and_eq_true, beq_iff_eq] at hmatch
  obtain ⟨⟨hleaf, hcode⟩, hcodeLength⟩ := hmatch
  refine ⟨i, Store.mem_leaves.mpr ⟨List.mem_of_find?_eq_some hi, hleaf⟩, ?_, hvalue⟩
  rw [Node.codeBits, hcode, hcodeLength]
  refine List.ext_getElem (by simp) fun k hk hk' => ?_
  rw [List.getElem_map, List.getElem_range, getLsbD_codeWord _ (by omega), List.getD_eq_getElem _ _ hk']

/-- The bits of a leaf's code are found, if no bit of the code is set above its length (R162, R163). -/
theorem Store.lookupCode_codeBits_ne_none {st : Store} {i : NodeId} (hi : i ∈ st.leaves) (hfits : (st.nodeAt i).CodeFits) :
    st.lookupCode (codeWord (st.nodeAt i).codeBits) (st.nodeAt i).codeBits.length ≠ none := by
  obtain ⟨hscan, hleaf⟩ := Store.mem_leaves.mp hi
  rw [Node.codeWord_codeBits hfits, Node.length_codeBits, Store.lookupCode, ne_eq, Option.map_eq_none_iff, List.find?_eq_none]
  exact fun hnone => hnone i hscan (by simp [Store.isLeaf, hleaf])

/-- The bits that are left of a leaf's code, then others, parse to the leaf's value and the parse of the others: no shorter sequence
matches, because it would begin the leaf's. -/
theorem parseBits_codeBits {st : Store} (h : PrefixCode st) {i : NodeId} (hi : i ∈ st.leaves) {pre bits rest : List Bool}
    (hbits : (st.nodeAt i).codeBits = pre ++ bits) (hne : bits ≠ []) :
    parseBits st pre (bits ++ rest) = (parseBits st [] rest).map ((st.nodeAt i).value :: ·) := by
  obtain ⟨hcode, -, hprefix⟩ := h
  obtain ⟨-, hhigh, hfits⟩ := hcode i hi
  induction bits generalizing pre with
  | nil => exact absurd rfl hne
  | cons β bits ih =>
    have hsplit : (st.nodeAt i).codeBits = (pre ++ [β]) ++ bits := by rw [hbits, List.append_cons]
    have hlen : (pre ++ [β]).length ≤ 32 := by
      have := congrArg List.length hsplit
      rw [Node.length_codeBits, List.length_append] at this
      omega
    obtain ⟨hnone, hsome⟩ := parseBits_cons (st := st) (bits ++ rest) hlen
    have hfound : ∀ {v}, st.lookupCode (codeWord (pre ++ [β])) (pre ++ [β]).length = some v →
        (st.nodeAt i).codeBits = pre ++ [β] ∧ (st.nodeAt i).value = v := fun {v} hv => by
      obtain ⟨j, hj, hjbits, hjvalue⟩ := Store.leaf_of_lookupCode hlen hv
      obtain rfl := hprefix j hj i hi (by rw [hjbits, hsplit]; exact List.prefix_append _ _)
      exact ⟨hjbits, hjvalue⟩
    cases hv : st.lookupCode (codeWord (pre ++ [β])) (pre ++ [β]).length with
    | some v =>
      obtain ⟨hall, rfl⟩ := hfound hv
      obtain rfl : bits = [] := List.append_right_eq_self.mp (hsplit.symm.trans hall)
      exact hsome _ hv
    | none =>
      have hopen : bits ≠ [] := fun hnil => by
        have hmatch := Store.lookupCode_codeBits_ne_none hi hfits
        rw [hsplit, hnil, List.append_nil] at hmatch
        exact hmatch hv
      exact (hnone hv).trans (ih hsplit hopen)

/-- The code bits of an encodable input parse to the input (R201). -/
theorem parseBits_inputBits {st : Store} (h : PrefixCode st) {input : List Byte} (hinput : ∀ v ∈ input, Encodable st v) :
    parseBits st [] (inputBits st input) = .ok input := by
  induction input with
  | nil => rfl
  | cons v input ih =>
    obtain ⟨i, hi, hlow, -⟩ := hinput v List.mem_cons_self
    obtain ⟨hleaf, hvalue⟩ := Store.leaf_of_lookupValue hi
    have hbits : valueBits st v = (st.nodeAt i).codeBits := by
      rw [valueBits, hi]
    have hne : (st.nodeAt i).codeBits ≠ [] := List.ne_nil_of_length_pos (by rw [Node.length_codeBits]; omega)
    rw [inputBits, List.flatMap_cons, hbits, parseBits_codeBits h hleaf (List.nil_append _).symm hne, ← inputBits,
      ih fun u hu => hinput u (List.mem_cons_of_mem v hu), hvalue]
    rfl

/-- After a BUILD that ended OK every byte of its input has a leaf (40_frequency_table.md R124). -/
theorem buildRun_ok_leaf {s t : State} (h : buildRun s = .ok t) {v : Byte} (hv : v ∈ s.source.unread) :
    ∃ i ∈ t.store.leaves, (t.store.nodeAt i).value = v := by
  obtain ⟨-, hgrown, -, -⟩ := buildRun_ok h
  obtain ⟨k, hk, rfl⟩ := List.mem_iff_getElem.mp (mem_seenValues.mpr hv)
  have hlen := length_inputLeaves s.source.unread
  have hseen : (inputLeaves s.source.unread).length = (seenValues s.source.unread).length := by simp [inputLeaves]
  have hcount := hgrown.count_eq
  have hlt := t.store.count.isLt
  have hval : (nodeId k).val = k := nodeId_val (by omega)
  obtain ⟨_, hleaf, hvalue, -⟩ := hgrown.leaf_slot (i := nodeId k) (by omega)
  refine ⟨nodeId k, Store.mem_leaves.mpr ⟨hgrown.mem_scan (by omega), hleaf⟩, ?_⟩
  simp only [hvalue, hval]

end Sys2Proof.Machine
end

section
/-! PROOFS. The table through PERSIST and LOAD: what is kept of a store is its leaves' values and codes, in collection order, and
`LookupCode` reads nothing else (spec/30_encoding.md R101, 45_tree_codec.md R210 to R226). -/

namespace Sys2Proof.Machine

open Sys2Proof.Safety

/-- The fields of a node that a record holds (R101). -/
def Node.entry (n : Node) : Byte × Word × BitVec 8 := (n.value, n.code, n.codeLength)

/-- The records of a store's leaves, in collection order (R212). -/
def Store.entries (st : Store) : List (Byte × Word × BitVec 8) := st.leaves.map fun i => (st.nodeAt i).entry

theorem Store.tableSegment_eq (st : Store) : tableSegment st = recordSegment st.entries := by
  rw [tableSegment, recordSegment, Store.entries, List.length_map, List.flatMap_map]
  rfl

/-- `LookupCode` is a search of the records (R162, R226). -/
theorem Store.lookupCode_eq_entries (st : Store) (c : Word) (n : Nat) :
    st.lookupCode c n = (st.entries.find? fun r => r.2.1 == c && r.2.2.toNat == n).map Prod.fst := by
  rw [Store.lookupCode, Store.entries, Store.leaves, List.find?_map, List.find?_filter, Option.map_map]
  simp only [Bool.and_assoc, Bool.decide_and, Bool.decide_eq_true]
  rfl

theorem Store.length_entries_le (st : Store) : st.entries.length ≤ 511 := by
  have hle := List.length_filter_le st.isLeaf st.scan
  have hlt := st.count.isLt
  rw [Store.scan, Store.length_scanFrom] at hle
  rw [Store.entries, List.length_map, Store.leaves, Store.scan]
  omega

/-- The records of a store that lists leaves are the leaves in order. -/
theorem Store.Lists.entries {ns : List Node} {st : Store} (h : st.Lists ns) (hc : st.count.val = ns.length)
    (hleaf : ∀ n ∈ ns, n.isLeaf = true) : st.entries = ns.map Node.entry := by
  have hlt := st.count.isLt
  have hscan : st.scan = (List.range ns.length).map nodeId := by
    rw [Store.scan_eq, hc]
    exact List.map_congr_left fun k hk => h.poolAt (List.mem_range.mp hk)
  have hleaves : st.leaves = st.scan := by
    refine List.filter_eq_self.mpr fun i hi => ?_
    rw [hscan] at hi
    obtain ⟨k, hk, rfl⟩ := List.mem_map.mp hi
    have hk := List.mem_range.mp hk
    exact h.isLeaf hc hleaf (by rw [nodeId_val (by omega)]; omega)
  rw [Store.entries, hleaves, hscan]
  refine List.ext_getElem (by simp) fun k hk hk' => ?_
  simp only [List.getElem_map, List.getElem_range]
  rw [h.nodeAt (by omega) (by simpa using hk')]

theorem Node.entry_recordLeaf (r : Byte × Word × BitVec 8) : (recordLeaf r).entry = r := rfl

/-! ### LOAD of records -/

/-- The bytes of a 32-bit integer read back (R74). -/
theorem word32_le32 (w : Word) :
    word32 (w.extractLsb' 0 8) (w.extractLsb' 8 8) (w.extractLsb' 16 8) (w.extractLsb' 24 8) = w := by
  have h16 : w.extractLsb' 24 8 ++ w.extractLsb' 16 8 = w.extractLsb' 16 16 :=
    BitVec.extractLsb'_append_extractLsb'_eq_extractLsb' rfl
  have h8 : w.extractLsb' 16 16 ++ w.extractLsb' 8 8 = w.extractLsb' 8 24 :=
    BitVec.extractLsb'_append_extractLsb'_eq_extractLsb' rfl
  have h0 : w.extractLsb' 8 24 ++ w.extractLsb' 0 8 = w.extractLsb' 0 32 :=
    BitVec.extractLsb'_append_extractLsb'_eq_extractLsb' rfl
  rw [word32, h16, h8, h0, BitVec.extractLsb'_eq_self]

theorem length_flatMap_recordBytes (rs : List (Byte × Word × BitVec 8)) : (rs.flatMap recordBytes).length = 6 * rs.length := by
  rw [List.length_flatMap]
  simp [recordBytes, le32, Nat.mul_comm]

theorem length_recordSegment (rs : List (Byte × Word × BitVec 8)) : (recordSegment rs).length = 4 + 6 * rs.length := by
  rw [recordSegment, List.length_append, length_flatMap_recordBytes]
  rfl

/-- Records read from their bytes are listed behind the nodes that stand, as leaves; the source is read on by their bytes (R222). -/
theorem loadRecords_recordBytes {rs : List (Byte × Word × BitVec 8)} {ns : List Node} {rest : List Byte} {s : State}
    (hs : s.store.Lists ns) :
    ∃ st, st.Lists (ns ++ rs.map recordLeaf)
      ∧ loadRecords rs.length ns.length (rs.flatMap recordBytes ++ rest) s
        = { s with store := st, source := s.source.skip (6 * rs.length) } := by
  induction rs generalizing ns s with
  | nil => exact ⟨s.store, by rwa [List.map_nil, List.append_nil], rfl⟩
  | cons r rs ih =>
    obtain ⟨v, c, l⟩ := r
    have hs₁ := hs.putRecord v c l
    obtain ⟨st, hst, heq⟩ := ih (s := (s.srcSkip Config.recBytes).mapStore (Store.putRecord ns.length v c l)) hs₁
    refine ⟨st, by rwa [List.map_cons, List.append_cons], ?_⟩
    have hstep : loadRecords ((v, c, l) :: rs).length ns.length (((v, c, l) :: rs).flatMap recordBytes ++ rest) s
        = loadRecords rs.length (ns.length + 1) (rs.flatMap recordBytes ++ rest)
          ((s.srcSkip Config.recBytes).mapStore (Store.putRecord ns.length v c l)) := by
      conv_rhs => rw [← word32_le32 c]
      rfl
    rw [List.length_append, List.length_singleton] at heq
    rw [hstep, heq, List.length_cons, show 6 * (rs.length + 1) = 6 + 6 * rs.length by omega, ← Source.skip_skip]
    rfl

/-- LOAD of the code table segment of at most 511 records: the records stand in the store, the source at the first byte behind the
segment, the sink as it was (R220 to R225). -/
theorem loadRun_recordSegment {rs : List (Byte × Word × BitVec 8)} {rest : List Byte} {s : State} (hr : s.source.readable = true)
    (hlen : rs.length ≤ 511) (hu : s.source.unread = recordSegment rs ++ rest) :
    ∃ t, loadRun s = .ok t ∧ t.store.entries = rs ∧ t.source = s.source.skip (4 + 6 * rs.length) ∧ t.sink = s.sink := by
  have hcheck : checkStreams .load s = .ok s := by simp [checkStreams, hr, usesSink]
  have hnrec : (BitVec.ofNat 32 rs.length).toNat = rs.length := by
    rw [BitVec.toNat_ofNat]
    omega
  have hrun : loadRun s = loadBody (rs.flatMap recordBytes ++ rest) (loadState (BitVec.ofNat 32 rs.length) s) := by
    rw [recordSegment, List.append_assoc] at hu
    rw [loadRun_of_count (records := rs.flatMap recordBytes ++ rest) hcheck hu, word32_le32]
  have hbytes : 6 * rs.length ≤ (rs.flatMap recordBytes ++ rest).length := by
    rw [List.length_append, length_flatMap_recordBytes]
    omega
  have hcount : (loadState (BitVec.ofNat 32 rs.length) s).scratch.nrec.toNat = rs.length := hnrec
  obtain ⟨st, hst, heq⟩ := loadRecords_recordBytes (rs := rs) (ns := []) (rest := rest)
    (s := loadState (BitVec.ofNat 32 rs.length) s) (Store.lists_nil rfl rfl)
  rcases loadBody_cases (rs.flatMap recordBytes ++ rest) (loadState (BitVec.ofNat 32 rs.length) s) with
    ⟨hbig, -⟩ | ⟨-, hshort, -⟩ | ⟨-, -, hok⟩
  · omega
  · omega
  · rw [hcount] at hok
    rw [List.length_nil] at heq
    rw [List.nil_append] at hst
    refine ⟨_, hrun.trans hok, ?_, ?_, ?_⟩
    · rw [State.mapStore_store, heq]
      have hlists : (Store.closeTable rs.length st).Lists (rs.map recordLeaf) := ⟨hst.node, hst.pool⟩
      have hc : (Store.closeTable rs.length st).count.val = (rs.map recordLeaf).length := by
        rw [List.length_map]
        exact Nat.mod_eq_of_lt (by omega)
      rw [hlists.entries hc (List.forall_mem_map.mpr fun _ _ => rfl), List.map_map]
      exact List.map_id _
    · rw [State.mapStore_source, heq, ← Source.skip_skip]
      rfl
    · rw [State.mapStore_sink, heq]
      rfl

end Sys2Proof.Machine
end

section
/-! PROOFS. The commands of a round trip, one after the other (spec/30_encoding.md R108, R116, 44_bitstream_decoder.md R201). -/

namespace Sys2Proof.Proofs

open Sys2Proof.Machine Sys2Proof.Safety

/-- DECODE of the data segment of bits that parse (R105, R190). -/
theorem exec_decode_of_dataSegment {s : State} {bits : List Bool} {out : List Byte} (hr : s.source.readable = true)
    (ha : s.sink.available = true) (hu : s.source.unread = dataSegment bits) (hparse : parseBits s.store [] bits = .ok out) :
    ∃ t, exec .decode s = .next t ∧ EndsOk t ∧ t.sink.bytes = s.sink.bytes ++ out := by
  obtain ⟨data, trailer, hsegment, htrailer, hdata, hbits⟩ := segmentUnpacksToItsBits bits
  obtain ⟨t, ht, hok, hsink, -⟩ := decodeEmitsTheParsedBytes s data trailer out hr ha (hu.trans hsegment) (by omega) hdata
    (by rw [hbits, hparse])
  exact ⟨t, ht, hok, hsink⟩

/-- The table of a BUILD that ended OK can be decoded, and every byte of the input can be sent with it (R150). -/
theorem prefixCode_and_encodable_of_build {s b : State} (h : exec .build s = .next b) (hok : b.kind = .ok) :
    PrefixCode b.store ∧ ∀ v ∈ s.source.unread, Encodable b.store v := by
  have hprefix := builtCodesArePrefixFree s b h hok
  obtain ⟨u, hu, hstore⟩ := buildRun_of_exec_ok h hok
  refine ⟨hprefix, fun v hv => ?_⟩
  obtain ⟨i, hi, rfl⟩ := buildRun_ok_leaf hu hv
  rw [← hstore] at hi ⊢
  exact encodable_of_mem_leaves hprefix hi

/-- PERSIST on an available sink appends the table's segment (R210). -/
theorem exec_persist_of_available {s : State} (ha : s.sink.available = true) :
    ∃ t, exec .persist s = .next t ∧ t.kind = .ok ∧ t.store = s.store
      ∧ t.sink = { s.sink with bytes := s.sink.bytes ++ tableSegment s.store } := by
  have hcheck : checkStreams .persist s = .ok s := by simp [checkStreams, ha, usesSource]
  exact ⟨_, exec_of_run_ok (persistRun_eq hcheck), rfl, rfl, rfl⟩

/-- LOAD of a store's table segment: a table that answers `LookupCode` as the store does, the source behind the segment (R220, R226). -/
theorem exec_load_of_tableSegment {st : Store} {rest : List Byte} {s : State} (hr : s.source.readable = true)
    (hu : s.source.unread = tableSegment st ++ rest) :
    ∃ t, exec .load s = .next t ∧ t.kind = .ok ∧ (∀ c n, t.store.lookupCode c n = st.lookupCode c n)
      ∧ t.source.readable = true ∧ t.source.unread = rest ∧ t.sink = s.sink := by
  rw [Store.tableSegment_eq] at hu
  obtain ⟨u, hrun, hentries, hsource, hsink⟩ := loadRun_recordSegment hr st.length_entries_le hu
  refine ⟨u.finish, exec_of_run_ok hrun, rfl, fun c n => ?_, ?_, ?_, hsink⟩
  · rw [State.finish_store, Store.lookupCode_eq_entries, Store.lookupCode_eq_entries, hentries]
  · rw [State.finish_source, hsource, Source.skip_readable, hr]
  · rw [State.finish_source, hsource, Source.unread, Source.skip_bytes, Source.skip_pos, ← List.drop_drop, ← Source.unread, hu,
      ← length_recordSegment, List.drop_left]

theorem runOk_of_exec {i : Instr} {s t : State} (h : exec i s = .next t) (hok : t.kind = .ok) : runOk i s = some t := by
  rw [runOk, h]
  exact if_pos hok

/-- COMPRESS of an input whose BUILD ends OK with store `st`: the table's segment, then that of the input's code bits (R108, R116). -/
theorem compress_of_build {s b : State} {input : List Byte} (h : exec .build (withStreams input s) = .next b) (hok : b.kind = .ok) :
    ∃ t, compress input s = some t ∧ t.sink.bytes = tableSegment b.store ++ dataSegment (inputBits b.store input) := by
  obtain ⟨-, hsinkSame, -⟩ := exec_streams h
  have hsink : b.sink = { available := true, bytes := [] } := hsinkSame rfl
  obtain ⟨p, hp, hpok, hpstore, hpsink⟩ := exec_persist_of_available (s := b) (by rw [hsink])
  obtain ⟨-, hencodable⟩ := prefixCode_and_encodable_of_build h hok
  obtain ⟨t, ht, ⟨htok, -, -⟩, htsink, -⟩ :=
    encodeWritesTheSegment { p with source := { readable := true, bytes := input, pos := 0 } } rfl (by simp [hpsink, hsink])
      (by rw [← hpstore] at hencodable; exact hencodable)
  refine ⟨t, ?_, ?_⟩
  · simp only [compress, runOk_of_exec h hok, runOk_of_exec hp hpok]
    exact runOk_of_exec ht htok
  · rw [htsink]
    simp only [hpsink, hsink, hpstore]
    rfl

/-- DECOMPRESS of a table's segment and the segment of bits that parse with the table (R108, R116). -/
theorem decompress_of_segments {st : Store} {bits : List Bool} {out : List Byte} (h : parseBits st [] bits = .ok out) (r : State) :
    ∃ u, decompress (tableSegment st ++ dataSegment bits) r = some u ∧ u.sink.bytes = out := by
  obtain ⟨t, ht, htok, hlookup, hreadable, hunread, hsink⟩ :=
    exec_load_of_tableSegment (st := st) (rest := dataSegment bits) (s := withStreams (tableSegment st ++ dataSegment bits) r) rfl rfl
  obtain ⟨u, hu, ⟨huok, -, -⟩, husink⟩ := exec_decode_of_dataSegment hreadable (by rw [hsink]; rfl) hunread
    ((parseBits_congr hlookup [] bits).trans h)
  refine ⟨u, ?_, ?_⟩
  · simp only [decompress, runOk_of_exec ht htok]
    exact runOk_of_exec hu huok
  · rw [husink, hsink]
    rfl

end Sys2Proof.Proofs
end

section
/-! PROOFS. The obligations of the family 44_bitstream_decoder on the round trips. -/

namespace Sys2Proof.Proofs

open Sys2Proof.Machine Sys2Proof.Safety

/-- Settles O58: ENCODE writes the segment of the code bits, which parse to the input. -/
theorem decodableTableRoundTrip : Obligations.DecodableTableRoundTrip := by
  unfold Obligations.DecodableTableRoundTrip
  intro s input hprefix hinput
  obtain ⟨t, ht, hok, hsink, -, hstore⟩ := encodeWritesTheSegment (withStreams input s) rfl rfl hinput
  have hparse : parseBits t.store [] (inputBits s.store input) = .ok input := by
    rw [hstore]
    exact parseBits_inputBits hprefix hinput
  obtain ⟨u, hu, huok, husink⟩ := exec_decode_of_dataSegment (s := withStreams t.sink.bytes t) rfl rfl hsink hparse
  exact ⟨t, u, ht, hok, hu, huok, husink⟩

/-- Settles O59: a built table can be decoded, and every byte of the input has a leaf in it. -/
theorem builtTreeRoundTrip : Obligations.BuiltTreeRoundTrip := by
  unfold Obligations.BuiltTreeRoundTrip
  intro s b input h hok
  obtain ⟨hprefix, hencodable⟩ := prefixCode_and_encodable_of_build h hok
  exact decodableTableRoundTrip b input hprefix hencodable

/-- Settles O60: the restored table answers `LookupCode` as the built one does, and the code bits parse with it to the input. -/
theorem artifactRoundTrip : Obligations.ArtifactRoundTrip := by
  unfold Obligations.ArtifactRoundTrip
  intro s b r input h hok
  obtain ⟨hprefix, hencodable⟩ := prefixCode_and_encodable_of_build h hok
  obtain ⟨t, ht, hartifact⟩ := compress_of_build h hok
  obtain ⟨u, hu, hsink⟩ := decompress_of_segments (parseBits_inputBits hprefix hencodable) r
  refine ⟨t, u, ht, ?_, hsink⟩
  rw [hartifact]
  exact hu

end Sys2Proof.Proofs
end

section
/-! PROOFS. A table segment as a list of records, and LOAD read backwards: what the source and the store hold after a LOAD that ended OK
(spec/45_tree_codec.md R214, R220 to R226). -/

namespace Sys2Proof.Machine

open Sys2Proof.Safety

/-- `LookupValue` is a search of the records (R161, R226). -/
theorem Store.codeOf_eq_entries (st : Store) (v : Byte) :
    codeOf st v = (st.entries.find? fun r => r.1 == v).map Prod.snd := by
  rw [codeOf, Store.lookupValue, Store.entries, Store.leaves, List.find?_map, List.find?_filter, Option.map_map]
  simp only [Bool.decide_and, Bool.decide_eq_true]
  rfl

/-! ### Bytes as records -/

/-- A 32-bit integer written back as the bytes it was read from (R74). -/
theorem le32_word32 (b0 b1 b2 b3 : Byte) : le32 (word32 b0 b1 b2 b3) = [b0, b1, b2, b3] := by
  have skip (hi : BitVec 24) (k : Nat) : (hi ++ b0).extractLsb' (k + 8) 8 = hi.extractLsb' k 8 :=
    BitVec.extractLsb'_append_eq_of_le (Nat.le_add_left 8 k)
  have h0 : (word32 b0 b1 b2 b3).extractLsb' 0 8 = b0 := BitVec.extractLsb'_append_eq_right
  have h8 : (word32 b0 b1 b2 b3).extractLsb' 8 8 = b1 := (skip _ 0).trans BitVec.extractLsb'_append_eq_right
  have h16 : (word32 b0 b1 b2 b3).extractLsb' 16 8 = b2 :=
    (skip _ 8).trans ((BitVec.extractLsb'_append_eq_of_le (by decide)).trans BitVec.extractLsb'_append_eq_right)
  have h24 : (word32 b0 b1 b2 b3).extractLsb' 24 8 = b3 :=
    (skip _ 16).trans ((BitVec.extractLsb'_append_eq_of_le (by decide)).trans BitVec.extractLsb'_append_eq_left)
  rw [le32, h0, h8, h16, h24]

/-- Every six bytes are one record (R101). -/
theorem exists_flatMap_recordBytes {n : Nat} {bytes : List Byte} (h : 6 * n ≤ bytes.length) :
    ∃ (rs : List (Byte × Word × BitVec 8)) (rest : List Byte), rs.length = n ∧ bytes = rs.flatMap recordBytes ++ rest := by
  induction n generalizing bytes with
  | zero => exact ⟨[], bytes, rfl, rfl⟩
  | succ n ih =>
    match bytes, h with
    | v :: c0 :: c1 :: c2 :: c3 :: l :: bs, h =>
      obtain ⟨rs, rest, hlen, rfl⟩ := ih (bytes := bs) (by simp only [List.length_cons] at h; omega)
      refine ⟨(v, word32 c0 c1 c2 c3, l) :: rs, rest, by rw [List.length_cons, hlen], ?_⟩
      rw [List.flatMap_cons, recordBytes, le32_word32]
      rfl

/-- A record count in front of that many records is a table segment (R101). -/
theorem count_append_records {b0 b1 b2 b3 : Byte} {rs : List (Byte × Word × BitVec 8)} (h : rs.length = (word32 b0 b1 b2 b3).toNat)
    (rest : List Byte) : b0 :: b1 :: b2 :: b3 :: (rs.flatMap recordBytes ++ rest) = recordSegment rs ++ rest := by
  rw [recordSegment, h, BitVec.ofNat_toNat, BitVec.setWidth_eq, le32_word32]
  rfl

/-! ### The store LOAD makes -/

/-- The store holds the leaves of these records and nothing else, as LOAD leaves it (R222, R223). -/
structure Store.Holds (rs : List (Byte × Word × BitVec 8)) (st : Store) : Prop where
  lists : st.Lists (rs.map recordLeaf)
  count : st.count.val = rs.length
  root : st.root = none
  byteCount : st.byteCount = 0
  maxFreq : st.maxFreq = 0

theorem Store.Holds.entries {rs : List (Byte × Word × BitVec 8)} {st : Store} (h : st.Holds rs) : st.entries = rs := by
  rw [h.lists.entries (by rw [List.length_map, h.count]) (List.forall_mem_map.mpr fun _ _ => rfl), List.map_map]
  exact List.map_id _

/-- Record `k` is the leaf at slot `k` and at position `k` (R222). -/
theorem Store.Holds.leafAt {rs : List (Byte × Word × BitVec 8)} {st : Store} (h : st.Holds rs) {k : Nat} (hk : k < rs.length) :
    st.nodeAt (nodeId k) = recordLeaf rs[k] ∧ st.poolAt k = nodeId k := by
  have hlt := st.count.isLt
  have hcount := h.count
  have hk' : k < (rs.map recordLeaf).length := by rwa [List.length_map]
  refine ⟨?_, h.lists.poolAt hk'⟩
  rw [h.lists.nodeAt (by rw [List.length_map]; omega) hk', List.getElem_map]

/-- A LOAD that ended OK has read a table segment of at most 511 records, and the store holds their leaves. -/
theorem loadRun_ok_holds {s t : State} (h : loadRun s = .ok t) :
    ∃ rs rest, rs.length ≤ 511 ∧ s.source.unread = recordSegment rs ++ rest ∧ t.store.Holds rs := by
  rcases checkStreams_error_or_ok .load s with ⟨c, hc⟩ | hc
  · have he := runOf_of_check_error hc
    rw [runOf, h] at he
    cases he
  rcases Nat.lt_or_ge s.source.unread.length 4 with hlen | hlen
  · rw [loadRun_of_short hc hlen] at h
    cases h
  obtain ⟨b0, b1, b2, b3, records, hu⟩ := count_of_four_le hlen
  rw [loadRun_of_count hc hu] at h
  rcases loadBody_cases records (loadState (word32 b0 b1 b2 b3) s) with ⟨-, he⟩ | ⟨-, -, he⟩ | ⟨hn, hbytes, he⟩
  · rw [h] at he; cases he
  · rw [h] at he; cases he
  · obtain ⟨rs, rest, hrs, rfl⟩ := exists_flatMap_recordBytes hbytes
    obtain ⟨st, hst, heq⟩ := loadRecords_recordBytes (rs := rs) (ns := []) (rest := rest)
      (s := loadState (word32 b0 b1 b2 b3) s) (Store.lists_nil rfl rfl)
    rw [h, ← hrs, ← List.length_nil (α := Node), heq] at he
    cases he
    refine ⟨rs, rest, by omega, hu.trans (count_append_records hrs rest), ⟨hst.node, hst.pool⟩, ?_, rfl, rfl, rfl⟩
    exact Nat.mod_eq_of_lt (by omega)

theorem loadRun_of_exec_ok {s t : State} (h : exec .load s = .next t) (hok : t.kind = .ok) :
    ∃ u, loadRun s = .ok u ∧ t.store = u.store := by
  rcases exec_cases h with ⟨u, hu, rfl⟩ | ⟨c, u, -, rfl⟩
  · exact ⟨u, hu, rfl⟩
  · cases c <;> cases hok

/-! ### LOAD by what the source holds -/

theorem checkStreams_load {s : State} (hr : s.source.readable = true) : checkStreams .load s = .ok s := by
  simp [checkStreams, hr, usesSink]

/-- LOAD of a table segment of at most 511 records (R220 to R225). -/
theorem loadRun_recordSegment_holds {rs : List (Byte × Word × BitVec 8)} {rest : List Byte} {s : State} (hr : s.source.readable = true)
    (hlen : rs.length ≤ 511) (hu : s.source.unread = recordSegment rs ++ rest) :
    ∃ t, loadRun s = .ok t ∧ t.store.Holds rs ∧ t.source = s.source.skip (4 + 6 * rs.length) := by
  obtain ⟨t, hrun, hentries, hsource, -⟩ := loadRun_recordSegment hr hlen hu
  obtain ⟨rs', rest', -, -, hholds⟩ := loadRun_ok_holds hrun
  obtain rfl : rs' = rs := hholds.entries.symm.trans hentries
  exact ⟨t, hrun, hholds, hsource⟩

/-- The first bytes of a table segment with more behind it are the segment's own. -/
theorem take_recordSegment (rs : List (Byte × Word × BitVec 8)) (rest : List Byte) :
    (recordSegment rs ++ rest).take (4 + 6 * rs.length) = recordSegment rs := by
  rw [← length_recordSegment, List.take_left]

theorem drop_recordSegment (rs : List (Byte × Word × BitVec 8)) (rest : List Byte) :
    (recordSegment rs ++ rest).drop (4 + 6 * rs.length) = rest := by
  rw [← length_recordSegment, List.drop_left]

theorem Source.unread_skip (src : Source) (n : Nat) : (src.skip n).unread = src.unread.drop n := by
  rw [Source.unread, Source.skip_bytes, Source.skip_pos, ← List.drop_drop, ← Source.unread]

end Sys2Proof.Machine
end

section
/-! PROOFS. The obligations of the family 45_tree_codec. -/

namespace Sys2Proof.Proofs

open Sys2Proof.Machine Sys2Proof.Safety

/-- Settles O27: the lines of PERSIST end in one state, which gives the whole next state. -/
theorem persistWritesTheTable : Obligations.PersistWritesTheTable := by
  unfold Obligations.PersistWritesTheTable
  intro s
  constructor
  · intro hsink
    have hcheck : checkStreams .persist s = .error (.noSink, s) := by simp [checkStreams, usesSource, usesSink, hsink]
    obtain ⟨t, ht, hends⟩ := exec_of_run_error (runOf_of_check_error hcheck)
    exact ⟨t, ht, hends, exec_reader_store (by decide) ht⟩
  · intro hsink
    have hcheck : checkStreams .persist s = .ok s := by simp [checkStreams, usesSource, hsink]
    rw [exec_of_run_ok (i := .persist) (persistRun_eq hcheck), ← hsink]
    rfl

/-- PERSIST into a fresh sink leaves the table's segment in it (R210). -/
theorem exec_persist_withStreams (s : State) :
    ∃ t, exec .persist (withStreams [] s) = .next t ∧ EndsOk t ∧ t.sink.bytes = tableSegment s.store := by
  obtain ⟨-, hwrites⟩ := persistWritesTheTable (withStreams [] s)
  exact ⟨_, hwrites rfl, ⟨rfl, rfl, rfl⟩, rfl⟩

/-- Settles O28: the store after LOAD holds the records' leaves, and the segment is what was read. -/
theorem loadReadsTheTable : Obligations.LoadReadsTheTable := by
  unfold Obligations.LoadReadsTheTable
  intro s rs rest hr hlen hu
  obtain ⟨t, hrun, hholds, hsource⟩ := loadRun_recordSegment_holds hr hlen hu
  refine ⟨t.finish, exec_of_run_ok hrun, ⟨rfl, rfl, rfl⟩, hholds.count, fun k hk => hholds.leafAt hk, hholds.root, hholds.byteCount,
    hholds.maxFreq, ?_, ?_⟩
  · rw [State.finish_source, hsource, Source.unread_skip, hu, drop_recordSegment]
  · rw [State.finish_source, hsource, Source.skip_pos]

/-- Settles O29: each check fails in its own case, and bytes that pass them all are a table segment. -/
theorem loadRefusesBadTables : Obligations.LoadRefusesBadTables := by
  unfold Obligations.LoadRefusesBadTables
  intro s hr
  have hcheck := checkStreams_load hr
  refine ⟨fun hlen => exec_of_error_of_emptiesStore rfl (loadRun_of_short hcheck hlen), fun b0 b1 b2 b3 records hu => ?_⟩
  have hrun := loadRun_of_count hcheck hu
  have hcases := loadBody_cases records (loadState (word32 b0 b1 b2 b3) s)
  have hcount : (loadState (word32 b0 b1 b2 b3) s).scratch.nrec = word32 b0 b1 b2 b3 := rfl
  rw [hcount] at hcases
  refine ⟨fun hbig => ?_, fun hn hshort => ?_, fun hn hbytes => ?_⟩
  · rcases hcases with ⟨-, he⟩ | ⟨hle, -⟩ | ⟨hle, -⟩
    · exact exec_of_error_of_emptiesStore rfl (hrun.trans he)
    · omega
    · omega
  · rcases hcases with ⟨hgt, -⟩ | ⟨-, -, he⟩ | ⟨-, hge, -⟩
    · omega
    · exact exec_of_error_of_emptiesStore rfl (hrun.trans he)
    · omega
  · obtain ⟨rs, rest, hrs, rfl⟩ := exists_flatMap_recordBytes hbytes
    obtain ⟨t, hload, hholds, -⟩ := loadRun_recordSegment_holds hr (hrs.trans_le hn) (hu.trans (count_append_records hrs rest))
    exact ⟨t.finish, exec_of_run_ok hload, ⟨rfl, rfl, rfl⟩, hholds.count.trans hrs⟩

/-- Settles O30: the records of the loaded store are those of the segment read, and PERSIST writes their segment. -/
theorem persistAfterLoadReproduces : Obligations.PersistAfterLoadReproduces := by
  unfold Obligations.PersistAfterLoadReproduces
  intro s t h hok
  obtain ⟨u, hrun, hstore⟩ := loadRun_of_exec_ok h hok
  obtain ⟨rs, rest, -, hu, hholds⟩ := loadRun_ok_holds hrun
  rw [← hstore] at hholds
  obtain ⟨v, hv, hvok, hsink⟩ := exec_persist_withStreams t
  refine ⟨v, hv, hvok, ?_⟩
  rw [hsink, Store.tableSegment_eq, hholds.entries, hu, hholds.count, take_recordSegment]

/-- Settles O31: both lookups search the records, and the restored store has the records of the one persisted. -/
theorem restoredTableLooksUpAlike : Obligations.RestoredTableLooksUpAlike := by
  unfold Obligations.RestoredTableLooksUpAlike
  intro s
  obtain ⟨t, ht, hok, hsink⟩ := exec_persist_withStreams s
  obtain ⟨u, hrun, hentries, -, -⟩ := loadRun_recordSegment (rs := s.store.entries) (rest := []) (s := withStreams t.sink.bytes t) rfl
    s.store.length_entries_le (by rw [List.append_nil, ← Store.tableSegment_eq, ← hsink]; rfl)
  refine ⟨t, u.finish, ht, hok, exec_of_run_ok hrun, ⟨rfl, rfl, rfl⟩, fun v => ?_, fun c n => ?_⟩
  · rw [State.finish_store, Store.codeOf_eq_entries, Store.codeOf_eq_entries, hentries]
  · rw [State.finish_store, Store.lookupCode_eq_entries, Store.lookupCode_eq_entries, hentries]

end Sys2Proof.Proofs
end

section
/-! PROOFS. What a write to CMD does, by the state of the block and by the word written (spec/46_control.md R230, R231, R234). -/

namespace Sys2Proof.Proofs

open Sys2Proof.Machine

theorem step_write_cmd {s : State} {w : Byte} {ms : List HostMove} (h : s.host = .write 0 w :: ms) :
    step s = writeCmd w { s with host := ms } := by
  rw [step_cons h, hostMove, hostWrite, if_pos rfl]

/-! ### The three outcomes of a write to CMD -/

theorem writeCmd_of_busy {s : State} (hb : s.busy = true) (w : Byte) : writeCmd w s = .next s := by
  obtain ⟨-, hdropped⟩ | ⟨hidle, -⟩ := writeCmd_cases w s
  · exact hdropped
  · rw [hb] at hidle; cases hidle

theorem writeCmd_of_decode {s : State} {w : Byte} {i : Instr} (hb : s.busy = false) (hd : decode w = .ok i) :
    writeCmd w s = exec i s := by
  obtain ⟨hbusy, -⟩ | ⟨-, ⟨j, hj, hruns⟩ | ⟨e, he, -⟩⟩ := writeCmd_cases w s
  · rw [hb] at hbusy; cases hbusy
  · rw [hd] at hj; cases hj; exact hruns
  · rw [hd] at he; cases he

theorem writeCmd_of_reserved {s : State} {w : Byte} (hb : s.busy = false) (hd : ∀ i, decode w ≠ .ok i) :
    writeCmd w s = .next (illegalCommand s) := by
  obtain ⟨hbusy, -⟩ | ⟨-, ⟨i, hi, -⟩ | ⟨e, -, hrefused⟩⟩ := writeCmd_cases w s
  · rw [hb] at hbusy; cases hbusy
  · exact absurd hi (hd i)
  · exact hrefused

/-- A command's word written to CMD of an idle block is one run of the command, the move taken off (R230). -/
theorem step_of_command_written {s : State} {w : Byte} {ms : List HostMove} {i : Instr} (h : s.host = .write 0 w :: ms)
    (hb : s.busy = false) (hd : decode w = .ok i) : step s = exec i { s with host := ms } := by
  have hidle : State.busy { s with host := ms } = false := hb
  rw [step_write_cmd h, writeCmd_of_decode hidle hd]

/-- STATUS of a refused word: DETAIL 15 over KIND 6, BUSY 0 (R234). -/
theorem illegalCommand_status {s : State} (hb : s.busy = false) : (illegalCommand s).status = 0xF6 := by
  have hidle : (illegalCommand s).busy = false := hb
  rw [State.status, hidle, illegalCommand_kind, illegalCommand_detail]
  rfl

/-! ### A placed command word -/

/-- A byte is the command word of its own number. -/
theorem tableByte_toNat (w : Byte) : tableByte 8 w.toNat = w := by
  rw [tableByte, Nat.mod_eq_of_lt w.isLt, BitVec.ofNat_toNat, BitVec.setWidth_eq]

/-- The placed word is the host's next move, a write to CMD. -/
theorem withFetchWord_host (s : State) (w : Byte) : (s.withFetchWord 8 w.toNat).host = .write 0 w :: s.host := by
  rw [State.withFetchWord, tableByte_toNat, placeCommand]

theorem withFetchWord_busy (s : State) (nbits w : Nat) : (s.withFetchWord nbits w).busy = false := rfl

/-- With the placed move taken off, an idle block is as it was. -/
theorem withFetchWord_taken {s : State} (hs : s.phase = .idle) (nbits w : Nat) :
    { s.withFetchWord nbits w with host := s.host } = s := by
  rw [State.withFetchWord, placeCommand, ← hs]

end Sys2Proof.Proofs
end

section
/-! PROOFS. The obligations of the family 46_control. -/

namespace Sys2Proof.Proofs

open Sys2Proof.Machine Sys2Proof.Safety

/-- Settles O5: the write runs the command of the word, and the placed word is the encoder's, written to CMD of the idle block. -/
theorem stepRunsCommand : Obligations.StepRunsCommand := by
  unfold Obligations.StepRunsCommand
  refine ⟨fun s w ms i hhost hb hd => step_of_command_written hhost hb hd, fun s i hs => ?_⟩
  have hd : decode (encode i) = .ok i := (decode_eq_ok_iff _ i).mpr rfl
  rw [step_of_command_written (withFetchWord_host s (encode i)) (withFetchWord_busy s _ _) hd, withFetchWord_taken hs]

/-- Settles O6: a word with a reserved field selects no command, and is refused. -/
theorem reservedWordRefused : Obligations.ReservedWordRefused := by
  unfold Obligations.ReservedWordRefused
  intro s w ms hhost hb hreserved
  obtain ⟨-, -, hfields⟩ := decodeIsEncodeInverse
  have hidle : State.busy { s with host := ms } = false := hb
  have hrefused := writeCmd_of_reserved hidle ((hfields w).mpr hreserved)
  exact ⟨illegalCommand { s with host := ms }, (step_write_cmd hhost).trans hrefused, illegalCommand_status hidle, rfl⟩

/-- Settles O7: the write is taken off the host's moves and dropped. -/
theorem busyWriteDropped : Obligations.BusyWriteDropped := by
  unfold Obligations.BusyWriteDropped
  intro s w ms hhost hb
  have hbusy : State.busy { s with host := ms } = true := hb
  rw [step_write_cmd hhost, writeCmd_of_busy hbusy]

/-- Settles O26: RELEASE has no line that can fail, and its run writes nothing but the store. -/
theorem releaseEmptiesTheStore : Obligations.ReleaseEmptiesTheStore := by
  unfold Obligations.ReleaseEmptiesTheStore
  intro s
  have hrun : runOf .release s = .ok s.releaseStore := rfl
  exact ⟨_, exec_of_run_ok hrun, ⟨rfl, rfl, rfl, rfl⟩, ⟨rfl, rfl, rfl⟩, rfl⟩

end Sys2Proof.Proofs
end

section
/-! PROOFS. How a command ends: an OK ending or one cause, STATUS and the store after each, and the causes each command can be aborted
for (spec/60_exceptions.md R244 to R262). -/

namespace Sys2Proof.Proofs

open Sys2Proof.Machine Sys2Proof.Safety

/-! ### The error entry -/

theorem endsWith_raise (i : Instr) (c : Cause) (s₀ s : State) : EndsWith c (raise i c s₀ s) := ⟨rfl, rfl, rfl⟩

theorem endsOk_finish (s : State) : EndsOk s.finish := ⟨rfl, rfl, rfl⟩

theorem storeEmpty_release (st : Store) : StoreEmpty st.release := ⟨rfl, rfl, rfl, rfl⟩

theorem emptiesStore_iff (i : Instr) : emptiesStore i = true ↔ i = .build ∨ i = .load := by cases i <;> decide

/-- The error entry empties the store in BUILD and LOAD (R262). -/
theorem storeEmpty_raise {i : Instr} (hi : i = .build ∨ i = .load) (c : Cause) (s₀ s : State) :
    StoreEmpty (raise i c s₀ s).store := by
  rw [raise_store, if_pos ((emptiesStore_iff i).mpr hi)]
  exact storeEmpty_release s.store

/-- The error entry leaves the store in every other command (R262). -/
theorem raise_store_of_keeps {i : Instr} (hi : ¬ (i = .build ∨ i = .load)) (c : Cause) (s₀ s : State) :
    (raise i c s₀ s).store = s.store := by
  rw [raise_store, if_neg (mt (emptiesStore_iff i).mp hi)]

/-! ### STATUS after an ending -/

/-- STATUS of a cause: its detail over its kind, BUSY 0 (R244, R250). -/
theorem status_of_endsWith {c : Cause} {t : State} (h : EndsWith c t) : t.status = c.detail.bits ++ 0#1 ++ c.kind.bits := by
  obtain ⟨hkind, hdetail, hphase⟩ := h
  rw [State.status, State.busy, hkind, hdetail, hphase]
  rfl

theorem status_of_endsOk {t : State} (h : EndsOk t) : t.status = 0x00 := by
  obtain ⟨hkind, hdetail, hphase⟩ := h
  rw [State.status, State.busy, hkind, hdetail, hphase]
  rfl

/-! ### The causes of a command -/

/-- The causes command `i` can be aborted for (R257). -/
def causesOf : Instr → List Cause
  | .build => [.unreadable, .tooLong, .emptyInput, .codeOverflow, .rootMismatch, .countMismatch]
  | .persist => [.noSink]
  | .load => [.unreadable, .shortTable, .tableTooBig]
  | .encode => [.unreadable, .noSink, .badLength, .valueAbsent]
  | .decode => [.unreadable, .noSink, .badTrailer, .codeAbsent, .noTrailer, .partialCode]
  | .release => []

/-- A stream check fails only for a stream the command uses (R258). -/
theorem checkStreams_error_cause {i : Instr} {s u : State} {c : Cause} (h : checkStreams i s = .error (c, u)) : c ∈ causesOf i := by
  rcases checkStreams_cases i s with ⟨he, hi, -⟩ | ⟨he, hi, -⟩ | ⟨he, -⟩
  · rw [he] at h
    cases h
    revert hi
    cases i <;> decide
  · rw [he] at h
    cases h
    revert hi
    cases i <;> decide
  · rw [he] at h
    cases h

theorem loadRun_error_cause {s u : State} {c : Cause} (hc : checkStreams .load s = .ok s) (h : loadRun s = .error (c, u)) :
    c = .shortTable ∨ c = .tableTooBig := by
  rcases Nat.lt_or_ge s.source.unread.length 4 with hlen | hlen
  · rw [loadRun_of_short hc hlen] at h
    cases h
    exact .inl rfl
  · obtain ⟨b0, b1, b2, b3, records, hu⟩ := count_of_four_le hlen
    rw [loadRun_of_count hc hu] at h
    rcases loadBody_cases records (loadState (word32 b0 b1 b2 b3) s) with ⟨-, he⟩ | ⟨-, -, he⟩ | ⟨-, -, he⟩
    · rw [he] at h; cases h; exact .inr rfl
    · rw [he] at h; cases h; exact .inl rfl
    · rw [he] at h; cases h

theorem encodeByte_error_cause {v : Byte} {s u : State} {c : Cause} (h : encodeByte v s = .error (c, u)) :
    c = .valueAbsent ∨ c = .badLength := by
  rcases encodeByte_cases v s with ⟨he, -⟩ | ⟨i, -, ⟨he, -⟩ | ⟨he, -⟩⟩
  · rw [he] at h; cases h; exact .inl rfl
  · rw [he] at h; cases h; exact .inr rfl
  · rw [he] at h; cases h

theorem encodeBytes_error_cause {vs : List Byte} {s u : State} {c : Cause} (h : encodeBytes vs s = .error (c, u)) :
    c = .valueAbsent ∨ c = .badLength := by
  induction vs generalizing s with
  | nil => cases h
  | cons v vs ih =>
    rw [encodeBytes_cons] at h
    cases hv : encodeByte v (s.srcSkip 1) with
    | ok t => rw [hv] at h; exact ih h
    | error e =>
      rw [hv] at h
      cases h
      exact encodeByte_error_cause hv

theorem encodeRun_error_cause {s u : State} {c : Cause} (hc : checkStreams .encode s = .ok s) (h : encodeRun s = .error (c, u)) :
    c = .valueAbsent ∨ c = .badLength := by
  rw [encodeRun_eq hc] at h
  cases hbytes : encodeBytes s.source.unread ((s.setPhase .encode).mapScratch Scratch.resetAcc) with
  | ok t => rw [hbytes] at h; cases h
  | error e =>
    rw [hbytes] at h
    cases h
    exact encodeBytes_error_cause hbytes

/-- A well-framed segment faults as the parse of its bits does (R198, R200). -/
theorem decodeSegment_error_cause {trailer : Byte} {data : List Byte} {s u : State} {c : Cause}
    (h : decodeSegment trailer data s = .error (c, u)) : c = .codeAbsent ∨ c = .partialCode := by
  rcases decodeSegment_cases trailer data s with ⟨out, t, -, hok, -⟩ | ⟨c', t, hparse, he⟩
  · rw [hok] at h; cases h
  · rw [he] at h
    cases h
    exact parseBits_error_cause hparse

theorem decodeRun_error_cause {s u : State} {c : Cause} (hc : checkStreams .decode s = .ok s) (h : decodeRun s = .error (c, u)) :
    c = .noTrailer ∨ c = .badTrailer ∨ c = .codeAbsent ∨ c = .partialCode := by
  rcases List.eq_nil_or_concat s.source.unread with hu | ⟨data, trailer, hu⟩
  · rw [decodeRun_of_nil hc hu] at h
    cases h
    exact .inl rfl
  · rw [List.concat_eq_append] at hu
    obtain ⟨hbad, hgood⟩ := decodeRun_of_trailer hc hu
    by_cases ht : TrailerBad trailer data
    · rw [hbad ht] at h
      cases h
      exact .inr (.inl rfl)
    · rw [hgood ht] at h
      exact .inr (.inr (decodeSegment_error_cause h))

/-- A run is aborted only for a cause of its command (R257). -/
theorem runOf_error_cause {i : Instr} {s u : State} {c : Cause} (h : runOf i s = .error (c, u)) : c ∈ causesOf i := by
  rcases checkStreams_error_or_ok i s with ⟨c', hc⟩ | hc
  · rw [runOf_of_check_error hc] at h
    cases h
    exact checkStreams_error_cause hc
  · cases i with
    | build =>
      have hsub : [Cause.unreadable, .tooLong, .emptyInput, .codeOverflow] ⊆ causesOf .build := by decide
      exact hsub (buildRun_error_cause h)
    | persist => rw [runOf, persistRun_eq hc] at h; cases h
    | load => rcases loadRun_error_cause hc h with rfl | rfl <;> decide
    | encode => rcases encodeRun_error_cause hc h with rfl | rfl <;> decide
    | decode => rcases decodeRun_error_cause hc h with rfl | rfl | rfl | rfl <;> decide
    | release => cases h

/-! ### The endings of a command -/

/-- A command ends OK, or with one of its causes. -/
theorem exec_ends {i : Instr} {s t : State} (h : exec i s = .next t) : EndsOk t ∨ ∃ c ∈ causesOf i, EndsWith c t := by
  rcases exec_cases h with ⟨u, -, rfl⟩ | ⟨c, u, hr, rfl⟩
  · exact .inl (endsOk_finish u)
  · exact .inr ⟨c, runOf_error_cause hr, endsWith_raise i c s u⟩

/-- A command whose STATUS is not OK was aborted. -/
theorem exec_raised {i : Instr} {s t : State} (h : exec i s = .next t) (hk : t.kind ≠ .ok) :
    ∃ c u, runOf i s = .error (c, u) ∧ t = raise i c s u := by
  rcases exec_cases h with ⟨u, -, rfl⟩ | hraised
  · exact absurd (State.finish_kind u) hk
  · exact hraised

theorem storeEmpty_of_faulted {i : Instr} {s t : State} (hi : i = .build ∨ i = .load) (h : exec i s = .next t) (hk : t.kind ≠ .ok) :
    StoreEmpty t.store := by
  obtain ⟨c, u, -, rfl⟩ := exec_raised h hk
  exact storeEmpty_raise hi c s u

/-- RELEASE is never aborted, and the other three only read the store. -/
theorem store_eq_of_faulted {i : Instr} {s t : State} (hb : i ≠ .build) (hl : i ≠ .load) (h : exec i s = .next t) (hk : t.kind ≠ .ok) :
    t.store = s.store := by
  cases i with
  | build => exact absurd rfl hb
  | load => exact absurd rfl hl
  | persist | encode | decode => exact exec_reader_store (by decide) h
  | release =>
    obtain ⟨c, u, hr, -⟩ := exec_raised h hk
    cases hr

end Sys2Proof.Proofs
end

section
/-! PROOFS. The obligations of the family 60_exceptions. -/

namespace Sys2Proof.Proofs

open Sys2Proof.Machine Sys2Proof.Safety

/-- Settles O20: the abort of BUILD and LOAD empties the store, no other abort touches it, and a reserved word runs no command. -/
theorem faultedStore : Obligations.FaultedStore := by
  unfold Obligations.FaultedStore
  refine ⟨fun i s t h hk => ⟨fun hi => storeEmpty_of_faulted hi h hk, fun hb hl => store_eq_of_faulted hb hl h hk⟩, ?_⟩
  intro s t w e hb hd h
  rw [writeCmd_of_reserved hb fun i hi => by rw [hd] at hi; cases hi] at h
  cases h
  exact illegalCommand_store s

/-- Settles O22: what a run can be aborted for, command by command. -/
theorem outcomesPerCommand : Obligations.OutcomesPerCommand := by
  unfold Obligations.OutcomesPerCommand
  intro i s t h
  refine (exec_ends h).imp_right fun ⟨c, hc, hends⟩ => ⟨c, hends, ?_⟩
  cases i <;> exact hc

/-- Settles O11: after any ending STATUS is a function of the cause, which the table lists. -/
theorem statusOfCauses : Obligations.StatusOfCauses := by
  unfold Obligations.StatusOfCauses
  intro i s₀ s
  have hstatus (c : Cause) : (raise i c s₀ s).status = c.detail.bits ++ 0#1 ++ c.kind.bits :=
    status_of_endsWith (endsWith_raise i c s₀ s)
  simp only [hstatus]
  exact ⟨by decide, status_of_endsOk (endsOk_finish s)⟩

/-- Settles O12: the error entry writes STATUS and, in BUILD and LOAD, the store. -/
theorem raiseEffect : Obligations.RaiseEffect := by
  unfold Obligations.RaiseEffect
  intro i c s₀ s
  exact ⟨endsWith_raise i c s₀ s, fun hi => storeEmpty_raise hi c s₀ s, fun hb hl => raise_store_of_keeps (not_or.mpr ⟨hb, hl⟩) c s₀ s,
    raise_scratch i c s₀ s, raise_host i c s₀ s, raise_readData i c s₀ s⟩

end Sys2Proof.Proofs
end

section
/-! PROOFS. A reset of the block, alone and during a command (spec/70_reset_and_hazards.md R280, R281), and the moves and commands that have
a next state (R282, R285, R290, R296). -/

namespace Sys2Proof.Proofs

open Sys2Proof.Machine Sys2Proof.Safety

/-! ### Reset -/

/-- Reset moves the streams forward, whatever command it cuts off (R70). -/
theorem streamsGoForward_resetBlock_cutStreams (c : Option Instr) (s : State) : StreamsGoForward s (resetBlock (s.cutStreams c)) := by
  obtain ⟨hreadable, hbytes, hpos, hend, havailable, hsink, -, -⟩ := State.cutStreams_streams c s
  refine ⟨hreadable, hbytes, hpos, fun hle => ?_, havailable, hsink⟩
  rw [resetBlock_source, hbytes]
  exact hend hle

/-- Whatever command it cuts off, a reset leaves the reset state and the host's moves, the streams gone forward (R280, R281). -/
theorem resetBlock_cutStreams_effect (c : Option Instr) (s : State) :
    StoreEmpty (resetBlock (s.cutStreams c)).store ∧ EndsOk (resetBlock (s.cutStreams c))
      ∧ (resetBlock (s.cutStreams c)).host = s.host ∧ StreamsGoForward s (resetBlock (s.cutStreams c)) :=
  ⟨storeEmpty_release _, ⟨rfl, rfl, rfl⟩, State.cutStreams_host c s, streamsGoForward_resetBlock_cutStreams c s⟩

/-- Reset of the block that is not BUSY cuts no command off, so that the streams stand (R281). -/
theorem resetNow_streams_of_idle {s : State} (hb : s.busy = false) : (resetNow s).source = s.source ∧ (resetNow s).sink = s.sink := by
  rw [resetNow, (Phase.command_eq_none s).mpr hb, State.cutStreams_none]
  exact ⟨rfl, rfl⟩

/-- The command under way while the block is not BUSY is the one of the word written (R230, R234). -/
theorem mem_commandUnder_of_idle {s : State} (hb : s.busy = false) (w : Byte) (i : Instr) :
    i ∈ commandUnder w s ↔ decode w = .ok i := by
  rcases commandUnder_cases w s with ⟨hbusy, -⟩ | ⟨-, ⟨j, hd, hc⟩ | ⟨e, hd, hc⟩⟩
  · rw [hb] at hbusy
    cases hbusy
  · simp [hd, hc]
  · simp [hd, hc]

/-- A reset during a command that reads no source leaves the source (R67, R70). -/
theorem resetDuring_source {s : State} {w : Byte} (hb : s.busy = false)
    (hw : ∀ i, decode w = .ok i → i ∈ [Instr.persist, .release]) : (resetDuring w s).source = s.source := by
  obtain ⟨-, -, -, -, -, -, hsource, -⟩ := State.cutStreams_streams (commandUnder w s) s
  exact hsource fun i hi => (usesSource_eq_false_iff i).mpr (hw i ((mem_commandUnder_of_idle hb w i).mp hi))

/-- A reset during a command that writes no sink leaves the sink (R70). -/
theorem resetDuring_sink {s : State} {w : Byte} (hb : s.busy = false)
    (hw : ∀ i, decode w = .ok i → i ∈ [Instr.build, .load, .release]) : (resetDuring w s).sink = s.sink := by
  obtain ⟨-, -, -, -, -, -, -, hsink⟩ := State.cutStreams_streams (commandUnder w s) s
  exact hsink fun i hi => (usesSink_eq_false_iff i).mpr (hw i ((mem_commandUnder_of_idle hb w i).mp hi))

/-! ### What has a next state -/

theorem step_nil {s : State} (h : s.host = []) : step s = .next s := by simp [step, hostStep, h]

/-- A command ends in `finish` or in `raise`, and both are next states (R285). -/
theorem exec_total (i : Instr) (s : State) : ∃ t, exec i s = .next t := by
  rw [exec_eq_complete]
  rcases runOf i s with ⟨c, u⟩ | u
  · exact ⟨raise i c s u, rfl⟩
  · exact ⟨u.finish, rfl⟩

theorem writeCmd_total (w : Byte) (s : State) : ∃ t, writeCmd w s = .next t := by
  rcases writeCmd_cases w s with ⟨-, hdropped⟩ | ⟨-, ⟨i, -, hruns⟩ | ⟨e, -, hillegal⟩⟩
  · exact ⟨s, hdropped⟩
  · rw [hruns]
    exact exec_total i s
  · exact ⟨illegalCommand s, hillegal⟩

theorem hostWrite_total (reg : Nat) (w : Byte) (s : State) : ∃ t, hostWrite reg w s = .next t := by
  unfold hostWrite
  split
  · exact writeCmd_total w s
  · exact ⟨s, rfl⟩

theorem hostMove_openSource_of_busy {s : State} (hb : s.busy = true) (readable : Bool) (past rest : List Byte) :
    hostMove (.openSource readable past rest) s = .refused .streamChangeWhileBusy := by
  simp [hostMove, hb]

theorem hostMove_openSink_of_busy {s : State} (hb : s.busy = true) (available : Bool) :
    hostMove (.openSink available) s = .refused .streamChangeWhileBusy := by
  simp [hostMove, hb]

/-- A move of the host has a next state, or it changes a stream of the BUSY block and is refused for that (R290). -/
theorem hostMove_next_or_refused (m : HostMove) (s : State) :
    (∃ t, hostMove m s = .next t)
      ∨ (hostMove m s = .refused .streamChangeWhileBusy ∧ s.busy = true
        ∧ ((∃ b p q, m = .openSource b p q) ∨ ∃ b, m = .openSink b)) := by
  cases m with
  | write reg w => exact .inl (hostWrite_total reg w s)
  | read reg => exact .inl ⟨hostRead reg s, rfl⟩
  | openSource b p q =>
    cases hb : s.busy with
    | false => exact .inl ⟨_, hostMove_openSource_of_idle hb b p q⟩
    | true => exact .inr ⟨hostMove_openSource_of_busy hb b p q, rfl, .inl ⟨b, p, q, rfl⟩⟩
  | openSink b =>
    cases hb : s.busy with
    | false => exact .inl ⟨_, hostMove_openSink_of_idle hb b⟩
    | true => exact .inr ⟨hostMove_openSink_of_busy hb b, rfl, .inr ⟨b, rfl⟩⟩
  | reset => exact .inl ⟨resetNow s, rfl⟩
  | resetDuring w => exact .inl ⟨resetDuring w s, rfl⟩

end Sys2Proof.Proofs
end

section
/-! PROOFS. The obligations of the family 70_reset_and_hazards. -/

namespace Sys2Proof.Proofs

open Sys2Proof.Machine Sys2Proof.Safety

/-- Settles O13: both moves are the reset state after a cut-off of the streams, and what is cut off is the command under way. -/
theorem resetMoves : Obligations.ResetMoves := by
  unfold Obligations.ResetMoves
  intro s ms
  refine ⟨fun hhost => ?_, fun w hhost => ?_⟩
  · obtain ⟨hstore, hends, hmoves, hforward⟩ := resetBlock_cutStreams_effect s.phase.command { s with host := ms }
    exact ⟨resetNow { s with host := ms }, step_cons hhost, hstore, hends, hmoves, hforward,
      fun hidle => resetNow_streams_of_idle (s := { s with host := ms }) hidle⟩
  · obtain ⟨hstore, hends, hmoves, hforward⟩ := resetBlock_cutStreams_effect (commandUnder w { s with host := ms }) { s with host := ms }
    exact ⟨resetDuring w { s with host := ms }, step_cons hhost, hstore, hends, hmoves, hforward,
      fun hidle => ⟨resetDuring_source hidle, resetDuring_sink hidle⟩⟩

/-- Settles O15: there is no move for the step to take. -/
theorem waitsForTheHost : Obligations.WaitsForTheHost := by
  unfold Obligations.WaitsForTheHost
  exact fun s hhost _ => step_nil hhost

/-- Settles O16: every other move has a next state, and so has a step without a move. -/
theorem onlyBusyStreamChangeRefused : Obligations.OnlyBusyStreamChangeRefused := by
  unfold Obligations.OnlyBusyStreamChangeRefused
  intro s r h
  cases hhost : s.host with
  | nil =>
    rw [step_nil hhost] at h
    cases h
  | cons m ms =>
    rw [step_cons hhost] at h
    rcases hostMove_next_or_refused m { s with host := ms } with ⟨t, hnext⟩ | ⟨hrefused, hbusy, hmove⟩
    · rw [hnext] at h
      cases h
    · rw [hrefused] at h
      cases h
      refine ⟨rfl, hbusy, ?_⟩
      rcases hmove with ⟨b, p, q, rfl⟩ | ⟨b, rfl⟩
      · exact .inl ⟨b, p, q, ms, rfl⟩
      · exact .inr ⟨b, ms, rfl⟩

/-- Settles O17: either ending of a command is a next state with PHASE IDLE. -/
theorem commandsAreTotal : Obligations.CommandsAreTotal := by
  unfold Obligations.CommandsAreTotal
  intro i s
  obtain ⟨t, ht⟩ := exec_total i s
  exact ⟨t, ht, exec_phase ht⟩

end Sys2Proof.Proofs
end
